-- ==== Sys2Proof/Word.lean ====
section
/-!
DEFINITION. The value types of the spec (00_scope.md R6 to R8). Arithmetic is exact on `Nat` and
`Int`; a bit vector stands only where the spec names a bit field.
-/
namespace Sys2Proof

/-- R8: `Byte = 0 … 255`, one character of a text. -/
abbrev Byte := BitVec 8

/-- R6: a BitString is a sequence of Bits, first element leftmost. -/
abbrev BitString := List Bool

/-- R8: `Word_N`, an unsigned integer of fixed bit width `n`. -/
abbrev Word (n : Nat) := BitVec n

/-- R8: `Block = Word_N × Word_N`, written (left, right). -/
abbrev Block (n : Nat) := Word n × Word n

/-- R38: the content of the round-key store as plain data. Its layout is the strategy's: only the
strategy's own `store` and `load` say which value of its type `RK` it stands for (log 1). -/
abbrev RoundKeyData := List Int

/-- R8, R35: the key elements as the host supplies them, integers not yet validated. -/
abbrev KeySeq := List Int

/-- R50: a buffer whose elements are reached by index. An index that is not listed holds no value
(R59). The canonical form is `Machine.bufWf`: indexes strictly rising. -/
abbrev Buf (α : Type) := List (Nat × α)

/-- R28: the alphabet width, 8 bits per character, a constant and not configurable. -/
def alpha : Nat := 8

end Sys2Proof
end

