-- ==== Sys2Proof/Config.lean ====
section
/-!
DEFINITION. What the spec leaves to the strategy or to an implementation: the strategy `S`
(00_scope.md R10), the OPEN limits (R5), the strap (10_state.md R33), and the free values, which have
no body so that no proof can lean on one.
-/
namespace Sys2Proof

/-- How a strategy with round keys of type `RK` transforms a block. -/
inductive Transform : Type → Type 1 where
  /-- R110, R111: whole-block functions, opaque to the engine, whatever `RK` is. -/
  | whole {RK : Type} (eb db : (n m : Nat) → Block n → RK → Block n) : Transform RK
  /-- R113 (decision D15): `RK` is a finite sequence of round keys; one map per round, applied once per
  round key. -/
  | rounds {RoundKey : Type} (roundEnc roundDec : (n m : Nat) → Block n → RoundKey → Block n) :
      Transform (List RoundKey)

/-- `encryptBlock`. For the round-iterated form R113: the round keys in the order `S.ek` produced them,
one per round. -/
def Transform.eb {RK : Type} : Transform RK → (n m : Nat) → Block n → RK → Block n
  | .whole eb _ => eb
  | .rounds roundEnc _ => fun n m b rk => rk.foldl (roundEnc n m) b

/-- `decryptBlock`. For the round-iterated form R113: the same round keys in the reverse order. -/
def Transform.db {RK : Type} : Transform RK → (n m : Nat) → Block n → RK → Block n
  | .whole _ db => db
  | .rounds _ roundDec => fun n m b rk => rk.reverse.foldl (roundDec n m) b

/-- The value `RND` holds when an encryption of a block has run: 0 with an opaque strategy (R21). With a
round-iterated one, the last index of the loop `RND in 0 .. T-1` of R113, and 0 when that loop runs zero
times: DEDUCED, log 17. -/
def Transform.rndAfterEnc {RK : Type} : Transform RK → RK → Nat
  | .whole _ _ => fun _ => 0
  | .rounds _ _ => fun rk => rk.length - 1

/-- The value `RND` holds when a decryption of a block has run: 0 with an opaque strategy (R21). The loop
of R113 goes `T-1 downto 0`, so it is 0 with a round-iterated one too: DEDUCED, log 17. -/
def Transform.rndAfterDec {RK : Type} (_ : Transform RK) (_ : RK) : Nat := 0

/-- R10: the strategy `S`: its own type `RK` of round keys and pure, total functions that may depend on
`(N, M)`. Which of them count as present is read from the `STRAT` register (R33). That `S.eb` and `S.db`
return words in `[0, 2^N)` is the contract of R10 and D22; here the type carries it. `store` and `load`
are the layout of a value of `RK` in the round-key store, the strategy's own (R38, log 1): what is
stored is what is read back. -/
structure Strategy where
  /-- The type of RoundKeys, fixed by the strategy and opaque to the engine (R8, R10). -/
  RK         : Type
  store      : RK → RoundKeyData
  load       : RoundKeyData → RK
  load_store : ∀ rk : RK, load (store rk) = rk
  /-- `S.ek`, SPK `expandKey`. -/
  ek         : (n m : Nat) → KeySeq → RK
  /-- What `S.eb` and `S.db` are made of. -/
  transform  : Transform RK

/-- `S.eb`, SPK `encryptBlock` (R10). -/
def Strategy.eb (S : Strategy) : (n m : Nat) → Block n → S.RK → Block n := S.transform.eb

/-- `S.db`, SPK `decryptBlock` (R10). -/
def Strategy.db (S : Strategy) : (n m : Nat) → Block n → S.RK → Block n := S.transform.db

/-- R112, the round-trip invariant, for one configuration. A property a theorem may assume of a
strategy by name; nothing in the machine checks it. -/
def Strategy.Inverts (S : Strategy) (n m : Nat) : Prop :=
  ∀ (b : Block n) (rk : S.RK), S.db n m (S.eb n m b rk) rk = b

/-- A strategy, to show that there is one. -/
def Strategy.witness : Strategy where
  RK := Unit
  store := fun _ => []
  load := fun _ => ()
  load_store := fun _ => rfl
  ek := fun _ _ _ => ()
  transform := .whole (fun _ _ b _ => b) (fun _ _ b _ => b)

namespace Config

/-- A strategy of which nothing is known. The argument only shows that there is a strategy, which Lean
asks before it accepts a constant without a body. -/
opaque someStrategy (exists_strategy : Inhabited Strategy) : Strategy

/-- The strategy this machine is wired to (R10, R33), with its type `RK`. Nothing in Lean can evaluate
it, so a theorem about the machine holds for every strategy. DESIGN CHOICE, log 1. -/
def strategy : Strategy := someStrategy ⟨Strategy.witness⟩

/-- The strap value of `STRAT` in `State.reset` (R33, R41: "the strap value"): all three strategy
functions present. DESIGN CHOICE, log 2. -/
def strap : BitVec 3 := 0b111

/-- R5: the OPEN capacities; `none` is "no limit", the spec's model default. -/
structure Limits where
  nLimit    : Option Nat
  mLimit    : Option Nat
  textLimit : Option Nat
  keyLimit  : Option Nat
  deriving DecidableEq, Repr

/-- R5, D21: the model's default, no limit. Log 3. -/
def limits : Limits := { nLimit := none, mLimit := none, textLimit := none, keyLimit := none }

/-- R6 defines `a div b` for `b ≥ 1` only. Free value, log 8. -/
opaque divByZero : Nat → Nat

/-- R6 defines `a mod b` for `b ≥ 1` only. Free value, log 8. -/
opaque modByZero : Nat → Nat

/-- What a hidden number register holds once a command has ended (R40: no value): a free value, by
the draw counter and the register's slot. Log 5. -/
opaque lostNat : (counter slot : Nat) → Nat

/-- What BITBUF holds once a command has ended (R40: no value). Free value, log 5. -/
opaque lostBits : (counter : Nat) → BitString

/-- What RKBUF holds once a command has ended (R40: no value). Free value, log 5. -/
opaque lostRoundKeys : (counter : Nat) → RoundKeyData

/-- What an element of WBUF reads as while it holds no value (R41: unspecified). Free value, log 6. -/
opaque unwrittenWord : (counter index : Nat) → Nat

/-- What the host reads from OUTBUF outside its duty (R36, U12: unspecified). Free value, log 9. -/
opaque unspecifiedOutByte : (counter index : Nat) → Byte

end Config

end Sys2Proof
end

