-- ==== Sys2Proof/Machine/HostAction.lean ====
section
/-!
DEFINITION. The host's actions: the host script of 30_encoding.md R78 and the host interface table of
70_reset_and_hazards.md R217.
-/
namespace Sys2Proof.Machine

/-- One host action. Registers are named by number (10_state.md R23). -/
inductive HostAction where
  /-- `(W, 0, regno, value)`; register 0 is `CMD`, whose write is the whole command (R160). -/
  | writeReg (no : Nat) (value : Int)
  /-- `(W, 1, i, byte)`. -/
  | writeInbuf (i : Nat) (byte : Byte)
  /-- `(W, 2, i, int)`. -/
  | writeKeybuf (i : Nat) (value : Int)
  /-- `(W, 3, i, byte)`: OUTBUF is read-only to the host, the write is ignored (R60). -/
  | writeOutbuf (i : Nat) (byte : Byte)
  /-- `(R, 0, regno, -)`. -/
  | readReg (no : Nat)
  /-- `(R, 1, i, -)`. -/
  | readInbuf (i : Nat)
  /-- `(R, 2, i, -)`. -/
  | readKeybuf (i : Nat)
  /-- `(R, 3, i, -)`. -/
  | readOutbuf (i : Nat)
  /-- R210: the external reset, between commands. -/
  | reset
  deriving DecidableEq, Repr

end Sys2Proof.Machine
end

