-- ==== Sys2Proof/Machine/State.lean ====
section
/-!
DEFINITION. The machine's state as plain data: every register, flag and buffer of 10_state.md and the
sequencer's hidden state, then the model's own fields; why a step can stop; the state after reset
(10_state.md R41).
-/
namespace Sys2Proof.Machine

/-- 43_facade.md R163: `dir` is `enc` for ENCRYPT_ASCII and `dec` for DECRYPT_ASCII. -/
inductive Dir where
  | enc
  | dec
  deriving DecidableEq, Repr

/-- One invocation of a strategy function (R42, R95, R115): the only trace the spec constrains. -/
inductive StratEvent where
  /-- `EK`: `S.ek` invoked. -/
  | ek
  /-- `EB(BLK)`: `S.eb` invoked for block `BLK`. -/
  | eb (blk : Nat)
  /-- `DB(BLK)`: `S.db` invoked for block `BLK`. -/
  | db (blk : Nat)
  deriving DecidableEq, Repr

structure State where
  -- Host-written registers (R25, R30, R31)
  nIn         : Int
  mIn         : Int
  textPresent : Bool
  textlen     : Nat
  keylen      : Nat
  -- STATUS (R22)
  done        : Bool
  err         : Bool
  outValid    : Bool
  cfgValid    : Bool
  -- The other hardware-written registers (R26, R27, R29, R32) and the strap (R33)
  errcode     : BitVec 4
  errinfo     : Nat
  n           : Nat
  m           : Nat
  maxWord     : Nat
  maxKey      : Nat
  outlen      : Nat
  strat       : BitVec 3
  -- Host-visible buffers (R34 to R36)
  inbuf       : Buf Byte
  keybuf      : Buf Int
  outbuf      : Buf Byte
  -- Hidden: the sequencer's position (R21, R163)
  phase       : BitVec 4
  blk         : Nat
  rnd         : Nat
  dir         : Dir
  -- Hidden: datapath, codec buffers, round-key store (R20, R37, R38)
  l           : Nat
  r           : Nat
  bitbuf      : BitString
  wbuf        : Buf Nat
  wcount      : Nat
  bcount      : Nat
  rkbuf       : RoundKeyData
  rkValid     : Bool
  -- The model's own fields (logs 5, 12, 13, 18)
  events      : List StratEvent
  pending     : List HostAction
  rdata       : Int
  freeCtr     : Nat
  deriving DecidableEq, Repr

/-- Why the machine stops with a fault: never. Every error of the spec is taken by `raise` and leaves
the machine ready for the next command (60_exceptions.md R190, R191). -/
inductive Fault where
  deriving DecidableEq, Repr

/-- Where the spec gives the model no meaning (60_exceptions.md R196). Every one is safe: the model
stops where the spec says nothing. -/
inductive Refusal where
  /-- An instruction whose meaning is not modelled yet, by mnemonic. Safe. No arm is refused so. -/
  | notModelled (mnemonic : String)
  /-- TEXT_TO_BITS, or the host, reads `INBUF[i]`, which the host never wrote (R59, R217). Safe. -/
  | inbufUnwritten (i : Nat)
  /-- VALIDATE_KEY, EXPAND_KEY, or the host, reads `KEYBUF[i]`, which the host never wrote (R59, R217).
  Safe. -/
  | keybufUnwritten (i : Nat)
  /-- ENSURE_N_BITS meets a word that does not fit in `N` bits (R137, U2), or a block transform meets
  one in `L` or `R` (R110, R111: each in `[0, 2^N)`). Safe. -/
  | wordOutOfRange (w : Nat)
  /-- PARSE_WORDS would parse a chunk shorter than `N` bits as a word (R133). Safe. -/
  | shortChunk
  /-- A configuration, a result or a host access is beyond an OPEN limit (R5, R60, R90). Safe; never
  reached with the default limits. -/
  | beyondLimit
  /-- A host write whose value the port cannot carry (R196): a negative `TEXTLEN` or `KEYLEN`. Safe. -/
  | valueNotCarried
  deriving DecidableEq, Repr

/-- What one instruction or one step answers. -/
abbrev Result := Host.Outcome State Fault Refusal

/-- R41, R211: the state right after reset. Where R41 says "unspecified (no value)" for a hidden
register, the value is a DESIGN CHOICE: 0 or empty (log 4); the strap is `Config.strap` (log 2). -/
def State.reset : State where
  nIn := 0
  mIn := 0
  textPresent := false
  textlen := 0
  keylen := 0
  done := false
  err := false
  outValid := false
  cfgValid := false
  errcode := 0
  errinfo := 0
  n := 0
  m := 0
  maxWord := 0
  maxKey := 0
  outlen := 0
  strat := Config.strap
  inbuf := []
  keybuf := []
  outbuf := []
  phase := 0
  blk := 0
  rnd := 0
  dir := .enc
  l := 0
  r := 0
  bitbuf := []
  wbuf := []
  wcount := 0
  bcount := 0
  rkbuf := []
  rkValid := false
  events := []
  pending := []
  rdata := 0
  freeCtr := 0

end Sys2Proof.Machine
end

