-- ==== Sys2Proof/Machine/Flags.lean ====
section
/-!
DEFINITION. STATUS and STRAT as words: each flag is stored once, its bit's place is given here
(10_state.md R22, R33). There are no arithmetic condition codes.
-/
namespace Sys2Proof.Machine

/-- R22: the STATUS word. Bit 0 `DONE`, 1 `ERR`, 2 `OUT_VALID`, 3 `CFG_VALID`; bit 4 `BUSY` always
reads 0; bits 31:5 are reserved and read 0. -/
def statusWord (s : State) : BitVec 32 :=
  BitVec.ofNat 32
    (s.done.toNat + 2 * s.err.toNat + 4 * s.outValid.toNat + 8 * s.cfgValid.toNat)

/-- R33: `EK_PRESENT`, bit 0 of STRAT: `S.ek` exists. -/
def ekPresent (s : State) : Bool := s.strat.getLsbD 0

/-- R33: `EB_PRESENT`, bit 1 of STRAT: `S.eb` exists. -/
def ebPresent (s : State) : Bool := s.strat.getLsbD 1

/-- R33: `DB_PRESENT`, bit 2 of STRAT: `S.db` exists. -/
def dbPresent (s : State) : Bool := s.strat.getLsbD 2

/-- R160: the flags and results every command clears first. -/
def clearResult (s : State) : State :=
  { s with done := false, err := false, outValid := false, errcode := 0, errinfo := 0, outlen := 0,
           rkValid := false }

end Sys2Proof.Machine
end

