-- ==== Sys2Proof/Machine/Operands.lean ====
section
/-!
DEFINITION. Operand assembly: numerals and bits (00_scope.md R7, 20_memory.md R51), and the pure
functions of the codec and the segmenter (42_codec.md R130 to R141, 30_encoding.md R77). They are
functions of sequences; the machine's micro-operations apply them to its buffers.
-/
namespace Sys2Proof.Machine

/-- R7: `val(bs)`, the unsigned numeral, first element most significant; `val([]) = 0`. -/
def val (bs : BitString) : Nat := bs.foldl (fun acc b => 2 * acc + b.toNat) 0

/-- R7: `tobits_w(v)`, `w` bits, most significant first. The spec defines it for `v < 2^w` only; of a
larger value this function keeps the low `w` bits (DESIGN CHOICE, log 21), and the meanings apply it to
no such value. -/
def toBits : (w v : Nat) → BitString
  | 0, _ => []
  | w + 1, v => v.testBit w :: toBits w v

/-- R6: the slice `s[i:j]`, clipped to the length. -/
def slice {α : Type} (s : List α) (i j : Nat) : List α := (s.drop i).take (j - i)

/-- R130: `textToBits`, 8 bits per character in character order. -/
def textToBits (t : List Byte) : BitString := t.flatMap fun c => toBits alpha c.toNat

/-- R131: `chop(bs, w)`, `ceil(len / w)` chunks from the left; only the last may be short. R131 has
`w ≥ 1`; for `w = 0` there is no chunk (DESIGN CHOICE, log 21). -/
def chop (bs : BitString) (w : Nat) : List BitString :=
  (List.range ((bs.length + w - 1) / w)).map fun k => slice bs (k * w) (k * w + w)

/-- R132: `parseWords` for words of `n` bits. R133: it is never applied to a chunk shorter than `n`, so
there it has no value. -/
def parseWords (n : Nat) (chunks : List BitString) : Option (List Nat) :=
  if chunks.all (fun c => c.length == n) then some (chunks.map val) else none

/-- R134: `padEven`, one zero word appended when the count is odd. -/
def padEven (ws : List Nat) : List Nat := if ws.length % 2 = 1 then ws ++ [0] else ws

/-- R135: `pairBlocks`, the earlier word of a pair is the left word. The spec defines it for an even
number of words; of an odd number this function drops the last word, which is the model's own choice
(DESIGN CHOICE, log 21). The model applies it to padded word lists only, whose number is even (R134). -/
def pairBlocks : List Nat → List (Nat × Nat)
  | a :: b :: rest => (a, b) :: pairBlocks rest
  | _ => []

/-- R136: `flatten`, left word first. -/
def flatten (bs : List (Nat × Nat)) : List Nat := bs.flatMap fun b => [b.1, b.2]

/-- R137: `wordsToBits`, each word as exactly `n` bits. The spec defines it when every word is in
`[0, 2^n)`; other words are as `toBits` has them (log 21). -/
def wordsToBits (n : Nat) (ws : List Nat) : BitString := ws.flatMap (toBits n)

/-- R139: `bitsToText`, each 8-bit group the byte of its value. The spec applies it to whole groups
only (R138); bits after the last whole group are left out (DESIGN CHOICE, log 21). -/
def bitsToText (bs : BitString) : List Byte :=
  (List.range (bs.length / alpha)).map fun i =>
    BitVec.ofNat 8 (val (slice bs (alpha * i) (alpha * i + alpha)))

/-- R140: `textToBlocks`. R133: it is partial, with no value for a text whose bit length is no multiple
of `n`, since its last chunk would be short. -/
def textToBlocks (n : Nat) (t : List Byte) : Option (List (Nat × Nat)) :=
  (parseWords n (chop (textToBits t) n)).map fun ws => pairBlocks (padEven ws)

/-- R141, in the form on a word sequence: the text, or the remainder that CodecAlignmentError carries
(R138). The spec defines it when every word is in `[0, 2^n)`; other words are as
`toBits` has them (log 21). -/
def wordsToText (n : Nat) (ws : List Nat) : Except Nat (List Byte) :=
  if (wordsToBits n ws).length % alpha = 0 then .ok (bitsToText (wordsToBits n ws))
  else .error ((wordsToBits n ws).length % alpha)

/-- R141: `blocksToText`. -/
def blocksToText (n : Nat) (bs : List (Nat × Nat)) : Except Nat (List Byte) :=
  wordsToText n (flatten bs)

/-- R6: `a div n`, with a free value for `n = 0` (log 8). -/
def divN (a n : Nat) : Nat := if n = 0 then Config.divByZero a else a / n

/-- R6: `a mod n`, with a free value for `n = 0` (log 8). -/
def modN (a n : Nat) : Nat := if n = 0 then Config.modByZero a else a % n

/-- A block of register values as the strategy sees it (R8: two words in `[0, 2^n)`;
the meanings apply it to no other block). -/
def toBlock (n : Nat) (b : Nat × Nat) : Block n := (BitVec.ofNat n b.1, BitVec.ofNat n b.2)

/-- A block the strategy returned, as register values. -/
def ofBlock {n : Nat} (b : Block n) : Nat × Nat := (b.1.toNat, b.2.toNat)

/-- `S.eb` on register values (R110). -/
def encBlock (S : Strategy) (n m : Nat) (rk : S.RK) (b : Nat × Nat) : Nat × Nat :=
  ofBlock (S.eb n m (toBlock n b) rk)

/-- `S.db` on register values (R111). -/
def decBlock (S : Strategy) (n m : Nat) (rk : S.RK) (b : Nat × Nat) : Nat × Nat :=
  ofBlock (S.db n m (toBlock n b) rk)

/-- The block transform of a text command (R161, R162): `S.eb` for `enc`, `S.db` for `dec`. -/
def dirBlock (S : Strategy) (d : Dir) (n m : Nat) (rk : S.RK) (b : Nat × Nat) : Nat × Nat :=
  match d with
  | .enc => encBlock S n m rk b
  | .dec => decBlock S n m rk b

end Sys2Proof.Machine
end

