-- ==== Sys2Proof/Machine/Ops.lean ====
section
/-!
DEFINITION. The shared operations: buffers by index (20_memory.md R50, R59), OPEN limits (00_scope.md
R5), the start and the two ends of a command (43_facade.md R160, R164; 60_exceptions.md R190), and
sequencing (43_facade.md R163).
-/
namespace Sys2Proof.Machine

/-! ### Buffers -/

/-- Element `i` of a buffer; `none` when it holds no value (R59). -/
def readBuf {α : Type} : Buf α → Nat → Option α
  | [], _ => none
  | (k, v) :: rest, i => if k = i then some v else readBuf rest i

/-- `BUF[i] <- v` (R9). Keeps the canonical form. -/
def writeBuf {α : Type} : Buf α → Nat → α → Buf α
  | [], i, v => [(i, v)]
  | (k, w) :: rest, i, v =>
    if i < k then (i, v) :: (k, w) :: rest
    else if i = k then (i, v) :: rest
    else (k, w) :: writeBuf rest i v

/-- `BUF[start + j] <- vs[j]`, in increasing `j`. -/
def writeSeq {α : Type} : Buf α → (start : Nat) → List α → Buf α
  | b, _, [] => b
  | b, start, v :: vs => writeSeq (writeBuf b start v) (start + 1) vs

/-- The sequence `[BUF[start], …, BUF[start+len-1]]`, read in increasing index (R64), or the first
index that holds no value. -/
def readSeq {α : Type} (b : Buf α) : (start len : Nat) → Except Nat (List α)
  | _, 0 => .ok []
  | start, len + 1 =>
    match readBuf b start with
    | none => .error start
    | some v =>
      match readSeq b (start + 1) len with
      | .ok vs => .ok (v :: vs)
      | .error i => .error i

/-- The canonical form: indexes strictly rising, so that equal buffers are equal lists. -/
def bufWf {α : Type} : Buf α → Bool
  | [] => true
  | [_] => true
  | a :: b :: rest => decide (a.1 < b.1) && bufWf (b :: rest)

/-- Every buffer of the state is in canonical form. -/
def Memory.wf (s : State) : Bool := bufWf s.inbuf && bufWf s.keybuf && bufWf s.outbuf && bufWf s.wbuf

/-- `WBUF[k]` as the sequencer reads it. An element without a value reads as a free word of `N` bits
(R41, log 6). -/
def readWord (s : State) (k : Nat) : Nat :=
  match readBuf s.wbuf k with
  | some w => w
  | none => Config.unwrittenWord s.freeCtr k % 2 ^ s.n

/-- `OUTBUF[i]` as the host reads it: the result byte when `OUT_VALID = 1` and `i < OUTLEN`, otherwise
unspecified (R36, R217, U12), a free byte (log 9). -/
def outByte (s : State) (i : Nat) : Byte :=
  if s.outValid && decide (i < s.outlen) then
    (readBuf s.outbuf i).getD (Config.unspecifiedOutByte s.freeCtr i)
  else Config.unspecifiedOutByte s.freeCtr i

/-- R5: a quantity is within an OPEN limit. -/
def within (limit : Option Nat) (x : Nat) : Bool :=
  match limit with
  | none => true
  | some b => decide (x ≤ b)

/-! ### The start and the ends of a command -/

/-- R40: the hidden state loses its values. The number registers, BITBUF and RKBUF take free values
(`L` and `R` free words of `N` bits), WBUF holds no element; the draw counter moves on. Log 5.
R21 says that `RND` stays 0 with an opaque strategy, R40 that it holds no value outside a command, and
nothing clears it at a command's start (R160): the model lets `RND` go with the rest, whatever the
strategy, and reads R21 of the block transform, which then writes 0 (DESIGN CHOICE, log 5). -/
def loseHidden (s : State) : State :=
  { s with
    blk := Config.lostNat s.freeCtr 0
    rnd := Config.lostNat s.freeCtr 1
    l := Config.lostNat s.freeCtr 2 % 2 ^ s.n
    r := Config.lostNat s.freeCtr 3 % 2 ^ s.n
    wcount := Config.lostNat s.freeCtr 4
    bcount := Config.lostNat s.freeCtr 5
    bitbuf := Config.lostBits s.freeCtr
    rkbuf := Config.lostRoundKeys s.freeCtr
    wbuf := []
    freeCtr := s.freeCtr + 1 }

/-- R160: `start_command()`. The trace of strategy invocations is the model's own (log 18). -/
def startCommand (s : State) : State := { clearResult s with events := [] }

/-- R180: the seven errors. -/
inductive ErrorKind where
  | configuration
  | keyFormat
  | keyRange
  | input
  | codecAlignment
  | notImplemented
  | illegalCommand
  deriving DecidableEq, Repr

/-- R74: the `ERRCODE` values. -/
def errorCode : ErrorKind → BitVec 4
  | .configuration => 1
  | .keyFormat => 2
  | .keyRange => 3
  | .input => 4
  | .codecAlignment => 5
  | .notImplemented => 6
  | .illegalCommand => 7

/-- R190: `raise E(info)`. Control goes to IDLE, the command is over, the hidden state loses its
values (R40). There is no handler and nothing to return to (R191): the error stays readable until the
next command's start clears it. -/
def raiseError (e : ErrorKind) (info : Nat) (s : State) : State :=
  loseHidden
    { s with errcode := errorCode e, errinfo := info, err := true, outValid := false, outlen := 0,
             rkValid := false, phase := 0, done := true }

/-- R164: `complete_ok(out)`; `out` is the length of the result text, or `none` for CONSTRUCT. -/
def completeOk (out : Option Nat) (s : State) : State :=
  let s' : State :=
    match out with
    | some len => { s with outlen := len, outValid := true }
    | none => s
  loseHidden { s' with rkValid := false, phase := 0, done := true }

/-! ### Sequencing -/

/-- `PHASE <- p`: the transfer to the next micro-operation (R163). -/
def toPhase (p : BitVec 4) (s : State) : State := { s with phase := p }

/-- One micro-operation after another: when the first has ended the command (`PHASE = 0`, by `raise`
or by `complete_ok`), nothing after it is executed (R9, R190). -/
def andThen (first : Result) (f : State → Result) : Result :=
  match first with
  | .next s => if s.phase = 0 then .next s else f s
  | .fault x => .fault x
  | .refused x => .refused x

end Sys2Proof.Machine
end

