-- ==== Sys2Proof/Machine/ConfigKey.lean ====
section
/-!
DEFINITION. Family 40 (40_config_and_key.md): CONFIGURE and CONSTRUCT, VALIDATE_KEY, EXPAND_KEY.
-/
namespace Sys2Proof.Machine

/-- R75: bit 0 = 1 if `N_IN ≤ 0`, bit 1 = 1 if `M_IN ≤ 0`. -/
def configFault (s : State) : Nat :=
  (if s.nIn ≤ 0 then 1 else 0) + (if s.mIn ≤ 0 then 2 else 0)

/-- R90(b): a failed CONSTRUCT leaves no configuration. -/
def clearConfig (s : State) : State :=
  { s with cfgValid := false, n := 0, m := 0, maxWord := 0, maxKey := 0 }

/-- R90, R91: the configuration `(n, m)`, its derived maxima exact. -/
def setConfig (n m : Nat) (s : State) : State :=
  { s with n := n, m := m, maxWord := 2 ^ n, maxKey := 2 ^ (m * n), cfgValid := true }

/-- The body of R90 after `start_command`, shared by the micro-operation and the command. -/
def configureBody (s : State) : Result :=
  if configFault s ≠ 0 then
    .next (raiseError .configuration (configFault s) (clearConfig s))
  else if within Config.limits.nLimit s.nIn.toNat && within Config.limits.mLimit s.mIn.toNat then
    .next (completeOk none (setConfig s.nIn.toNat s.mIn.toNat s))
  else .refused .beyondLimit

/-- `CONFIGURE`, `PHASE = 15` (R76, R90): the single micro-operation of CONSTRUCT. -/
def execConfigure (s : State) : Result := configureBody s

/-- `CONSTRUCT`, `OP = 1` (R90): the whole command. -/
def execConstruct (s : State) : Result := configureBody (toPhase 15 (startCommand s))

/-- What R93's loop over the key elements finds. -/
inductive KeyScan where
  | allInRange
  | outOfRange (i : Nat)
  | unwritten (i : Nat)
  deriving DecidableEq, Repr

/-- R93: `for i in start .. start+count-1`: the lowest element outside `[0, maxWord)`. The bound is
strict. An element the host never wrote stops the scan (R59, log 7). -/
def scanKey (keybuf : Buf Int) (maxWord : Nat) : (start count : Nat) → KeyScan
  | _, 0 => .allInRange
  | start, count + 1 =>
    match readBuf keybuf start with
    | none => .unwritten start
    | some k =>
      if k < 0 ∨ (maxWord : Int) ≤ k then .outOfRange start
      else scanKey keybuf maxWord (start + 1) count

/-- `VALIDATE_KEY`, `PHASE = 2` (R93): the count first, then the elements in increasing index. -/
def execValidateKey (s : State) : Result :=
  if s.keylen ≠ s.m then .next (raiseError .keyFormat s.keylen s)
  else
    match scanKey s.keybuf s.maxWord 0 s.m with
    | .allInRange => .next (toPhase 3 s)
    | .outOfRange i => .next (raiseError .keyRange i s)
    | .unwritten i => .refused (.keybufUnwritten i)

/-- R94 for a strategy `S`: `RKBUF <- S.ek([KEYBUF[0], …, KEYBUF[M-1]])`, one invocation, in the
layout of the strategy (R38). -/
def expandKeyWith (S : Strategy) (s : State) : Result :=
  if ekPresent s then
    match readSeq s.keybuf 0 s.m with
    | .ok key =>
      .next (toPhase 4
        { s with rkbuf := S.store (S.ek s.n s.m key), rkValid := true, events := s.events ++ [.ek] })
    | .error i => .refused (.keybufUnwritten i)
  else .next (raiseError .notImplemented 0 s)

/-- `EXPAND_KEY`, `PHASE = 3` (R94). -/
def execExpandKey (s : State) : Result := expandKeyWith Config.strategy s

end Sys2Proof.Machine
end

