-- ==== Sys2Proof/Machine/Codec.lean ====
section
/-!
DEFINITION. Family 42 (42_codec.md): the micro-operations of the bit/byte codec and of the block
segmenter. Each moves `PHASE` as 43_facade.md R163 says.
-/
namespace Sys2Proof.Machine

/-- `TEXT_TO_BITS`, `PHASE = 4` (R130). An element the host never wrote is refused (R59). -/
def execTextToBits (s : State) : Result :=
  match readSeq s.inbuf 0 s.textlen with
  | .ok t => .next (toPhase 5 { s with bitbuf := textToBits t })
  | .error i => .refused (.inbufUnwritten i)

/-- `CHOP_N`, `PHASE = 5` (R131): `WCOUNT <- len(BITBUF) div N`. -/
def execChopN (s : State) : Result :=
  .next (toPhase 6 { s with wcount := divN s.bitbuf.length s.n })

/-- The words of R132: `val(BITBUF[k*N : k*N+N])` for `k = 0 .. WCOUNT-1`. -/
def bitWords (bits : BitString) (n count : Nat) : List Nat :=
  (List.range count).map fun k => val (slice bits (k * n) (k * n + n))

/-- `PARSE_WORDS`, `PHASE = 6` (R132). A chunk shorter than `N` bits is never parsed (R133). -/
def execParseWords (s : State) : Result :=
  if s.wcount * s.n ≤ s.bitbuf.length then
    .next (toPhase 7 { s with wbuf := writeSeq s.wbuf 0 (bitWords s.bitbuf s.n s.wcount) })
  else .refused .shortChunk

/-- R134: exactly one zero word appended when `WCOUNT` is odd. -/
def padWords (s : State) : State :=
  if s.wcount % 2 = 1 then { s with wbuf := writeBuf s.wbuf s.wcount 0, wcount := s.wcount + 1 }
  else s

/-- `PAD_EVEN`, `PHASE = 7` (R134); then PAIR_BLOCKS with `BLK <- 0`, or ENSURE_N_BITS when there is
no block (R163). -/
def execPadEven (s : State) : Result :=
  let p := padWords s
  let q : State := { p with bcount := p.wcount / 2 }
  if 0 < q.bcount then .next (toPhase 8 { q with blk := 0 }) else .next (toPhase 12 q)

/-- `PAIR_BLOCKS`, `PHASE = 8` (R135): `L` the left word, `R` the right word. -/
def execPairBlocks (s : State) : Result :=
  let p : State := { s with l := readWord s (2 * s.blk), r := readWord s (2 * s.blk + 1) }
  .next (toPhase (match s.dir with | .enc => 9 | .dec => 10) p)

/-- `FLATTEN`, `PHASE = 11` (R136); then the next block, or ENSURE_N_BITS after the last (R163,
log 16). -/
def execFlatten (s : State) : Result :=
  let p : State :=
    { s with wbuf := writeBuf (writeBuf s.wbuf (2 * s.blk) s.l) (2 * s.blk + 1) s.r }
  if s.blk + 1 < s.bcount then .next (toPhase 8 { p with blk := s.blk + 1 })
  else .next (toPhase 12 p)

/-- `WBUF[0 … WCOUNT-1]` as ENSURE_N_BITS reads it. -/
def storedWords (s : State) : List Nat := (List.range s.wcount).map (readWord s)

/-- `ENSURE_N_BITS`, `PHASE = 12` (R137): a word that does not fit is refused, never truncated. -/
def execEnsureNBits (s : State) : Result :=
  match (storedWords s).find? (fun w => decide (2 ^ s.n ≤ w)) with
  | some w => .refused (.wordOutOfRange w)
  | none => .next (toPhase 13 { s with bitbuf := wordsToBits s.n (storedWords s) })

/-- `ALIGN_CHECK`, `PHASE = 13` (R138): decided on the length `N * WCOUNT` alone. -/
def execAlignCheck (s : State) : Result :=
  if (s.n * s.wcount) % alpha ≠ 0 then
    .next (raiseError .codecAlignment ((s.n * s.wcount) % alpha) s)
  else .next (toPhase 14 s)

/-- `BITS_TO_TEXT`, `PHASE = 14` (R139): the bytes into OUTBUF, then `complete_ok` (R163, R164). -/
def execBitsToText (s : State) : Result :=
  if within Config.limits.textLimit (s.bitbuf.length / alpha) then
    .next (completeOk (some (s.bitbuf.length / alpha))
      { s with outbuf := writeSeq s.outbuf 0 (bitsToText s.bitbuf) })
  else .refused .beyondLimit

end Sys2Proof.Machine
end

