-- ==== Sys2Proof/Machine/Engine.lean ====
section
/-!
DEFINITION. Family 41 (41_round_engine.md): the block transform and the block loop. The definitions
take the strategy as an argument (00_scope.md R10); the machine's meanings apply them to
`Config.strategy`.
-/
namespace Sys2Proof.Machine

/-- R110, R111: the operands of a block transform are words in `[0, 2^N)`. The first that is not. -/
def blockFault (s : State) : Option Nat :=
  if 2 ^ s.n ≤ s.l then some s.l else if 2 ^ s.n ≤ s.r then some s.r else none

/-- R110 for a strategy `S`: `(L, R) <- S.eb((L, R), RKBUF)`, one invocation. -/
def encryptBlockWith (S : Strategy) (s : State) : Result :=
  if ebPresent s then
    match blockFault s with
    | some w => .refused (.wordOutOfRange w)
    | none =>
      .next (toPhase 11
        { s with
          l := (encBlock S s.n s.m (S.load s.rkbuf) (s.l, s.r)).1
          r := (encBlock S s.n s.m (S.load s.rkbuf) (s.l, s.r)).2
          rnd := S.transform.rndAfterEnc (S.load s.rkbuf)
          events := s.events ++ [.eb s.blk] })
  else .next (raiseError .notImplemented 1 s)

/-- R111 for a strategy `S`: `(L, R) <- S.db((L, R), RKBUF)`, one invocation. -/
def decryptBlockWith (S : Strategy) (s : State) : Result :=
  if dbPresent s then
    match blockFault s with
    | some w => .refused (.wordOutOfRange w)
    | none =>
      .next (toPhase 11
        { s with
          l := (decBlock S s.n s.m (S.load s.rkbuf) (s.l, s.r)).1
          r := (decBlock S s.n s.m (S.load s.rkbuf) (s.l, s.r)).2
          rnd := S.transform.rndAfterDec (S.load s.rkbuf)
          events := s.events ++ [.db s.blk] })
  else .next (raiseError .notImplemented 2 s)

/-- `ENCRYPT_BLOCK`, `PHASE = 9` (R110). -/
def execEncryptBlock (s : State) : Result := encryptBlockWith Config.strategy s

/-- `DECRYPT_BLOCK`, `PHASE = 10` (R111). -/
def execDecryptBlock (s : State) : Result := decryptBlockWith Config.strategy s

/-- R115: one pass of the block loop. -/
def blockPass (S : Strategy) (d : Dir) (s : State) : Result :=
  andThen (execPairBlocks s) fun p =>
  andThen (match d with | .enc => encryptBlockWith S p | .dec => decryptBlockWith S p)
    execFlatten

/-- R115: the block loop, `count` passes. -/
def blockLoop (S : Strategy) (d : Dir) : (count : Nat) → State → Result
  | 0, s => .next s
  | count + 1, s => andThen (blockPass S d s) (blockLoop S d count)

end Sys2Proof.Machine
end

