-- ==== Sys2Proof/Machine/Facade.lean ====
section
/-!
DEFINITION. Family 43 (43_facade.md): CHECK_INPUT, the two text commands in the order of their
pseudocode, and the illegal commands (30_encoding.md R73).
-/
namespace Sys2Proof.Machine

/-- `CHECK_INPUT`, `PHASE = 1` (R169): three tests in this order, the first that fails is reported. -/
def execCheckInput (s : State) : Result :=
  if s.cfgValid = false then .next (raiseError .configuration 4 s)
  else if s.textPresent = false then .next (raiseError .input 0 s)
  else if modN (alpha * s.textlen) s.n ≠ 0 then .next (raiseError .input 1 s)
  else .next (toPhase 2 s)

/-- Where a text command stands after `start_command`: before CHECK_INPUT, its direction chosen
(R163). -/
def enterText (d : Dir) (s : State) : State := { toPhase 1 (startCommand s) with dir := d }

/-- R161, R162: the micro-operations of a text command, each line of the pseudocode one of them. -/
def textCommandWith (S : Strategy) (d : Dir) (s : State) : Result :=
  andThen (execCheckInput (enterText d s)) fun s1 =>
  andThen (execValidateKey s1) fun s2 =>
  andThen (expandKeyWith S s2) fun s3 =>
  andThen (execTextToBits s3) fun s4 =>
  andThen (execChopN s4) fun s5 =>
  andThen (execParseWords s5) fun s6 =>
  andThen (execPadEven s6) fun s7 =>
  andThen (blockLoop S d s7.bcount s7) fun s8 =>
  andThen (execEnsureNBits s8) fun s9 =>
  andThen (execAlignCheck s9) execBitsToText

/-- `ENCRYPT_ASCII`, `OP = 2` (R161): the whole command (R160). -/
def execEncryptAscii (s : State) : Result := textCommandWith Config.strategy .enc s

/-- `DECRYPT_ASCII`, `OP = 3` (R162): the whole command (R160). -/
def execDecryptAscii (s : State) : Result := textCommandWith Config.strategy .dec s

/-- R73, R187: an unassigned opcode starts like any command and raises at once. -/
def illegalCommand (op : Nat) (s : State) : Result :=
  .next (raiseError .illegalCommand op (startCommand s))

/-- `ILLEGAL`, `OP = 0` (R73). -/
def execIllegal0 (s : State) : Result := illegalCommand 0 s
/-- `ILLEGAL`, `OP = 4` (R73). -/
def execIllegal4 (s : State) : Result := illegalCommand 4 s
/-- `ILLEGAL`, `OP = 5` (R73). -/
def execIllegal5 (s : State) : Result := illegalCommand 5 s
/-- `ILLEGAL`, `OP = 6` (R73). -/
def execIllegal6 (s : State) : Result := illegalCommand 6 s
/-- `ILLEGAL`, `OP = 7` (R73). -/
def execIllegal7 (s : State) : Result := illegalCommand 7 s
/-- `ILLEGAL`, `OP = 8` (R73). -/
def execIllegal8 (s : State) : Result := illegalCommand 8 s
/-- `ILLEGAL`, `OP = 9` (R73). -/
def execIllegal9 (s : State) : Result := illegalCommand 9 s
/-- `ILLEGAL`, `OP = 10` (R73). -/
def execIllegal10 (s : State) : Result := illegalCommand 10 s
/-- `ILLEGAL`, `OP = 11` (R73). -/
def execIllegal11 (s : State) : Result := illegalCommand 11 s
/-- `ILLEGAL`, `OP = 12` (R73). -/
def execIllegal12 (s : State) : Result := illegalCommand 12 s
/-- `ILLEGAL`, `OP = 13` (R73). -/
def execIllegal13 (s : State) : Result := illegalCommand 13 s
/-- `ILLEGAL`, `OP = 14` (R73). -/
def execIllegal14 (s : State) : Result := illegalCommand 14 s
/-- `ILLEGAL`, `OP = 15` (R73). -/
def execIllegal15 (s : State) : Result := illegalCommand 15 s

end Sys2Proof.Machine
end

