-- ==== Sys2Proof/Syntax.lean ====
section
/-!
DEFINITION. The instructions of spec/opcode_table.json, one constructor per row, in the table's order.
No instruction has an operand (30_encoding.md R70, R76): a command reads registers and buffers, a
micro-operation works on the hidden state.
-/
namespace Sys2Proof

/-- The 3 host commands and the 13 illegal `OP` values (format C), then the 15 micro-operations of the
sequencer (format U). -/
inductive Instr where
  | construct
  | encryptAscii
  | decryptAscii
  | illegal0
  | illegal4
  | illegal5
  | illegal6
  | illegal7
  | illegal8
  | illegal9
  | illegal10
  | illegal11
  | illegal12
  | illegal13
  | illegal14
  | illegal15
  | checkInput
  | validateKey
  | expandKey
  | textToBits
  | chopN
  | parseWords
  | padEven
  | pairBlocks
  | encryptBlock
  | decryptBlock
  | flatten
  | ensureNBits
  | alignCheck
  | bitsToText
  | configure
  deriving DecidableEq, Repr

end Sys2Proof
end

