-- ==== Sys2Proof/Machine/Dispatch.lean ====
section
/-!
DEFINITION. One arm per row of spec/opcode_table.json, each a direct call of the row's meaning.
-/
namespace Sys2Proof.Machine

def exec (i : Instr) (s : State) : Host.Outcome State Fault Refusal :=
  match i with
  -- Host commands (30_encoding.md R71)
  | .construct => Sys2Proof.Machine.execConstruct s
  | .encryptAscii => Sys2Proof.Machine.execEncryptAscii s
  | .decryptAscii => Sys2Proof.Machine.execDecryptAscii s
  -- Unassigned OP values (30_encoding.md R73)
  | .illegal0 => Sys2Proof.Machine.execIllegal0 s
  | .illegal4 => Sys2Proof.Machine.execIllegal4 s
  | .illegal5 => Sys2Proof.Machine.execIllegal5 s
  | .illegal6 => Sys2Proof.Machine.execIllegal6 s
  | .illegal7 => Sys2Proof.Machine.execIllegal7 s
  | .illegal8 => Sys2Proof.Machine.execIllegal8 s
  | .illegal9 => Sys2Proof.Machine.execIllegal9 s
  | .illegal10 => Sys2Proof.Machine.execIllegal10 s
  | .illegal11 => Sys2Proof.Machine.execIllegal11 s
  | .illegal12 => Sys2Proof.Machine.execIllegal12 s
  | .illegal13 => Sys2Proof.Machine.execIllegal13 s
  | .illegal14 => Sys2Proof.Machine.execIllegal14 s
  | .illegal15 => Sys2Proof.Machine.execIllegal15 s
  -- Micro-operations (30_encoding.md R76)
  | .checkInput => Sys2Proof.Machine.execCheckInput s
  | .validateKey => Sys2Proof.Machine.execValidateKey s
  | .expandKey => Sys2Proof.Machine.execExpandKey s
  | .textToBits => Sys2Proof.Machine.execTextToBits s
  | .chopN => Sys2Proof.Machine.execChopN s
  | .parseWords => Sys2Proof.Machine.execParseWords s
  | .padEven => Sys2Proof.Machine.execPadEven s
  | .pairBlocks => Sys2Proof.Machine.execPairBlocks s
  | .encryptBlock => Sys2Proof.Machine.execEncryptBlock s
  | .decryptBlock => Sys2Proof.Machine.execDecryptBlock s
  | .flatten => Sys2Proof.Machine.execFlatten s
  | .ensureNBits => Sys2Proof.Machine.execEnsureNBits s
  | .alignCheck => Sys2Proof.Machine.execAlignCheck s
  | .bitsToText => Sys2Proof.Machine.execBitsToText s
  | .configure => Sys2Proof.Machine.execConfigure s

end Sys2Proof.Machine
end

