-- ==== Sys2Proof/Decode.lean ====
section
/-!
DEFINITION. The encodings of 30_encoding.md: format C (R70, R71, R73), a 32-bit command word whose
bits 31:4 are ignored; format U (R76), the 4-bit `PHASE` code. The decoder is total; the one code that
is no instruction, `PHASE` 0, is rejected by name. The encoder is written from the same tables.
-/
namespace Sys2Proof

/-- A word to decode, in one of the two formats. -/
inductive CodeWord where
  /-- Format C: the value written to `CMD`. -/
  | command (w : BitVec 32)
  /-- Format U: the value of `PHASE`. -/
  | phase (p : BitVec 4)
  deriving DecidableEq, Repr

/-- Why a word is no instruction. -/
inductive DecodeError where
  /-- `PHASE` 0 is IDLE: no command is running (R76). -/
  | idle
  deriving DecidableEq, Repr

/-- R70: `OP` is bits 3:0 of the command word; bits 31:4 are ignored. -/
def opField (w : BitVec 32) : BitVec 4 := w.extractLsb' 0 4

/-- R71, R73: the opcode map. -/
def decodeOp (op : BitVec 4) : Instr :=
  match op.toNat with
  | 0x1 => .construct
  | 0x2 => .encryptAscii
  | 0x3 => .decryptAscii
  | 0x0 => .illegal0
  | 0x4 => .illegal4
  | 0x5 => .illegal5
  | 0x6 => .illegal6
  | 0x7 => .illegal7
  | 0x8 => .illegal8
  | 0x9 => .illegal9
  | 0xA => .illegal10
  | 0xB => .illegal11
  | 0xC => .illegal12
  | 0xD => .illegal13
  | 0xE => .illegal14
  | _ => .illegal15

/-- R70: a decoder tells everything from `OP` alone. -/
def decodeCommand (w : BitVec 32) : Instr := decodeOp (opField w)

/-- R76: the micro-operation codes. -/
def decodePhase (p : BitVec 4) : Except DecodeError Instr :=
  match p.toNat with
  | 0 => .error .idle
  | 1 => .ok .checkInput
  | 2 => .ok .validateKey
  | 3 => .ok .expandKey
  | 4 => .ok .textToBits
  | 5 => .ok .chopN
  | 6 => .ok .parseWords
  | 7 => .ok .padEven
  | 8 => .ok .pairBlocks
  | 9 => .ok .encryptBlock
  | 10 => .ok .decryptBlock
  | 11 => .ok .flatten
  | 12 => .ok .ensureNBits
  | 13 => .ok .alignCheck
  | 14 => .ok .bitsToText
  | _ => .ok .configure

/-- The decoder, over both formats. -/
def decode : CodeWord → Except DecodeError Instr
  | .command w => .ok (decodeCommand w)
  | .phase p => decodePhase p

/-- The encoder: the canonical word of an instruction (R71, R73, R76), ignored bits 0. -/
def encode : Instr → CodeWord
  | .construct => .command 0x1
  | .encryptAscii => .command 0x2
  | .decryptAscii => .command 0x3
  | .illegal0 => .command 0x0
  | .illegal4 => .command 0x4
  | .illegal5 => .command 0x5
  | .illegal6 => .command 0x6
  | .illegal7 => .command 0x7
  | .illegal8 => .command 0x8
  | .illegal9 => .command 0x9
  | .illegal10 => .command 0xA
  | .illegal11 => .command 0xB
  | .illegal12 => .command 0xC
  | .illegal13 => .command 0xD
  | .illegal14 => .command 0xE
  | .illegal15 => .command 0xF
  | .checkInput => .phase 1
  | .validateKey => .phase 2
  | .expandKey => .phase 3
  | .textToBits => .phase 4
  | .chopN => .phase 5
  | .parseWords => .phase 6
  | .padEven => .phase 7
  | .pairBlocks => .phase 8
  | .encryptBlock => .phase 9
  | .decryptBlock => .phase 10
  | .flatten => .phase 11
  | .ensureNBits => .phase 12
  | .alignCheck => .phase 13
  | .bitsToText => .phase 14
  | .configure => .phase 15

/-- The opcode an illegal command carries (R73), `none` for every other instruction. -/
def Instr.illegalOp : Instr → Option (BitVec 4)
  | .illegal0 => some 0
  | .illegal4 => some 4
  | .illegal5 => some 5
  | .illegal6 => some 6
  | .illegal7 => some 7
  | .illegal8 => some 8
  | .illegal9 => some 9
  | .illegal10 => some 10
  | .illegal11 => some 11
  | .illegal12 => some 12
  | .illegal13 => some 13
  | .illegal14 => some 14
  | .illegal15 => some 15
  | .construct | .encryptAscii | .decryptAscii | .checkInput | .validateKey | .expandKey
  | .textToBits | .chopN | .parseWords | .padEven | .pairBlocks | .encryptBlock | .decryptBlock
  | .flatten | .ensureNBits | .alignCheck | .bitsToText | .configure => none

/-- The word of the opcode table that `nbits` and `w` give: 32 bits are a command word, one byte is a
`PHASE` code in its low 4 bits (log 19). -/
def tableWord (nbits w : Nat) : Option CodeWord :=
  if nbits = 32 then some (.command (BitVec.ofNat 32 w))
  else if nbits ≤ 8 ∧ w < 16 then some (.phase (BitVec.ofNat 4 w))
  else none

/-- The instruction the decoder reads from a word numbered as spec/opcode_table.json numbers it. -/
def decodeTableWord (nbits w : Nat) : Option Instr :=
  match tableWord nbits w with
  | some c =>
    match decode c with
    | .ok i => some i
    | .error _ => none
  | none => none

end Sys2Proof
end

