-- ==== Sys2Proof/Machine/HostPort.lean ====
section
/-!
DEFINITION. The host's side of the registers and buffers (10_state.md R23, 20_memory.md R60,
70_reset_and_hazards.md R210, R217): every host action except the write of `CMD`, which is a command
(Step.lean).
-/
namespace Sys2Proof.Machine

/-- R23: what the host reads from a register. `CMD` and numbers above 0x0F read 0 (R24, R60). -/
def readRegister (s : State) (no : Nat) : Int :=
  match no with
  | 0x01 => (statusWord s).toNat
  | 0x02 => s.errcode.toNat
  | 0x03 => s.errinfo
  | 0x04 => s.nIn
  | 0x05 => s.mIn
  | 0x06 => s.n
  | 0x07 => s.m
  | 0x08 => s.maxWord
  | 0x09 => s.maxKey
  | 0x0A => alpha
  | 0x0B => s.textPresent.toNat
  | 0x0C => s.textlen
  | 0x0D => s.keylen
  | 0x0E => s.outlen
  | 0x0F => s.strat.toNat
  | _ => 0

/-- R23, R60: a host write to a register other than `CMD`. `TEXT_PRESENT` takes bit 0 (R30). A write
to a read-only register or outside the map is ignored. A negative `TEXTLEN` or `KEYLEN` cannot be
carried (R196, log 15), and one beyond an OPEN limit is refused (R5). -/
def writeRegister (no : Nat) (v : Int) (s : State) : Result :=
  match no with
  | 0x04 => .next { s with nIn := v }
  | 0x05 => .next { s with mIn := v }
  | 0x0B => .next { s with textPresent := decide (v % 2 = 1) }
  | 0x0C =>
    if v < 0 then .refused .valueNotCarried
    else if within Config.limits.textLimit v.toNat then .next { s with textlen := v.toNat }
    else .refused .beyondLimit
  | 0x0D =>
    if v < 0 then .refused .valueNotCarried
    else if within Config.limits.keyLimit v.toNat then .next { s with keylen := v.toNat }
    else .refused .beyondLimit
  | _ => .next s

/-- R210, R41: the external reset, between commands. The strap stays; the hidden state holds no value;
the host's own pending actions and last read are not the hardware's (log 20). -/
def resetMachine (s : State) : State :=
  loseHidden
    { State.reset with strat := s.strat, pending := s.pending, rdata := s.rdata,
                       freeCtr := s.freeCtr }

/-- R217: one host action. A write of `CMD` is not answered here: `writeRegister` ignores number 0, and
`step` takes it first. -/
def hostAccess (a : HostAction) (s : State) : Result :=
  match a with
  | .writeReg no v => writeRegister no v s
  | .writeInbuf i b =>
    if within Config.limits.textLimit (i + 1) then .next { s with inbuf := writeBuf s.inbuf i b }
    else .refused .beyondLimit
  | .writeKeybuf i k =>
    if within Config.limits.keyLimit (i + 1) then .next { s with keybuf := writeBuf s.keybuf i k }
    else .refused .beyondLimit
  | .writeOutbuf i _ =>
    if within Config.limits.textLimit (i + 1) then .next s else .refused .beyondLimit
  | .readReg no => .next { s with rdata := readRegister s no }
  | .readInbuf i =>
    match readBuf s.inbuf i with
    | some b => .next { s with rdata := b.toNat }
    | none => .refused (.inbufUnwritten i)
  | .readKeybuf i =>
    match readBuf s.keybuf i with
    | some k => .next { s with rdata := k }
    | none => .refused (.keybufUnwritten i)
  | .readOutbuf i =>
    if within Config.limits.textLimit (i + 1) then .next { s with rdata := (outByte s i).toNat }
    else .refused .beyondLimit
  | .reset => .next (resetMachine s)

/-- R24, R70: the command word a value written to `CMD` gives. Bits above 31 do not exist (log 14). -/
def commandWord (v : Int) : BitVec 32 := BitVec.ofInt 32 v

end Sys2Proof.Machine
end

