-- ==== Sys2Proof/Machine/Step.lean ====
section
/-!
DEFINITION. One step. Between commands (`PHASE = 0`) it is the next host action, and for a write of
`CMD` the whole command (00_scope.md R11, 43_facade.md R160). When `PHASE` names a micro-operation the
sequencer is inside a command, and the step is that micro-operation (30_encoding.md R76, log 11). With
no action pending the sequencer waits in IDLE (70_reset_and_hazards.md R212).
-/
namespace Sys2Proof.Machine

def step (s : State) : Host.Outcome State Fault Refusal :=
  match decodePhase s.phase with
  | .ok i => exec i s
  | .error _ =>
    match s.pending with
    | [] => .next s
    | .writeReg 0 v :: rest => exec (decodeCommand (commandWord v)) { s with pending := rest }
    | a :: rest => hostAccess a { s with pending := rest }

/-- `s` with a word of the opcode table where `step` takes its next instruction from: a command word is
the next host action, a write of `CMD`, with the sequencer idle; a micro-operation code is the value of
`PHASE` (log 12). -/
def State.withFetchWord (s : State) (nbits w : Nat) : State :=
  match tableWord nbits w with
  | some (.command c) => { s with phase := 0, pending := .writeReg 0 c.toNat :: s.pending }
  | some (.phase p) => { s with phase := p }
  | none => s

end Sys2Proof.Machine
end

