-- ==== Sys2Proof/Safety.lean ====
section
/-!
DEFINITION. The terms the claims are stated in: the abstract view of 10_state.md R39, what a text
command is to report (43_facade.md R161, R162; 60_exceptions.md R188), and the invariant of the machine.
-/
namespace Sys2Proof.Machine

/-- R39: `CFG`. -/
def cfgView (s : State) : Option (Nat × Nat) := if s.cfgValid then some (s.n, s.m) else none

/-- R39: the text `[INBUF[0], …, INBUF[TEXTLEN-1]]`, or the first element the host never wrote. -/
def hostText (s : State) : Except Nat (List Byte) := readSeq s.inbuf 0 s.textlen

/-- R39: the key `[KEYBUF[0], …, KEYBUF[KEYLEN-1]]`, or the first element the host never wrote. -/
def hostKey (s : State) : Except Nat KeySeq := readSeq s.keybuf 0 s.keylen

/-- R39: `RESULT`. -/
inductive ResultView where
  | none
  | err (code : BitVec 4) (info : Nat)
  | ok (out : List Byte)
  | constructed
  deriving DecidableEq, Repr

/-- R39: `RESULT` of a state; the bytes are what the host reads. -/
def resultView (s : State) : ResultView :=
  if s.done = false then .none
  else if s.err then .err s.errcode s.errinfo
  else if s.outValid then .ok ((List.range s.outlen).map (outByte s))
  else .constructed

/-- R93: a key element is in `[0, 2^N)`. -/
def keyInRange (n : Nat) (k : Int) : Bool := decide (0 ≤ k) && decide (k < (2 : Int) ^ n)

/-- The block function a direction needs is present (R33): `S.eb` for `enc`, `S.db` for `dec`. -/
def dirPresent (d : Dir) (s : State) : Bool :=
  match d with
  | .enc => ebPresent s
  | .dec => dbPresent s

/-- R75: `ERRINFO` of the NotImplementedError of the block loop. -/
def dirInfo : Dir → Nat
  | .enc => 1
  | .dec => 2

/-- R188: the one error a text command reports on a text and a key, by the list of conditions in
priority order; `none` when it succeeds. -/
def firstError (d : Dir) (s : State) (t : List Byte) (key : KeySeq) : Option (ErrorKind × Nat) :=
  if s.cfgValid = false then some (.configuration, 4)
  else if s.textPresent = false then some (.input, 0)
  else if (8 * t.length) % s.n ≠ 0 then some (.input, 1)
  else if key.length ≠ s.m then some (.keyFormat, key.length)
  else
    match key.findIdx? (fun k => !keyInRange s.n k) with
    | some i => some (.keyRange, i)
    | none =>
      if ekPresent s = false then some (.notImplemented, 0)
      else if dirPresent d s = false ∧ t ≠ [] then some (.notImplemented, dirInfo d)
      else none

/-- R161, R162 as a function: the blocks of the text, each transformed with the expanded key, back to
text. No value for a text that has no blocks under `n` (R133). -/
def textFunction (S : Strategy) (d : Dir) (n m : Nat) (t : List Byte) (key : KeySeq) :
    Option (Except Nat (List Byte)) :=
  (textToBlocks n t).map fun bs => blocksToText n (bs.map (dirBlock S d n m (S.ek n m key)))

/-- The host's duties of R214 for one text command, on the elements it reads. -/
structure HostDuties (s : State) (t : List Byte) (key : KeySeq) : Prop where
  text : s.textPresent = true → hostText s = .ok t
  key  : hostKey s = .ok key

/-- The instruction of a text command (R71). -/
def textInstr : Dir → Instr
  | .enc => .encryptAscii
  | .dec => .decryptAscii

/-- The invariant of the machine; each field names the rules it comes from. -/
structure State.Inv (s : State) : Prop where
  /-- Buffers are in canonical form. -/
  memory : Memory.wf s = true
  /-- R26, R27, R91. -/
  configured : s.cfgValid = true →
    1 ≤ s.n ∧ 1 ≤ s.m ∧ s.maxWord = 2 ^ s.n ∧ s.maxKey = 2 ^ (s.m * s.n)
  /-- R26, R27: all read 0 without a configuration. -/
  unconfigured : s.cfgValid = false → s.n = 0 ∧ s.m = 0 ∧ s.maxWord = 0 ∧ s.maxKey = 0
  /-- R22: `ERR = 1` exactly when `ERRCODE ≠ 0`. -/
  errFlag : s.err = true ↔ s.errcode ≠ 0
  /-- R29: `ERRINFO` is 0 when `ERRCODE` is 0. -/
  errInfo : s.errcode = 0 → s.errinfo = 0
  /-- R74: codes 8 to 15 are never written. -/
  errCode : s.errcode.toNat ≤ 7
  /-- R190, R214: an error is reported with `DONE = 1` and no result. -/
  errDone : s.err = true → s.done = true ∧ s.outValid = false
  /-- R36: a valid result is complete. -/
  output : s.outValid = true → s.done = true ∧ ∀ i, i < s.outlen → (readBuf s.outbuf i).isSome = true
  /-- R32, R190: no result, no length. -/
  noOutput : s.outValid = false → s.outlen = 0
  /-- R20: `L` and `R` hold words in `[0, 2^N)`. -/
  block : s.l < 2 ^ s.n ∧ s.r < 2 ^ s.n
  /-- R37: WBUF holds words in `[0, 2^N)`. -/
  words : ∀ k w, readBuf s.wbuf k = some w → w < 2 ^ s.n
  /-- R38, R40: no round keys outside a command. -/
  idle : s.phase = 0 → s.rkValid = false
  /-- R160: inside a command the previous result is gone and none is there yet. -/
  running : s.phase ≠ 0 → s.done = false ∧ s.err = false ∧ s.outValid = false

/-- Two states give a text command the same operands (R39, R166): configuration, presence, text, key
and strap, element by element. Where the text is absent its length and elements are ignored (R30). -/
structure SameOperands (s s' : State) : Prop where
  cfg     : cfgView s = cfgView s'
  present : s.textPresent = s'.textPresent
  textlen : s.textPresent = true → s.textlen = s'.textlen
  text    : s.textPresent = true → ∀ i, i < s.textlen → readBuf s.inbuf i = readBuf s'.inbuf i
  keylen  : s.keylen = s'.keylen
  key     : ∀ i, i < s.keylen → readBuf s.keybuf i = readBuf s'.keybuf i
  strat   : s.strat = s'.strat

/-- R92: the configuration registers are the same in both states. -/
def SameConfig (s t : State) : Prop :=
  t.cfgValid = s.cfgValid ∧ t.n = s.n ∧ t.m = s.m ∧ t.maxWord = s.maxWord ∧ t.maxKey = s.maxKey

/-- R40, D18, R33: what no command writes: the host-written registers and buffers and the strap; and
the model's own host side. -/
def SameHostSide (s t : State) : Prop :=
  t.nIn = s.nIn ∧ t.mIn = s.mIn ∧ t.textPresent = s.textPresent ∧ t.textlen = s.textlen ∧
  t.keylen = s.keylen ∧ t.inbuf = s.inbuf ∧ t.keybuf = s.keybuf ∧ t.strat = s.strat ∧
  t.pending = s.pending ∧ t.rdata = s.rdata

/-- R79: what COPYOUT leaves: the result fed back as the next text. -/
def copyOut (s : State) : State :=
  { s with
    inbuf := writeSeq s.inbuf 0 ((List.range s.outlen).map (outByte s))
    textlen := s.outlen
    textPresent := true }

end Sys2Proof.Machine
end

