-- ==== Sys2Proof/WellFormed.lean ====
section
/-!
DEFINITION. Which terms stand for something the hardware can be given. An instruction has no operand
field (30_encoding.md R70, R76), so every instruction is well formed. A host write is well formed
when the port can carry its value (60_exceptions.md R196): `TEXTLEN` and `KEYLEN` hold naturals.
-/
namespace Sys2Proof

/-- R70, R76: no constructor has an operand, so there is nothing to be ill formed. -/
def Instr.wellFormed : Instr → Bool := fun _ => true

/-- R196, R30, R31: a negative value cannot be written to `TEXTLEN` (0x0C) or `KEYLEN` (0x0D). Every
other register takes an integer, or ignores the write. -/
def Machine.HostAction.wellFormed : Machine.HostAction → Bool
  | .writeReg no v => (no ≠ 0x0C && no ≠ 0x0D) || 0 ≤ v
  | _ => true

end Sys2Proof
end

