-- ==== Sys2Proof/Certificates/Slice0/Obligations.lean ====
section
/-!
DEFINITION. The statements for the provers. Each docstring names the rule of spec/ it formalises. Where a
micro-operation's next state is written out whole, that is its frame: every field not named is unchanged.
-/
open Sys2Proof Sys2Proof.Machine

/-! ### Encoding and the step -/

/-- 30_encoding.md R71, R73, R76: words of the opcode table, written out from the encodings, decode to
their rows. -/
def Obligations.TableWordsDecodeToTheirRows : Prop :=
  decodeTableWord 32 0b00000000000000000000000000000001 = some .construct ∧
  decodeTableWord 32 0b10000000000000000000000000000010 = some .encryptAscii ∧
  decodeTableWord 32 0b00000000000000000000000000010011 = some .decryptAscii ∧
  decodeTableWord 32 0b00000000000000000000000000000000 = some .illegal0 ∧
  decodeTableWord 32 0b11111111111111111111111111111111 = some .illegal15 ∧
  decodeTableWord 8 0b0001 = some .checkInput ∧
  decodeTableWord 8 0b1001 = some .encryptBlock ∧
  decodeTableWord 8 0b1110 = some .bitsToText ∧
  decodeTableWord 8 0b1111 = some .configure ∧
  decodeTableWord 8 0b0000 = none

/-- 30_encoding.md R70: the decoder tells everything from `OP`: two command words decode alike exactly
when their bits 3:0 agree; bits 31:4 are ignored. -/
def Obligations.CommandDecodingReadsOnlyTheOpcode : Prop :=
  ∀ w w' : BitVec 32,
    decode (.command w) = decode (.command w') ↔ ∀ i, i < 4 → w.getLsbD i = w'.getLsbD i

/-- Decode and encode agree, both ways (30_encoding.md sections 1, 2 and 5): decoding an encoded
instruction gives it back; a word decodes to an instruction exactly when it carries that instruction's
code, a command word in its bits 3:0 and a phase as a whole. -/
def Obligations.DecodeAndEncodeAgree : Prop :=
  (∀ i : Instr, i.wellFormed = true → decode (encode i) = .ok i) ∧
  (∀ (w : BitVec 32) (i : Instr), decode (.command w) = .ok i ↔
    ∃ e, encode i = .command e ∧ ∀ k, k < 4 → e.getLsbD k = w.getLsbD k) ∧
  (∀ (p : BitVec 4) (i : Instr), decode (.phase p) = .ok i ↔ encode i = .phase p)

/-- A step runs the decoded instruction: inside a command the micro-operation that `PHASE` names; between
commands the next host action, and for a write of `CMD` the command its value decodes to; with no action
pending nothing happens (00_scope.md R11, 43_facade.md R160, 70_reset_and_hazards.md R212; the queue of
host actions is the model's, log 12, and stepping inside a command is log 11). -/
def Obligations.StepRunsTheDecodedInstruction : Prop :=
  (∀ (s : State) (i : Instr), decode (.phase s.phase) = .ok i → step s = exec i s) ∧
  (∀ (s : State) (v : Int) (rest : List HostAction) (i : Instr), s.phase = 0 →
    s.pending = .writeReg 0 v :: rest → decode (.command (BitVec.ofInt 32 v)) = .ok i →
    step s = exec i { s with pending := rest }) ∧
  (∀ (s : State) (a : HostAction) (rest : List HostAction), s.phase = 0 → s.pending = a :: rest →
    (∀ v, a ≠ .writeReg 0 v) → step s = hostAccess a { s with pending := rest }) ∧
  (∀ s : State, s.phase = 0 → s.pending = [] → step s = .next s)

/-- The word `withFetchWord` places is the one the very next step runs, and nothing else of the state
differs (log 12). -/
def Obligations.FetchedWordIsRunNext : Prop :=
  (∀ (s : State) (w : Nat) (i : Instr), w < 2 ^ 32 → decodeTableWord 32 w = some i →
    step (s.withFetchWord 32 w) = exec i { s with phase := 0 }) ∧
  (∀ (s : State) (w : Nat) (i : Instr), decodeTableWord 8 w = some i →
    step (s.withFetchWord 8 w) = exec i { s with phase := BitVec.ofNat 4 w })

/-! ### Family 40: configuration and key -/

/-- 40_config_and_key.md R90, R91: CONSTRUCT with both operands positive sets the configuration, its
maxima exact; otherwise it clears the configuration and raises ConfigurationError, both operands
reported in one ERRINFO. Nothing else but the result of the last command and hidden state is written. That
OUTBUF is as before (log 9; the spec leaves it unspecified without a result) and that the trace of
invocations is empty (log 18) are the model's choices. -/
def Obligations.ConstructSetsOrClearsTheConfiguration : Prop :=
  ∀ s : State, ∃ t : State, exec .construct s = .next t ∧
    (0 < s.nIn ∧ 0 < s.mIn →
      (t.n : Int) = s.nIn ∧ (t.m : Int) = s.mIn ∧ t.maxWord = 2 ^ t.n ∧
      t.maxKey = 2 ^ (t.m * t.n) ∧ statusWord t = 0b01001 ∧ resultView t = .constructed ∧
      t.errcode = 0 ∧ t.errinfo = 0) ∧
    (¬ (0 < s.nIn ∧ 0 < s.mIn) →
      t.n = 0 ∧ t.m = 0 ∧ t.maxWord = 0 ∧ t.maxKey = 0 ∧ statusWord t = 0b00011 ∧
      resultView t = .err 1 t.errinfo ∧
      t.errinfo = (if s.nIn ≤ 0 then 1 else 0) + (if s.mIn ≤ 0 then 2 else 0)) ∧
    t.outlen = 0 ∧ t.phase = 0 ∧ t.rkValid = false ∧ t.events = [] ∧
    t.outbuf = s.outbuf ∧ SameHostSide s t

/-- The micro-operation CONFIGURE, `PHASE = 15`, has the same effect on the configuration (30_encoding.md
section 5, 40_config_and_key.md section 1); started by no `start_command`, it leaves ERRCODE and the
trace of the command (log 18) as they are unless it raises. That OUTBUF is as before is the model's choice
(log 9). -/
def Obligations.ConfigureCompletes : Prop :=
  ∀ s : State, ∃ t : State, exec .configure s = .next t ∧
    (0 < s.nIn ∧ 0 < s.mIn →
      (t.n : Int) = s.nIn ∧ (t.m : Int) = s.mIn ∧ t.maxWord = 2 ^ t.n ∧
      t.maxKey = 2 ^ (t.m * t.n) ∧ t.cfgValid = true ∧
      t.err = s.err ∧ t.errcode = s.errcode ∧ t.errinfo = s.errinfo ∧
      t.outValid = s.outValid ∧ t.outlen = s.outlen) ∧
    (¬ (0 < s.nIn ∧ 0 < s.mIn) →
      t.n = 0 ∧ t.m = 0 ∧ t.maxWord = 0 ∧ t.maxKey = 0 ∧ t.cfgValid = false ∧
      t.err = true ∧ t.errcode = 1 ∧ t.outValid = false ∧ t.outlen = 0 ∧
      t.errinfo = (if s.nIn ≤ 0 then 1 else 0) + (if s.mIn ≤ 0 then 2 else 0)) ∧
    t.done = true ∧ t.phase = 0 ∧ t.rkValid = false ∧ t.events = s.events ∧
    t.outbuf = s.outbuf ∧ SameHostSide s t

/-- 40_config_and_key.md R92: no instruction but CONSTRUCT and its CONFIGURE writes the configuration,
whether it succeeds or raises. -/
def Obligations.OnlyConstructWritesTheConfiguration : Prop :=
  ∀ (i : Instr) (s t : State), i ≠ .construct → i ≠ .configure → exec i s = .next t → SameConfig s t

/-- 40_config_and_key.md R93: VALIDATE_KEY raises KeyFormatError on a wrong count, else KeyRangeError at
the lowest element outside `[0, MAX_WORD)`, the bound strict; a good key passes and only `PHASE`
moves on. -/
def Obligations.ValidateKeyChecksCountThenRange : Prop :=
  ∀ s : State,
    (s.keylen ≠ s.m → exec .validateKey s = .next (raiseError .keyFormat s.keylen s)) ∧
    (s.keylen = s.m → ∀ (i : Nat) (k : Int), i < s.m → readBuf s.keybuf i = some k →
      (k < 0 ∨ (s.maxWord : Int) ≤ k) →
      (∀ j, j < i → ∃ x, readBuf s.keybuf j = some x ∧ 0 ≤ x ∧ x < (s.maxWord : Int)) →
      exec .validateKey s = .next (raiseError .keyRange i s)) ∧
    (s.keylen = s.m →
      (∀ j, j < s.m → ∃ x, readBuf s.keybuf j = some x ∧ 0 ≤ x ∧ x < (s.maxWord : Int)) →
      exec .validateKey s = .next { s with phase := 3 })

/-- 40_config_and_key.md R94: EXPAND_KEY invokes the strategy's key expansion once on the first `M` key
elements and stores the result, in the strategy's own layout (10_state.md R38); with no `expandKey` bound
it raises NotImplementedError(0). -/
def Obligations.ExpandKeyStoresTheRoundKeys : Prop :=
  ∀ s : State,
    (s.strat.getLsbD 0 = true → ∀ key : KeySeq, key.length = s.m →
      (∀ i, i < s.m → readBuf s.keybuf i = key[i]?) →
      exec .expandKey s = .next
        { s with rkbuf := Config.strategy.store (Config.strategy.ek s.n s.m key), rkValid := true,
                 events := s.events ++ [.ek], phase := 4 }) ∧
    (s.strat.getLsbD 0 = false →
      exec .expandKey s = .next (raiseError .notImplemented 0 s))

/-! ### Family 41: the engine -/

/-- 41_round_engine.md R110: ENCRYPT_BLOCK replaces `(L, R)` by `S.eb((L, R), RKBUF)`, one invocation;
with no `encryptBlock` bound it raises NotImplementedError(1). The new block is in range whatever the
strategy. -/
def Obligations.EncryptBlockAppliesTheStrategy : Prop :=
  ∀ s : State,
    (s.strat.getLsbD 1 = true → s.l < 2 ^ s.n → s.r < 2 ^ s.n → ∃ (rnd : Nat) (b : Block s.n),
      b = Config.strategy.eb s.n s.m (BitVec.ofNat s.n s.l, BitVec.ofNat s.n s.r)
        (Config.strategy.load s.rkbuf) ∧
      exec .encryptBlock s = .next
        { s with l := b.1.toNat, r := b.2.toNat, rnd := rnd,
                 events := s.events ++ [.eb s.blk], phase := 11 }) ∧
    (s.strat.getLsbD 1 = false →
      exec .encryptBlock s = .next (raiseError .notImplemented 1 s))

/-- 41_round_engine.md R111: DECRYPT_BLOCK, the same with `S.db` and NotImplementedError(2). -/
def Obligations.DecryptBlockAppliesTheStrategy : Prop :=
  ∀ s : State,
    (s.strat.getLsbD 2 = true → s.l < 2 ^ s.n → s.r < 2 ^ s.n → ∃ (rnd : Nat) (b : Block s.n),
      b = Config.strategy.db s.n s.m (BitVec.ofNat s.n s.l, BitVec.ofNat s.n s.r)
        (Config.strategy.load s.rkbuf) ∧
      exec .decryptBlock s = .next
        { s with l := b.1.toNat, r := b.2.toNat, rnd := rnd,
                 events := s.events ++ [.db s.blk], phase := 11 }) ∧
    (s.strat.getLsbD 2 = false →
      exec .decryptBlock s = .next (raiseError .notImplemented 2 s))

/-- 41_round_engine.md R113: a round-iterated strategy, whatever its type of round keys, consumes the round
keys one per round, encryption in the order `S.ek` produced them and decryption in the reverse order; with
no round key both are the identity. -/
def Obligations.RoundKeysAreConsumedInOrder : Prop :=
  ∀ (K : Type) (enc dec : (n m : Nat) → Block n → K → Block n) (n m : Nat) (b : Block n)
    (ks : List K) (k : K),
    (Transform.rounds enc dec).eb n m b [] = b ∧ (Transform.rounds enc dec).db n m b [] = b ∧
    (Transform.rounds enc dec).eb n m b (ks ++ [k]) =
      enc n m ((Transform.rounds enc dec).eb n m b ks) k ∧
    (Transform.rounds enc dec).db n m b (ks ++ [k]) =
      (Transform.rounds enc dec).db n m (dec n m b k) ks

/-- 41_round_engine.md R114: when each round inverts, the round-iterated strategy satisfies R112, whatever
its type of round keys; the classic Feistel round is such a round, whatever its function. -/
def Obligations.InvertibleRoundsGiveTheRoundTrip : Prop :=
  ∀ (K : Type) (store : List K → RoundKeyData) (load : RoundKeyData → List K)
    (load_store : ∀ rk, load (store rk) = rk) (ek : (n m : Nat) → KeySeq → List K) (n m : Nat),
    (∀ enc dec : (n m : Nat) → Block n → K → Block n,
      (∀ (b : Block n) (k : K), dec n m (enc n m b k) k = b) →
      Strategy.Inverts ⟨List K, store, load, load_store, ek, .rounds enc dec⟩ n m) ∧
    (∀ F : (n m : Nat) → Word n → K → Word n,
      Strategy.Inverts ⟨List K, store, load, load_store, ek,
        .rounds (fun n m b k => (b.2, b.1 ^^^ F n m b.2 k))
          (fun n m b k => (b.2 ^^^ F n m b.1 k, b.1))⟩ n m)

/-! ### Family 42: the codec -/

/-- 42_codec.md R130, 20_memory.md R51 (a), (b): TEXT_TO_BITS gives 8 bits per character, characters in
order, most significant bit first. -/
def Obligations.TextToBitsIsMostSignificantFirst : Prop :=
  ∀ (s : State) (t : List Byte), hostText s = .ok t → ∃ bits : BitString,
    exec .textToBits s = .next { s with bitbuf := bits, phase := 5 } ∧
    bits.length = 8 * t.length ∧
    ∀ (i j : Nat) (c : Byte), t[i]? = some c → j < 8 → bits[8 * i + j]? = some (c.getLsbD (7 - j))

/-- 42_codec.md R131: CHOP_N counts the words of `N` bits. The general `chop(bs, w)` has `ceil(len / w)`
chunks; chunk `k` is the bits from `k·w`, of the full width but for the last, which takes what is left;
the empty BitString has no chunk. -/
def Obligations.ChopCutsIntoChunks : Prop :=
  (∀ s : State, 1 ≤ s.n →
    exec .chopN s = .next { s with wcount := s.bitbuf.length / s.n, phase := 6 }) ∧
  (∀ (bs : BitString) (w : Nat), 1 ≤ w →
    (chop bs w).length = (bs.length + w - 1) / w ∧ chop [] w = [] ∧
    ∀ (k : Nat) (chunk : BitString), (chop bs w)[k]? = some chunk →
      1 ≤ chunk.length ∧ chunk.length ≤ w ∧
      chunk.length = (if k + 1 < (chop bs w).length then w
        else bs.length - ((chop bs w).length - 1) * w) ∧
      ∀ j, j < chunk.length → chunk[j]? = bs[k * w + j]?)

/-- 42_codec.md R132: PARSE_WORDS writes `WBUF[k] = val(BITBUF[k*N : k*N+N])`, a word in `[0, 2^N)`, for
`k < WCOUNT`; every other element of WBUF and every other field is as before. -/
def Obligations.ParseWordsReadsEachChunk : Prop :=
  ∀ s : State, s.wcount * s.n ≤ s.bitbuf.length → ∃ wbuf : Buf Nat,
    exec .parseWords s = .next { s with wbuf := wbuf, phase := 7 } ∧
    (∀ k, s.wcount ≤ k → readBuf wbuf k = readBuf s.wbuf k) ∧
    ∀ k, k < s.wcount → ∃ w, readBuf wbuf k = some w ∧ w < 2 ^ s.n ∧
      ∀ j, j < s.n → s.bitbuf[k * s.n + j]? = some (w.testBit (s.n - 1 - j))

/-- 42_codec.md R134: PAD_EVEN appends exactly one zero word when the count is odd, nothing when it is even,
and sets `BCOUNT`; then the first block, or ENSURE_N_BITS when there is none (43_facade.md R163). -/
def Obligations.PadEvenAppendsOneZeroWord : Prop :=
  ∀ s : State, ∃ (wbuf : Buf Nat) (wcount blk : Nat),
    exec .padEven s = .next
      { s with wbuf := wbuf, wcount := wcount, bcount := wcount / 2, blk := blk,
               phase := if 0 < wcount / 2 then 8 else 12 } ∧
    wcount = s.wcount + s.wcount % 2 ∧ blk = (if 0 < wcount / 2 then 0 else s.blk) ∧
    (s.wcount % 2 = 1 → readBuf wbuf s.wcount = some 0) ∧
    (s.wcount % 2 = 0 → wbuf = s.wbuf) ∧
    ∀ k, k ≠ s.wcount → readBuf wbuf k = readBuf s.wbuf k

/-- 42_codec.md R135: PAIR_BLOCKS loads block `BLK`, the earlier word into `L`; then the block transform of
the command's direction. As a function it pairs consecutive words, the whole sequence, no overlap. -/
def Obligations.PairBlocksLoadsTheBlock : Prop :=
  (∀ (s : State) (a b : Nat), readBuf s.wbuf (2 * s.blk) = some a →
    readBuf s.wbuf (2 * s.blk + 1) = some b →
    exec .pairBlocks s = .next
      { s with l := a, r := b, phase := if s.dir = .enc then 9 else 10 }) ∧
  (∀ ws : List Nat, ws.length % 2 = 0 →
    (pairBlocks ws).length = ws.length / 2 ∧
    ∀ (j a b : Nat), ws[2 * j]? = some a → ws[2 * j + 1]? = some b →
      (pairBlocks ws)[j]? = some (a, b))

/-- 42_codec.md R136: FLATTEN writes `L` and `R` back to the block's place and nowhere else; then the next
block, or ENSURE_N_BITS after the last. As a function: left word first, block order kept. -/
def Obligations.FlattenWritesTheBlockBack : Prop :=
  (∀ s : State, s.blk < s.bcount → ∃ wbuf : Buf Nat,
    exec .flatten s = .next
      { s with wbuf := wbuf, blk := if s.blk + 1 < s.bcount then s.blk + 1 else s.blk,
               phase := if s.blk + 1 < s.bcount then 8 else 12 } ∧
    ∀ k, readBuf wbuf k =
      if k = 2 * s.blk then some s.l else if k = 2 * s.blk + 1 then some s.r
      else readBuf s.wbuf k) ∧
  (∀ (bs : List (Nat × Nat)) (j : Nat),
    (flatten bs).length = 2 * bs.length ∧
    (flatten bs)[2 * j]? = bs[j]?.map Prod.fst ∧ (flatten bs)[2 * j + 1]? = bs[j]?.map Prod.snd)

/-- 42_codec.md R137: ENSURE_N_BITS gives each word exactly `N` bits, most significant first, zeros kept on
the left; a word that does not fit is refused, never truncated and never an error. -/
def Obligations.EnsureNBitsPadsAndNeverTruncates : Prop :=
  ∀ (s : State) (ws : List Nat), ws.length = s.wcount →
    (∀ k, k < s.wcount → readBuf s.wbuf k = ws[k]?) →
    ((∀ w ∈ ws, w < 2 ^ s.n) → ∃ bits : BitString,
      exec .ensureNBits s = .next { s with bitbuf := bits, phase := 13 } ∧
      bits.length = s.n * s.wcount ∧
      ∀ (k j w : Nat), ws[k]? = some w → j < s.n →
        bits[k * s.n + j]? = some (w.testBit (s.n - 1 - j))) ∧
    ((∃ w ∈ ws, 2 ^ s.n ≤ w) → ∃ w, exec .ensureNBits s = .refused (.wordOutOfRange w))

/-- 42_codec.md R138: ALIGN_CHECK is decided on the length `N * WCOUNT` alone. -/
def Obligations.AlignCheckTestsTheLength : Prop :=
  ∀ s : State,
    ((s.n * s.wcount) % 8 = 0 → exec .alignCheck s = .next { s with phase := 14 }) ∧
    ((s.n * s.wcount) % 8 ≠ 0 →
      exec .alignCheck s = .next (raiseError .codecAlignment ((s.n * s.wcount) % 8) s))

/-- 42_codec.md R139, 43_facade.md R164: BITS_TO_TEXT makes each 8-bit group the byte of its value, first
bit most significant, and completes the command. That the elements of OUTBUF from `OUTLEN` on are as before
is the model's choice (log 9; the spec leaves them unspecified, 10_state.md R36). -/
def Obligations.BitsToTextPublishesTheBytes : Prop :=
  ∀ s : State, s.bitbuf.length % 8 = 0 → ∃ t : State, exec .bitsToText s = .next t ∧
    t.outlen = s.bitbuf.length / 8 ∧ t.outValid = true ∧ t.done = true ∧ t.phase = 0 ∧
    t.rkValid = false ∧
    (∀ i j, i < t.outlen → j < 8 → s.bitbuf[8 * i + j]? = some ((outByte t i).getLsbD (7 - j))) ∧
    (∀ i, t.outlen ≤ i → readBuf t.outbuf i = readBuf s.outbuf i) ∧
    t.err = s.err ∧ t.errcode = s.errcode ∧ t.errinfo = s.errinfo ∧ t.events = s.events ∧
    SameConfig s t ∧ SameHostSide s t

/-- 42_codec.md R142: the codec's inverse laws. A text comes back followed by `N/8` zero bytes when the word
count was odd and unchanged when it was even; an even number of words comes back unchanged. With the
laws of the parts (R131, R136): nothing is lost by chopping, and flattening undoes pairing both ways. -/
def Obligations.CodecInverseLaws : Prop :=
  (∀ (n : Nat) (t : List Byte), 1 ≤ n → (8 * t.length) % n = 0 → (8 * t.length / n) % 2 = 0 →
    (textToBlocks n t).map (blocksToText n) = some (.ok t)) ∧
  (∀ (n : Nat) (t : List Byte), 1 ≤ n → (8 * t.length) % n = 0 → (8 * t.length / n) % 2 = 1 →
    n % 8 = 0 ∧ (textToBlocks n t).map (blocksToText n) =
      some (.ok (t ++ List.replicate (n / 8) 0))) ∧
  (∀ (n : Nat) (ws : List Nat), 1 ≤ n → ws.length % 2 = 0 → (n * ws.length) % 8 = 0 →
    (∀ w ∈ ws, w < 2 ^ n) → ∃ t, wordsToText n ws = .ok t ∧ (textToBlocks n t).map flatten = some ws) ∧
  (∀ (bs : BitString) (w : Nat), 1 ≤ w → (chop bs w).flatten = bs) ∧
  (∀ ws : List Nat, ws.length % 2 = 0 → flatten (pairBlocks ws) = ws) ∧
  (∀ bs : List (Nat × Nat), pairBlocks (flatten bs) = bs)

/-- 42_codec.md R143: the number of blocks and the length of the result, and that the result is never
shorter than the text and empty only for the empty text. -/
def Obligations.ResultLengthFollowsFromTheText : Prop :=
  ∀ (S : Strategy) (d : Dir) (n m : Nat) (t out : List Byte) (key : KeySeq), 1 ≤ n →
    textFunction S d n m t key = some (.ok out) →
    (∃ bs, textToBlocks n t = some bs ∧
      bs.length = (8 * t.length / n + (8 * t.length / n) % 2) / 2) ∧
    out.length = n * (8 * t.length / n + (8 * t.length / n) % 2) / 8 ∧
    ((8 * t.length / n) % 2 = 0 → out.length = t.length) ∧
    ((8 * t.length / n) % 2 = 1 → out.length = t.length + n / 8) ∧
    t.length ≤ out.length ∧ (out.length = 0 ↔ t.length = 0)

/-! ### Family 43: the facade -/

/-- 43_facade.md R169: CHECK_INPUT makes its three tests in this order and reports the first that fails; an
input that passes moves `PHASE` on and changes nothing else. -/
def Obligations.CheckInputTestsInOrder : Prop :=
  ∀ s : State,
    (s.cfgValid = false → exec .checkInput s = .next (raiseError .configuration 4 s)) ∧
    (s.cfgValid = true → s.textPresent = false →
      exec .checkInput s = .next (raiseError .input 0 s)) ∧
    (s.cfgValid = true → s.textPresent = true → 1 ≤ s.n → (8 * s.textlen) % s.n ≠ 0 →
      exec .checkInput s = .next (raiseError .input 1 s)) ∧
    (s.cfgValid = true → s.textPresent = true → 1 ≤ s.n → (8 * s.textlen) % s.n = 0 →
      exec .checkInput s = .next { s with phase := 2 })

/-- 43_facade.md R161, R162: a text command whose checks pass completes, and its result is the function of
the text, the key and the strategy; the strategy is invoked once to expand the key and once per block
in index order (41_round_engine.md R115). Only the output state and hidden state are written; that OUTBUF
is as before from `OUTLEN` on is the model's choice (log 9), and the trace is the model's field (log 18). -/
def Obligations.TextCommandComputesItsFunction : Prop :=
  ∀ (d : Dir) (s : State) (t : List Byte) (key : KeySeq), s.Inv → HostDuties s t key →
    firstError d s t key = none → ∃ (u : State) (out : List Byte) (bs : List (Nat × Nat)),
      exec (textInstr d) s = .next u ∧
      textFunction Config.strategy d s.n s.m t key = some (.ok out) ∧ textToBlocks s.n t = some bs ∧
      resultView u = .ok out ∧ u.outlen = out.length ∧ statusWord u = 0b01101 ∧
      u.errcode = 0 ∧ u.errinfo = 0 ∧ u.phase = 0 ∧ u.rkValid = false ∧
      u.events = .ek :: (List.range bs.length).map
        (fun i => match d with | .enc => .eb i | .dec => .db i) ∧
      (∀ i, out.length ≤ i → readBuf u.outbuf i = readBuf s.outbuf i) ∧
      SameConfig s u ∧ SameHostSide s u

/-- 60_exceptions.md R188: a text command that fails reports the first error in the order of the list, with
nothing of a result; the configuration and the host's registers and buffers are untouched. That OUTBUF is
as before is the model's choice (log 9; R190 leaves it unspecified after an error). -/
def Obligations.TextCommandReportsTheFirstError : Prop :=
  ∀ (d : Dir) (s : State) (t : List Byte) (key : KeySeq) (e : ErrorKind) (info : Nat), s.Inv →
    HostDuties s t key → firstError d s t key = some (e, info) → ∃ u : State,
      exec (textInstr d) s = .next u ∧ resultView u = .err (errorCode e) info ∧
      u.outValid = false ∧ u.outlen = 0 ∧ u.phase = 0 ∧ u.rkValid = false ∧
      u.outbuf = s.outbuf ∧ SameConfig s u ∧ SameHostSide s u

/-- 60_exceptions.md R189: validation errors (codes 1 to 4) are raised before any strategy function is
invoked; an absent block function is met only after `S.ek` has run. -/
def Obligations.ValidationFailsBeforeTheStrategyRuns : Prop :=
  ∀ (d : Dir) (s u : State), s.Inv → exec (textInstr d) s = .next u →
    (u.err = true → u.errcode.toNat ≤ 4 → u.events = []) ∧
    (u.errcode = 6 → u.errinfo = 0 → u.events = []) ∧
    (u.errcode = 6 → u.errinfo ≠ 0 → u.events = [.ek])

/-- 42_codec.md R144: inside a text command ALIGN_CHECK cannot fail. -/
def Obligations.CodecAlignmentErrorIsUnreachable : Prop :=
  ∀ (d : Dir) (s u : State), s.Inv → exec (textInstr d) s = .next u → u.errcode ≠ 5

/-- 43_facade.md R165: the round trip. For a strategy that inverts (41_round_engine.md R112), decrypting
what encryption produced, fed back as the text, gives the text followed by the padding word's zero bytes.
The strategy is a parameter of the model (00_scope.md R10, log 1): the law is about every strategy, and the
machine's two commands are the two directions at its own. -/
def Obligations.DecryptionUndoesEncryption : Prop :=
  (∀ (S : Strategy) (s u : State) (t : List Byte) (key : KeySeq), s.Inv → HostDuties s t key →
    s.strat = 0b111 → S.Inverts s.n s.m → firstError .enc s t key = none →
    textCommandWith S .enc s = .next u → ∃ v : State,
      textCommandWith S .dec (copyOut u) = .next v ∧
      resultView v = .ok (if (8 * t.length / s.n) % 2 = 0 then t
        else t ++ List.replicate (s.n / 8) 0)) ∧
  (∀ s : State, exec .encryptAscii s = textCommandWith Config.strategy .enc s ∧
    exec .decryptAscii s = textCommandWith Config.strategy .dec s)

/-- 43_facade.md R166: the outcome of a command is a function of its operands alone: two states that agree
on the operands of a text command (R39) give the same result, or both are refused; two states that agree on
`N_IN` and `M_IN` give the same outcome of CONSTRUCT. -/
def Obligations.CommandDependsOnItsOperandsOnly : Prop :=
  (∀ (d : Dir) (s s' u : State), s.Inv → s'.Inv → SameOperands s s' →
    exec (textInstr d) s = .next u →
    ∃ u', exec (textInstr d) s' = .next u' ∧ resultView u' = resultView u) ∧
  (∀ s s' : State, s.nIn = s'.nIn → s.mIn = s'.mIn → ∃ u u',
    exec .construct s = .next u ∧ exec .construct s' = .next u' ∧
    resultView u' = resultView u ∧ SameConfig u u')

/-- 43_facade.md R166, 20_memory.md R57: issuing a text command again with nothing written in between gives
the same result (no hidden mutable state). -/
def Obligations.TextCommandIsIdempotent : Prop :=
  ∀ (d : Dir) (s u : State), s.Inv → exec (textInstr d) s = .next u →
    ∃ v, exec (textInstr d) u = .next v ∧ resultView v = resultView u

/-- 43_facade.md R167: the empty text. The key is still validated and expanded, so a bad key and an absent
`expandKey` still raise; the block functions are not invoked and their absence is not noticed; the
result is the empty text. (The trace of invocations is the model's field `events`, log 18.) -/
def Obligations.EmptyTextGivesTheEmptyResult : Prop :=
  ∀ (d : Dir) (s : State) (key : KeySeq), s.Inv → s.cfgValid = true → s.textPresent = true →
    s.textlen = 0 → hostKey s = .ok key →
    (s.keylen = s.m → (∀ k ∈ key, 0 ≤ k ∧ k < (2 : Int) ^ s.n) → s.strat.getLsbD 0 = true →
      ∃ u, exec (textInstr d) s = .next u ∧ resultView u = .ok [] ∧ u.outValid = true ∧
        u.outlen = 0 ∧ u.errcode = 0 ∧ u.events = [.ek]) ∧
    (s.keylen = s.m → (∀ k ∈ key, 0 ≤ k ∧ k < (2 : Int) ^ s.n) → s.strat.getLsbD 0 = false →
      ∃ u, exec (textInstr d) s = .next u ∧ resultView u = .err 6 0) ∧
    (s.keylen ≠ s.m → ∃ u, exec (textInstr d) s = .next u ∧ resultView u = .err 2 s.keylen) ∧
    (s.keylen = s.m → (∃ k ∈ key, k < 0 ∨ (2 : Int) ^ s.n ≤ k) →
      ∃ u i, exec (textInstr d) s = .next u ∧ resultView u = .err 3 i)

/-- 43_facade.md R168: the result's length depends on `N` and the text's length only; the bits of output
block `j` depend on the bits of input block `j` and the key only. -/
def Obligations.BlocksAreTransformedIndependently : Prop :=
  ∀ (S : Strategy) (d : Dir) (n m : Nat) (t t' out out' : List Byte) (key : KeySeq), 1 ≤ n →
    t.length = t'.length → (8 * t.length) % n = 0 →
    textFunction S d n m t key = some (.ok out) → textFunction S d n m t' key = some (.ok out') →
    out.length = out'.length ∧
    ∀ j, slice (textToBits t) (2 * n * j) (2 * n * (j + 1)) =
        slice (textToBits t') (2 * n * j) (2 * n * (j + 1)) →
      slice (textToBits out) (2 * n * j) (2 * n * (j + 1)) =
        slice (textToBits out') (2 * n * j) (2 * n * (j + 1))

/-- 43_facade.md R160, R163: a text command is its micro-operations. Stepping from the state `start_command`
leaves, one micro-operation at a time as `PHASE` moves, arrives at the command's own answer, whatever
it is. -/
def Obligations.CommandIsItsMicroProgram : Prop :=
  (∀ (d : Dir) (s : State), ∃ k, Host.Core.run core k (enterText d s) = exec (textInstr d) s) ∧
  (∀ s : State, step { startCommand s with phase := 15 } = exec .construct s)

/-- 43_facade.md R163: the transfers of `PHASE`, one step at a time; every phase may also return to IDLE by
`raise` where its micro-operation can raise, and there is no other transfer. -/
def Obligations.PhaseFollowsTheTransferTable : Prop :=
  ∀ s t : State, s.phase ≠ 0 → step s = .next t →
    (s.phase = 1 → t.phase = 2 ∨ (t.phase = 0 ∧ t.err = true)) ∧
    (s.phase = 2 → t.phase = 3 ∨ (t.phase = 0 ∧ t.err = true)) ∧
    (s.phase = 3 → t.phase = 4 ∨ (t.phase = 0 ∧ t.err = true)) ∧
    (s.phase = 4 → t.phase = 5) ∧
    (s.phase = 5 → t.phase = 6) ∧
    (s.phase = 6 → t.phase = 7) ∧
    (s.phase = 7 → (0 < t.bcount ∧ t.phase = 8 ∧ t.blk = 0) ∨ (t.bcount = 0 ∧ t.phase = 12)) ∧
    (s.phase = 8 → t.phase = if s.dir = .enc then 9 else 10) ∧
    (s.phase = 9 ∨ s.phase = 10 → t.phase = 11 ∨ (t.phase = 0 ∧ t.err = true)) ∧
    (s.phase = 11 → s.blk + 1 < s.bcount → t.phase = 8 ∧ t.blk = s.blk + 1) ∧
    (s.phase = 11 → s.blk + 1 = s.bcount → t.phase = 12) ∧
    (s.phase = 12 → t.phase = 13) ∧
    (s.phase = 13 → t.phase = 14 ∨ (t.phase = 0 ∧ t.err = true)) ∧
    (s.phase = 14 → t.phase = 0 ∧ t.done = true) ∧
    (s.phase = 15 → t.phase = 0 ∧ t.done = true)

/-! ### Errors, the end of a command, illegal commands -/

/-- 60_exceptions.md R190: what `raise E(info)` writes, and that the configuration, the host's registers and
buffers and `CFG_VALID` are as they were. That OUTBUF is as it was is the model's choice (log 9; R190 leaves
it unspecified after an error). -/
def Obligations.RaiseEndsTheCommand : Prop :=
  ∀ (e : ErrorKind) (info : Nat) (s : State), ∃ t, raiseError e info s = t ∧
    t.errcode = errorCode e ∧ t.errinfo = info ∧ t.err = true ∧ t.outValid = false ∧
    t.outlen = 0 ∧ t.rkValid = false ∧ t.phase = 0 ∧ t.done = true ∧
    resultView t = .err (errorCode e) info ∧ t.outbuf = s.outbuf ∧ SameConfig s t ∧ SameHostSide s t

/-- 30_encoding.md R73: the `OP` values 0 and 4 to 15 are illegal commands, whatever the ignored bits; an
illegal command clears the last result and raises IllegalCommandError(OP); configuration and host
registers are as before. That OUTBUF is as before (log 9; R190 leaves it unspecified) and that the trace of
invocations is empty (log 18) are the model's choices. -/
def Obligations.IllegalCommandRaises : Prop :=
  (∀ w : BitVec 32, (decodeCommand w).illegalOp =
    if (w.toNat % 16 = 1 ∨ w.toNat % 16 = 2 ∨ w.toNat % 16 = 3) then none
    else some (BitVec.ofNat 4 (w.toNat % 16))) ∧
  (∀ (i : Instr) (op : BitVec 4) (s : State), i.illegalOp = some op → ∃ t, exec i s = .next t ∧
    resultView t = .err 7 op.toNat ∧ t.errcode = 7 ∧ t.errinfo = op.toNat ∧ t.done = true ∧
    t.err = true ∧ t.outValid = false ∧ t.outlen = 0 ∧ t.phase = 0 ∧ t.events = [] ∧
    t.outbuf = s.outbuf ∧ SameConfig s t ∧ SameHostSide s t)

/-- 10_state.md R40, 43_facade.md R160: after a command, from any state, the sequencer is in IDLE, no round
keys are held and `DONE` is 1. -/
def Obligations.EveryCommandEndsIdle : Prop :=
  ∀ (w : BitVec 32) (s t : State), exec (decodeCommand w) s = .next t →
    t.phase = 0 ∧ t.rkValid = false ∧ t.done = true ∧ (t.err = true → t.outValid = false ∧ t.outlen = 0)

/-- 10_state.md R40, 30_encoding.md R72: no instruction writes a host-written register or buffer, or the
strap. -/
def Obligations.NoInstructionWritesTheHostSide : Prop :=
  ∀ (i : Instr) (s t : State), exec i s = .next t → SameHostSide s t

/-- 20_memory.md R50: OUTBUF is written by BITS_TO_TEXT alone, inside a command or alone; what a text
command stores there is below `OUTLEN`. That the elements from `OUTLEN` on, and all of OUTBUF after an
error, are as before is the model's choice (log 9; 10_state.md R36 leaves them unspecified). -/
def Obligations.OnlyBitsToTextWritesOutbuf : Prop :=
  (∀ (i : Instr) (s t : State), i ≠ .bitsToText → i ≠ .encryptAscii → i ≠ .decryptAscii →
    exec i s = .next t → t.outbuf = s.outbuf) ∧
  (∀ (i : Instr) (s t : State), exec i s = .next t →
    ∀ k, t.outlen ≤ k → readBuf t.outbuf k = readBuf s.outbuf k)

/-- 20_memory.md R59: TEXT_TO_BITS on a text with an element the host never wrote, VALIDATE_KEY when every
element before it is in range, and EXPAND_KEY on such a key, are refused: no result and no value
(the point at which the model refuses is log 7). -/
def Obligations.UnwrittenElementsAreRefused : Prop :=
  (∀ (s : State) (i : Nat), i < s.textlen → readBuf s.inbuf i = none →
    ∃ j, exec .textToBits s = .refused (.inbufUnwritten j)) ∧
  (∀ (s : State) (i : Nat), s.keylen = s.m → i < s.m → readBuf s.keybuf i = none →
    (∀ j, j < i → ∃ x, readBuf s.keybuf j = some x ∧ 0 ≤ x ∧ x < (s.maxWord : Int)) →
    exec .validateKey s = .refused (.keybufUnwritten i)) ∧
  (∀ (s : State) (i : Nat), i < s.m → readBuf s.keybuf i = none → s.strat.getLsbD 0 = true →
    ∃ j, exec .expandKey s = .refused (.keybufUnwritten j))

/-- 20_memory.md R59, 70_reset_and_hazards.md R214: a text command whose input checks pass is refused when
it meets a key element, or after a good key a text element, that the host never wrote (log 7). -/
def Obligations.TextCommandRefusesUnwrittenElements : Prop :=
  ∀ (d : Dir) (s : State), s.Inv → s.cfgValid = true → s.textPresent = true →
    (8 * s.textlen) % s.n = 0 → s.keylen = s.m →
    (∀ i, i < s.m → readBuf s.keybuf i = none →
      (∀ j, j < i → ∃ x, readBuf s.keybuf j = some x ∧ 0 ≤ x ∧ x < (2 : Int) ^ s.n) →
      exec (textInstr d) s = .refused (.keybufUnwritten i)) ∧
    (∀ i, i < s.textlen → readBuf s.inbuf i = none → s.strat.getLsbD 0 = true →
      (∀ j, j < s.m → ∃ x, readBuf s.keybuf j = some x ∧ 0 ≤ x ∧ x < (2 : Int) ^ s.n) →
      ∃ k, exec (textInstr d) s = .refused (.inbufUnwritten k))

/-- What micro-operations do outside the contract of their rules, in states no command reaches (the model's
choice, logs 6, 8 and 16): an operand block with a word that does not fit is refused, a short chunk is
refused, an element of WBUF without a value reads as a free word of `N` bits, in PAIR_BLOCKS and in
ENSURE_N_BITS, a word size 0 gives a free quotient, FLATTEN past the last block writes the block back and
goes on to ENSURE_N_BITS. -/
def Obligations.MicroOperationsOutsideTheirContract : Prop :=
  (∀ s : State, s.strat.getLsbD 1 = true →
    (2 ^ s.n ≤ s.l → exec .encryptBlock s = .refused (.wordOutOfRange s.l)) ∧
    (s.l < 2 ^ s.n → 2 ^ s.n ≤ s.r → exec .encryptBlock s = .refused (.wordOutOfRange s.r))) ∧
  (∀ s : State, s.strat.getLsbD 2 = true →
    (2 ^ s.n ≤ s.l → exec .decryptBlock s = .refused (.wordOutOfRange s.l)) ∧
    (s.l < 2 ^ s.n → 2 ^ s.n ≤ s.r → exec .decryptBlock s = .refused (.wordOutOfRange s.r))) ∧
  (∀ s : State, s.bitbuf.length < s.wcount * s.n → exec .parseWords s = .refused .shortChunk) ∧
  (∀ s : State, ∃ a b : Nat,
    exec .pairBlocks s = .next
      { s with l := a, r := b, phase := if s.dir = .enc then 9 else 10 } ∧
    (readBuf s.wbuf (2 * s.blk) = none → a < 2 ^ s.n) ∧
    (∀ x, readBuf s.wbuf (2 * s.blk) = some x → a = x) ∧
    (readBuf s.wbuf (2 * s.blk + 1) = none → b < 2 ^ s.n) ∧
    (∀ x, readBuf s.wbuf (2 * s.blk + 1) = some x → b = x)) ∧
  (∀ s : State,
    ((∀ k w, k < s.wcount → readBuf s.wbuf k = some w → w < 2 ^ s.n) → ∃ bits : BitString,
      exec .ensureNBits s = .next { s with bitbuf := bits, phase := 13 } ∧
      bits.length = s.n * s.wcount ∧
      ∀ k w j, k < s.wcount → readBuf s.wbuf k = some w → j < s.n →
        bits[k * s.n + j]? = some (w.testBit (s.n - 1 - j))) ∧
    ((∃ k w, k < s.wcount ∧ readBuf s.wbuf k = some w ∧ 2 ^ s.n ≤ w) →
      ∃ w, exec .ensureNBits s = .refused (.wordOutOfRange w))) ∧
  (∀ s : State, s.n = 0 → ∃ w, exec .chopN s = .next { s with wcount := w, phase := 6 }) ∧
  (∀ s : State, s.bcount ≤ s.blk → ∃ wbuf : Buf Nat,
    exec .flatten s = .next { s with wbuf := wbuf, phase := 12 } ∧
    ∀ k, readBuf wbuf k =
      if k = 2 * s.blk then some s.l else if k = 2 * s.blk + 1 then some s.r
      else readBuf s.wbuf k)

/-! ### The register map, the host, reset -/

/-- 10_state.md R22: the bits of STATUS; `BUSY` and the reserved bits read 0. -/
def Obligations.StatusBitsHaveTheirPlaces : Prop :=
  ∀ s : State,
    (statusWord s).getLsbD 0 = s.done ∧ (statusWord s).getLsbD 1 = s.err ∧
    (statusWord s).getLsbD 2 = s.outValid ∧ (statusWord s).getLsbD 3 = s.cfgValid ∧
    (∀ i, 4 ≤ i → (statusWord s).getLsbD i = false) ∧
    readRegister s 0x01 = (statusWord s).toNat

/-- 20_memory.md R57, R60, 10_state.md R23, R24, R28: which register each number reads; a host read
delivers the register's value and changes nothing of the hardware; `CMD` and numbers above 0x0F read 0,
`ALPHA` reads 8; a write to a read-only register, outside the map or to OUTBUF is ignored. -/
def Obligations.RegisterReadsAndIgnoredWrites : Prop :=
  (∀ (s : State) (no : Nat), hostAccess (.readReg no) s = .next { s with rdata := readRegister s no }) ∧
  (∀ (s : State) (no : Nat), no = 0 ∨ 0x0F < no → readRegister s no = 0) ∧
  (∀ s : State,
    readRegister s 0x01 = (statusWord s).toNat ∧ readRegister s 0x02 = s.errcode.toNat ∧
    readRegister s 0x03 = s.errinfo ∧ readRegister s 0x04 = s.nIn ∧ readRegister s 0x05 = s.mIn ∧
    readRegister s 0x06 = s.n ∧ readRegister s 0x07 = s.m ∧ readRegister s 0x08 = s.maxWord ∧
    readRegister s 0x09 = s.maxKey ∧ readRegister s 0x0A = 8 ∧
    readRegister s 0x0B = (if s.textPresent then 1 else 0) ∧ readRegister s 0x0C = s.textlen ∧
    readRegister s 0x0D = s.keylen ∧ readRegister s 0x0E = s.outlen ∧
    readRegister s 0x0F = s.strat.toNat) ∧
  (∀ (s : State) (no : Nat) (v : Int),
    (1 ≤ no ∧ no ≤ 3) ∨ (6 ≤ no ∧ no ≤ 0x0A) ∨ 0x0E ≤ no →
    hostAccess (.writeReg no v) s = .next s) ∧
  (∀ (s : State) (i : Nat) (b : Byte), hostAccess (.writeOutbuf i b) s = .next s)

/-- 70_reset_and_hazards.md R217: a host write stores its value and nothing else; the element then has that
value and every other element is as before (20_memory.md R61). A negative length is a value the port cannot
carry (60_exceptions.md R196, log 15) and is refused. -/
def Obligations.HostWritesStoreTheirValue : Prop :=
  (∀ (s : State) (v : Int),
    hostAccess (.writeReg 0x04 v) s = .next { s with nIn := v } ∧
    hostAccess (.writeReg 0x05 v) s = .next { s with mIn := v } ∧
    hostAccess (.writeReg 0x0B v) s = .next { s with textPresent := decide (v % 2 = 1) }) ∧
  (∀ (s : State) (v : Nat),
    hostAccess (.writeReg 0x0C v) s = .next { s with textlen := v } ∧
    hostAccess (.writeReg 0x0D v) s = .next { s with keylen := v }) ∧
  (∀ (s : State) (v : Int), v < 0 →
    hostAccess (.writeReg 0x0C v) s = .refused .valueNotCarried ∧
    hostAccess (.writeReg 0x0D v) s = .refused .valueNotCarried) ∧
  (∀ (s : State) (i : Nat) (b : Byte), ∃ inbuf : Buf Byte,
    hostAccess (.writeInbuf i b) s = .next { s with inbuf := inbuf } ∧
    ∀ k, readBuf inbuf k = if k = i then some b else readBuf s.inbuf k) ∧
  (∀ (s : State) (i : Nat) (x : Int), ∃ keybuf : Buf Int,
    hostAccess (.writeKeybuf i x) s = .next { s with keybuf := keybuf } ∧
    ∀ k, readBuf keybuf k = if k = i then some x else readBuf s.keybuf k)

/-- 70_reset_and_hazards.md R217, 10_state.md R36: the host reads from INBUF and KEYBUF what it wrote, and
is refused an element it never wrote; from OUTBUF it reads result byte `i` while `OUT_VALID = 1` and `i <
OUTLEN`. A read changes nothing of the hardware. -/
def Obligations.HostReadsReturnTheElement : Prop :=
  (∀ (s : State) (i : Nat) (b : Byte), readBuf s.inbuf i = some b →
    hostAccess (.readInbuf i) s = .next { s with rdata := b.toNat }) ∧
  (∀ (s : State) (i : Nat), readBuf s.inbuf i = none →
    hostAccess (.readInbuf i) s = .refused (.inbufUnwritten i)) ∧
  (∀ (s : State) (i : Nat) (x : Int), readBuf s.keybuf i = some x →
    hostAccess (.readKeybuf i) s = .next { s with rdata := x }) ∧
  (∀ (s : State) (i : Nat), readBuf s.keybuf i = none →
    hostAccess (.readKeybuf i) s = .refused (.keybufUnwritten i)) ∧
  (∀ (s : State) (i : Nat) (b : Byte), s.outValid = true → i < s.outlen →
    readBuf s.outbuf i = some b →
    hostAccess (.readOutbuf i) s = .next { s with rdata := b.toNat }) ∧
  (∀ (s : State) (i : Nat), ∃ x, hostAccess (.readOutbuf i) s = .next { s with rdata := x })

/-- 10_state.md R41: the reset values the spec gives. (The strap and the hidden registers' values are the
model's choice, logs 2 and 4, and are not stated.) -/
def Obligations.ResetLeavesTheSpecsValues : Prop :=
  State.reset.phase = 0 ∧ State.reset.rkValid = false ∧ statusWord State.reset = 0 ∧
  State.reset.errcode = 0 ∧ State.reset.errinfo = 0 ∧ State.reset.nIn = 0 ∧ State.reset.mIn = 0 ∧
  State.reset.n = 0 ∧ State.reset.m = 0 ∧ State.reset.maxWord = 0 ∧ State.reset.maxKey = 0 ∧
  readRegister State.reset 0x0A = 8 ∧ State.reset.textPresent = false ∧ State.reset.textlen = 0 ∧
  State.reset.keylen = 0 ∧ State.reset.outlen = 0 ∧
  (∀ i, readBuf State.reset.inbuf i = none) ∧ (∀ i, readBuf State.reset.keybuf i = none) ∧
  (∀ i, readBuf State.reset.outbuf i = none) ∧ (∀ i, readBuf State.reset.wbuf i = none)

/-- 70_reset_and_hazards.md R210: a reset by the host, from any state, gives every register and buffer its
reset value and keeps the strap. -/
def Obligations.HostResetRestoresTheResetValues : Prop :=
  ∀ s : State, ∃ t, hostAccess .reset s = .next t ∧
    (∀ no, no ≠ 0x0F → readRegister t no = readRegister State.reset no) ∧ t.strat = s.strat ∧
    t.phase = 0 ∧ t.rkValid = false ∧
    (∀ i, readBuf t.inbuf i = none) ∧ (∀ i, readBuf t.keybuf i = none) ∧
    (∀ i, readBuf t.outbuf i = none) ∧ (∀ i, readBuf t.wbuf i = none)

/-- 70_reset_and_hazards.md R213: a command issued before its inputs are supplied raises: with no
configuration ConfigurationError(4), with no text InputError(0), with no key KeyFormatError(0); a
CONSTRUCT whose operands were never written raises ConfigurationError(3). -/
def Obligations.MissingInitialisationRaises : Prop :=
  ∀ (d : Dir) (s : State), s.Inv →
    (s.cfgValid = false → ∃ u, exec (textInstr d) s = .next u ∧ resultView u = .err 1 4) ∧
    (s.cfgValid = true → s.textPresent = false →
      ∃ u, exec (textInstr d) s = .next u ∧ resultView u = .err 4 0) ∧
    (s.cfgValid = true → s.textPresent = true → (8 * s.textlen) % s.n = 0 → s.keylen = 0 →
      ∃ u, exec (textInstr d) s = .next u ∧ resultView u = .err 2 0) ∧
    (s.nIn = 0 → s.mIn = 0 → ∃ u, exec .construct s = .next u ∧ resultView u = .err 1 3)

/-! ### Invariants -/

/-- The laws of a buffer, for every type of element (20_memory.md R50, R59, R61): a read returns the latest
write to its element, a write leaves every other element alone and keeps the canonical form, and in that
form equal contents are equal data. -/
def Obligations.BufferReadsTheLatestWrite : Prop :=
  ∀ (α : Type) (b c : Buf α) (i j : Nat) (v : α), bufWf b = true → bufWf c = true →
    readBuf (writeBuf b i v) j = (if j = i then some v else readBuf b j) ∧
    bufWf (writeBuf b i v) = true ∧
    ((∀ k, readBuf b k = readBuf c k) → b = c)

/-- The invariant holds right after reset. Its clause on `L` and `R` rests on the model's choice of their
reset values (log 4): with `N = 0` only 0 is in `[0, 2^N)`. -/
def Obligations.ResetMeetsTheInvariant : Prop := State.reset.Inv

/-- The invariant of the machine (`State.Inv`: configuration registers, STATUS and ERRCODE, result, block
registers, WBUF, canonical buffers, idleness) is kept by every step, from every state that meets it:
host actions, whole commands and single micro-operations. -/
def Obligations.EveryStepKeepsTheInvariant : Prop :=
  ∀ s t : State, s.Inv → step s = .next t → t.Inv

/-! ### Beside the statements above -/

/-- 10_state.md R21: with an opaque strategy `RND` is 0 after a block transform. With a round-iterated one
(41_round_engine.md R113) it is the last index of the loop, which is the model's reading (log 17): `T - 1`
after an encryption (0 when there is no round), 0 after a decryption. -/
def Obligations.RoundIndexAfterABlockTransform : Prop :=
  (∀ s : State, s.strat.getLsbD 1 = true → s.l < 2 ^ s.n → s.r < 2 ^ s.n →
    ∃ t, exec .encryptBlock s = .next t ∧
      t.rnd = Config.strategy.transform.rndAfterEnc (Config.strategy.load s.rkbuf) ∧
      ∀ eb db, Config.strategy.transform = .whole eb db → t.rnd = 0) ∧
  (∀ s : State, s.strat.getLsbD 2 = true → s.l < 2 ^ s.n → s.r < 2 ^ s.n →
    ∃ t, exec .decryptBlock s = .next t ∧ t.rnd = 0) ∧
  (∀ (K : Type) (enc dec : (n m : Nat) → Block n → K → Block n) (rk : List K) (k : K),
    (Transform.rounds enc dec).rndAfterEnc [] = 0 ∧
    (Transform.rounds enc dec).rndAfterEnc (rk ++ [k]) = rk.length)

/-- 42_codec.md R133, R140: `textToBlocks` is partial: it has a value exactly for the texts whose bit
length is a multiple of `N`, and `parseWords` has none where a chunk is shorter than `N`. So has the
function of a text command. -/
def Obligations.TextToBlocksIsPartial : Prop :=
  ∀ (n : Nat) (t : List Byte), 1 ≤ n →
    ((textToBlocks n t).isSome = true ↔ (8 * t.length) % n = 0) ∧
    (∀ chunks : List BitString, (∃ c ∈ chunks, c.length < n) → parseWords n chunks = none) ∧
    (∀ (S : Strategy) (d : Dir) (m : Nat) (key : KeySeq),
      (textFunction S d n m t key).isSome = true ↔ (8 * t.length) % n = 0)

/-- 10_state.md R38, 40_config_and_key.md R95: what EXPAND_KEY stores is what the block transforms read,
whatever the strategy's layout: a block transform straight after EXPAND_KEY uses `S.ek` of the key. -/
def Obligations.StoredRoundKeysAreReadBack : Prop :=
  ∀ (s t : State) (key : KeySeq), s.strat.getLsbD 0 = true → key.length = s.m →
    (∀ i, i < s.m → readBuf s.keybuf i = key[i]?) → exec .expandKey s = .next t →
    t.l < 2 ^ t.n → t.r < 2 ^ t.n →
    (s.strat.getLsbD 1 = true → ∃ (u : State) (b : Block s.n),
      b = Config.strategy.eb s.n s.m (BitVec.ofNat s.n s.l, BitVec.ofNat s.n s.r)
        (Config.strategy.ek s.n s.m key) ∧
      exec .encryptBlock t = .next u ∧ u.l = b.1.toNat ∧ u.r = b.2.toNat ∧ u.rkbuf = t.rkbuf) ∧
    (s.strat.getLsbD 2 = true → ∃ (u : State) (b : Block s.n),
      b = Config.strategy.db s.n s.m (BitVec.ofNat s.n s.l, BitVec.ofNat s.n s.r)
        (Config.strategy.ek s.n s.m key) ∧
      exec .decryptBlock t = .next u ∧ u.l = b.1.toNat ∧ u.r = b.2.toNat ∧ u.rkbuf = t.rkbuf)
end

