-- ==== Sys2Proof/Laws/Buffers.lean ====
section
/-!
SUPPORT. The laws of buffers: a read after a write, what a write leaves alone, the canonical form, and
what reading or writing a whole sequence does.
-/
namespace Sys2Proof.Machine

variable {α : Type}

@[simp] theorem readBuf_nil (i : Nat) : readBuf ([] : Buf α) i = none := rfl

theorem readBuf_cons (k : Nat) (v : α) (b : Buf α) (i : Nat) :
    readBuf ((k, v) :: b) i = if k = i then some v else readBuf b i := rfl

theorem writeBuf_cons (k : Nat) (w : α) (b : Buf α) (i : Nat) (v : α) :
    writeBuf ((k, w) :: b) i v =
      if i < k then (i, v) :: (k, w) :: b else if i = k then (i, v) :: b
      else (k, w) :: writeBuf b i v := rfl

@[simp] theorem readBuf_writeBuf_same (b : Buf α) (i : Nat) (v : α) :
    readBuf (writeBuf b i v) i = some v := by
  induction b with
  | nil => simp [writeBuf, readBuf]
  | cons a b ih =>
    obtain ⟨k, w⟩ := a
    rw [writeBuf_cons]
    split
    · simp [readBuf_cons]
    · split
      · simp [readBuf_cons]
      · have hk : k ≠ i := by omega
        simp [readBuf_cons, hk, ih]

theorem readBuf_writeBuf_other (b : Buf α) {i j : Nat} (v : α) (h : j ≠ i) :
    readBuf (writeBuf b i v) j = readBuf b j := by
  induction b with
  | nil => simp [writeBuf, readBuf, h.symm]
  | cons a b ih =>
    obtain ⟨k, w⟩ := a
    rw [writeBuf_cons]
    split
    · simp [readBuf_cons, h.symm]
    · split
      · next hik => subst hik; simp [readBuf_cons, h.symm]
      · simp [readBuf_cons, ih]

theorem readBuf_writeBuf (b : Buf α) (i j : Nat) (v : α) :
    readBuf (writeBuf b i v) j = if j = i then some v else readBuf b j := by
  split
  · next h => rw [h, readBuf_writeBuf_same]
  · next h => exact readBuf_writeBuf_other b v h

/-! ### The canonical form -/

theorem bufWf_cons_iff (a : Nat × α) (b : Buf α) :
    bufWf (a :: b) = true ↔ (∀ c ∈ b.head?, a.1 < c.1) ∧ bufWf b = true := by
  cases b with
  | nil => simp [bufWf]
  | cons c b => simp [bufWf]

theorem head?_writeBuf (b : Buf α) (i : Nat) (v : α) :
    ∀ c ∈ (writeBuf b i v).head?, c.1 = i ∨ c ∈ b.head? := by
  cases b with
  | nil => simp [writeBuf]
  | cons a b =>
    obtain ⟨k, w⟩ := a
    rw [writeBuf_cons]
    split
    · simp
    · split <;> simp

/-- A write keeps the canonical form. -/
theorem bufWf_writeBuf {b : Buf α} (h : bufWf b = true) (i : Nat) (v : α) :
    bufWf (writeBuf b i v) = true := by
  induction b with
  | nil => rfl
  | cons a b ih =>
    obtain ⟨k, w⟩ := a
    obtain ⟨hhead, hb⟩ := (bufWf_cons_iff _ _).1 h
    rw [writeBuf_cons]
    split
    · next hik => exact (bufWf_cons_iff _ _).2 ⟨by simpa using hik, h⟩
    · split
      · next hik => subst hik; exact (bufWf_cons_iff _ _).2 ⟨hhead, hb⟩
      · refine (bufWf_cons_iff _ _).2 ⟨fun c hc => ?_, ih hb⟩
        rcases head?_writeBuf b i v c hc with hci | hcb
        · show k < c.1
          omega
        · exact hhead c hcb

theorem bufWf_writeSeq {b : Buf α} (h : bufWf b = true) (start : Nat) (vs : List α) :
    bufWf (writeSeq b start vs) = true := by
  induction vs generalizing b start with
  | nil => exact h
  | cons v vs ih => exact ih (bufWf_writeBuf h start v) (start + 1)

theorem readBuf_eq_none_of_lt {b : Buf α} (h : bufWf b = true) {i : Nat}
    (hi : ∀ c ∈ b.head?, i < c.1) : readBuf b i = none := by
  induction b with
  | nil => rfl
  | cons a b ih =>
    obtain ⟨k, w⟩ := a
    obtain ⟨hhead, hb⟩ := (bufWf_cons_iff _ _).1 h
    have hk : i < k := by simpa using hi
    rw [readBuf_cons, if_neg (by omega)]
    exact ih hb fun c hc => lt_trans hk (hhead c hc)

/-- Equal contents in canonical form are equal data. -/
theorem buf_ext {a b : Buf α} (ha : bufWf a = true) (hb : bufWf b = true)
    (h : ∀ i, readBuf a i = readBuf b i) : a = b := by
  induction a generalizing b with
  | nil =>
    cases b with
    | nil => rfl
    | cons c b => obtain ⟨k, w⟩ := c; simpa [readBuf_cons] using h k
  | cons c a ih =>
    obtain ⟨k, v⟩ := c
    cases b with
    | nil => simpa [readBuf_cons] using h k
    | cons d b =>
      obtain ⟨k', v'⟩ := d
      obtain ⟨hha, hwa⟩ := (bufWf_cons_iff _ _).1 ha
      obtain ⟨hhb, hwb⟩ := (bufWf_cons_iff _ _).1 hb
      have hk : k = k' := by
        rcases lt_trichotomy k k' with hlt | heq | hgt
        · have h1 := h k
          rw [readBuf_cons, if_pos rfl,
            readBuf_eq_none_of_lt hb (i := k) (by simpa using hlt)] at h1
          exact absurd h1 (by simp)
        · exact heq
        · have h1 := h k'
          rw [readBuf_cons k' v' b, if_pos rfl,
            readBuf_eq_none_of_lt ha (i := k') (by simpa using hgt)] at h1
          exact absurd h1.symm (by simp)
      subst hk
      have hv : v = v' := by simpa [readBuf_cons] using h k
      subst hv
      rw [ih hwa hwb fun i => ?_]
      by_cases hi : k = i
      · subst hi
        rw [readBuf_eq_none_of_lt hwa hha, readBuf_eq_none_of_lt hwb hhb]
      · simpa [readBuf_cons, hi] using h i

/-! ### Sequences -/

/-- A sequence written at `start` is what is read there; every other element is as before. -/
theorem readBuf_writeSeq (b : Buf α) (start : Nat) (vs : List α) (i : Nat) :
    readBuf (writeSeq b start vs) i =
      if start ≤ i ∧ i < start + vs.length then vs[i - start]? else readBuf b i := by
  induction vs generalizing b start with
  | nil => rw [if_neg (by simp)]; rfl
  | cons v vs ih =>
    simp only [writeSeq, ih, List.length_cons]
    by_cases h : start + 1 ≤ i ∧ i < start + 1 + vs.length
    · have hi : i - start = (i - (start + 1)) + 1 := by omega
      rw [if_pos h, if_pos (by omega), hi, List.getElem?_cons_succ]
    · rw [if_neg h, readBuf_writeBuf]
      by_cases hi : i = start
      · subst hi; rw [if_pos rfl, if_pos (by omega)]; simp
      · rw [if_neg hi, if_neg (by omega)]

/-- What reading a sequence answers: the elements in order when all hold a value. -/
theorem readSeq_eq_ok_iff (b : Buf α) (start len : Nat) (vs : List α) :
    readSeq b start len = .ok vs ↔
      vs.length = len ∧ ∀ i, i < len → readBuf b (start + i) = vs[i]? := by
  induction len generalizing start vs with
  | zero =>
    constructor
    · intro h; cases h; simp
    · rintro ⟨h, -⟩; rw [List.length_eq_zero_iff.1 h]; rfl
  | succ len ih =>
    rw [readSeq]
    constructor
    · intro h
      split at h
      · cases h
      · next v hv =>
        split at h
        · next us hus =>
          cases h
          obtain ⟨hlen, hget⟩ := (ih _ _).1 hus
          refine ⟨by simp [hlen], fun i hi => ?_⟩
          cases i with
          | zero => simpa using hv
          | succ i =>
            rw [List.getElem?_cons_succ, ← hget i (by omega)]
            congr 1; omega
        · cases h
    · rintro ⟨hlen, hget⟩
      cases vs with
      | nil => simp at hlen
      | cons v us =>
        have h0 : readBuf b start = some v := by simpa using hget 0 (by omega)
        have hus : readSeq b (start + 1) len = .ok us := by
          refine (ih _ _).2 ⟨by simpa using hlen, fun i hi => ?_⟩
          have := hget (i + 1) (by omega)
          rw [List.getElem?_cons_succ] at this
          rw [← this]; congr 1; omega
        simp [h0, hus]

theorem readSeq_length {b : Buf α} {start len : Nat} {vs : List α}
    (h : readSeq b start len = .ok vs) : vs.length = len :=
  ((readSeq_eq_ok_iff b start len vs).1 h).1

/-- A sequence just written is read back. -/
theorem readSeq_writeSeq (b : Buf α) (start : Nat) (vs : List α) :
    readSeq (writeSeq b start vs) start vs.length = .ok vs := by
  refine (readSeq_eq_ok_iff _ _ _ _).2 ⟨rfl, fun i hi => ?_⟩
  rw [readBuf_writeSeq, if_pos (by omega)]
  congr 1; omega

theorem memory_wf_iff (s : State) :
    Memory.wf s = true ↔
      bufWf s.inbuf = true ∧ bufWf s.keybuf = true ∧ bufWf s.outbuf = true ∧
        bufWf s.wbuf = true := by
  simp [Memory.wf, and_assoc]

/-- The memory of the state after reset is in canonical form. -/
theorem memory_wf_reset : Memory.wf State.reset = true := rfl

end Sys2Proof.Machine
end

