-- ==== Sys2Proof/Laws/Numerals.lean ====
section
/-!
SUPPORT. The laws of numerals and of the codec's pure functions (00_scope.md R7, 42_codec.md R130 to
R144).
-/
namespace Sys2Proof.Machine

/-! ### `val` and `toBits` -/

@[simp] theorem toBits_length (w v : Nat) : (toBits w v).length = w := by
  induction w with
  | zero => rfl
  | succ w ih => simp [toBits, ih]

theorem foldl_val (acc : Nat) (bs : BitString) :
    bs.foldl (fun a b => 2 * a + b.toNat) acc = acc * 2 ^ bs.length + val bs := by
  induction bs generalizing acc with
  | nil => simp [val]
  | cons b bs ih =>
    have hv : val (b :: bs) = bs.foldl (fun a b => 2 * a + b.toNat) (2 * 0 + b.toNat) := rfl
    rw [List.foldl_cons, ih, hv, ih, List.length_cons]
    ring

theorem val_cons (b : Bool) (bs : BitString) :
    val (b :: bs) = b.toNat * 2 ^ bs.length + val bs := by
  rw [val, List.foldl_cons, foldl_val]; simp

@[simp] theorem val_nil : val [] = 0 := rfl

/-- A numeral of `len` bits is below `2^len`. -/
theorem val_lt (bs : BitString) : val bs < 2 ^ bs.length := by
  induction bs with
  | nil => simp
  | cons b bs ih =>
    rw [val_cons, List.length_cons, pow_succ]
    cases b <;> simp <;> omega

/-- R7: `val(tobits_w(v)) = v`, here without its premise: the low `w` bits. -/
theorem val_toBits_mod (w v : Nat) : val (toBits w v) = v % 2 ^ w := by
  induction w with
  | zero => simp [toBits, Nat.mod_one]
  | succ w ih =>
    rw [toBits, val_cons, toBits_length, ih, pow_succ, Nat.mod_mul,
      Nat.testBit_eq_decide_div_mod_eq]
    have := Nat.mod_lt (v / 2 ^ w) (show 0 < 2 by norm_num)
    by_cases h : v / 2 ^ w % 2 = 1
    · simp [h]; ring
    · have h0 : v / 2 ^ w % 2 = 0 := by omega
      simp [h0]

/-- R7: `val(tobits_w(v)) = v` for `v < 2^w`. -/
theorem val_toBits {w v : Nat} (h : v < 2 ^ w) : val (toBits w v) = v := by
  rw [val_toBits_mod, Nat.mod_eq_of_lt h]

/-- R7: `tobits_w(val(bs)) = bs` when `len(bs) = w`. -/
theorem toBits_val (bs : BitString) : toBits bs.length (val bs) = bs := by
  induction bs with
  | nil => rfl
  | cons b bs ih =>
    have hlt := val_lt bs
    rw [List.length_cons, toBits]
    congr 1
    · rw [val_cons, Nat.testBit_eq_decide_div_mod_eq, mul_comm,
        Nat.mul_add_div (by positivity), Nat.div_eq_of_lt hlt]
      cases b <;> simp
    · rw [← ih]
      have hmod : ∀ w x y : Nat, x % 2 ^ w = y % 2 ^ w → toBits w x = toBits w y := by
        intro w
        induction w with
        | zero => intros; rfl
        | succ w ihw =>
          intro x y hxy
          have hbit : x.testBit w = y.testBit w := by
            have h1 := Nat.testBit_mod_two_pow x (w + 1) w
            have h2 := Nat.testBit_mod_two_pow y (w + 1) w
            rw [hxy, h2] at h1
            simpa using h1.symm
          have hlow : x % 2 ^ w = y % 2 ^ w := by
            have h1 := congrArg (· % 2 ^ w) hxy
            have hd : (2 : Nat) ^ w ∣ 2 ^ (w + 1) := ⟨2, by ring⟩
            simpa [Nat.mod_mod_of_dvd _ hd] using h1
          rw [toBits, toBits, hbit, ihw x y hlow]
      rw [ih]
      conv_rhs => rw [← ih]
      apply hmod
      rw [val_cons]
      simp [Nat.add_mod]

/-! ### Bits and words of a fixed width -/

@[simp] theorem wordsToBits_length (n : Nat) (ws : List Nat) :
    (wordsToBits n ws).length = n * ws.length := by
  induction ws with
  | nil => rfl
  | cons w ws ih =>
    rw [wordsToBits, List.flatMap_cons, List.length_append, toBits_length]
    rw [wordsToBits] at ih
    rw [ih, List.length_cons]; ring

theorem wordsToBits_cons (n w : Nat) (ws : List Nat) :
    wordsToBits n (w :: ws) = toBits n w ++ wordsToBits n ws := rfl

@[simp] theorem bitWords_length (bs : BitString) (n c : Nat) : (bitWords bs n c).length = c := by
  simp [bitWords]

/-- The first word, and the rest of the bits. -/
theorem bitWords_succ (bs : BitString) (n c : Nat) :
    bitWords bs n (c + 1) = val (bs.take n) :: bitWords (bs.drop n) n c := by
  simp only [bitWords, List.range_succ_eq_map, List.map_cons, List.map_map, slice]
  congr 1
  · simp
  · apply List.map_congr_left
    intro k _
    have : n + k * n = (k + 1) * n := by ring
    simp [List.drop_drop, this]

/-- Every word parsed is in `[0, 2^n)` (R132). -/
theorem bitWords_lt {bs : BitString} {n c w : Nat} (h : w ∈ bitWords bs n c) : w < 2 ^ n := by
  simp only [bitWords, List.mem_map] at h
  obtain ⟨k, -, rfl⟩ := h
  refine lt_of_lt_of_le (val_lt _) (Nat.pow_le_pow_right (by norm_num) ?_)
  simp [slice]

/-- R142, bits first: parsed words expand to the bits they came from. -/
theorem wordsToBits_bitWords (n c : Nat) (bs : BitString) (h : bs.length = n * c) :
    wordsToBits n (bitWords bs n c) = bs := by
  induction c generalizing bs with
  | zero => simp at h; subst h; rfl
  | succ c ih =>
    have hlen : bs.length = n + n * c := by rw [h]; ring
    have htake : (bs.take n).length = n := by simp; omega
    rw [bitWords_succ, wordsToBits_cons, ih _ (by simp [hlen])]
    have := toBits_val (bs.take n)
    rw [htake] at this
    rw [this, List.take_append_drop]

/-- R142, words first: words in range are parsed back from their bits. -/
theorem bitWords_wordsToBits (n : Nat) (ws : List Nat) (h : ∀ w ∈ ws, w < 2 ^ n) :
    bitWords (wordsToBits n ws) n ws.length = ws := by
  induction ws with
  | nil => rfl
  | cons w ws ih =>
    rw [List.length_cons, bitWords_succ, wordsToBits_cons]
    have hl : (toBits n w).length = n := toBits_length n w
    rw [List.take_left' hl, List.drop_left' hl, val_toBits (h w (by simp)),
      ih fun x hx => h x (by simp [hx])]

/-- R131, R132: with no short chunk, `parseWords n (chop bs n)` is the word at each multiple of `n`. -/
theorem parseWords_chop {n : Nat} (hn : 0 < n) (bs : BitString) (h : bs.length % n = 0) :
    parseWords n (chop bs n) = some (bitWords bs n (bs.length / n)) := by
  obtain ⟨c, hc⟩ := Nat.dvd_of_mod_eq_zero h
  have hq : bs.length / n = c := by rw [hc, Nat.mul_div_cancel_left _ hn]
  have hchunks : (bs.length + n - 1) / n = c := by
    rw [hc, Nat.add_sub_assoc hn, Nat.mul_add_div hn, Nat.div_eq_of_lt (by omega)]
    rfl
  rw [parseWords, if_pos]
  · simp [chop, bitWords, hq, hchunks]
  · simp only [chop, hchunks, List.all_map, List.all_eq_true, List.mem_range]
    intro k hk
    have hle : k * n + n ≤ bs.length := by
      rw [hc, mul_comm n c]
      calc k * n + n = (k + 1) * n := by ring
        _ ≤ c * n := Nat.mul_le_mul_right n hk
    simp [slice]
    omega

/-- R133: the last chunk is short when the bits are no whole number of words, and then there is no word
sequence. -/
theorem parseWords_chop_short {n : Nat} (hn : 0 < n) (bs : BitString) (h : bs.length % n ≠ 0) :
    parseWords n (chop bs n) = none := by
  have hdm := Nat.div_add_mod bs.length n
  have hlt := Nat.mod_lt bs.length hn
  have hchunks : (bs.length + n - 1) / n = bs.length / n + 1 := by
    have : bs.length + n - 1 = n * (bs.length / n + 1) + (bs.length % n - 1) := by
      have : n * (bs.length / n + 1) = n * (bs.length / n) + n := by ring
      omega
    rw [this, Nat.mul_add_div hn, Nat.div_eq_of_lt (a := bs.length % n - 1) (by omega), Nat.add_zero]
  rw [parseWords, if_neg]
  simp only [chop, hchunks, List.all_map, List.all_eq_true, List.mem_range]
  intro hall
  have := hall (bs.length / n) (by omega)
  rw [mul_comm] at hdm
  simp [slice] at this
  omega

/-! ### Texts -/

theorem textToBits_eq (t : List Byte) : textToBits t = wordsToBits 8 (t.map BitVec.toNat) := by
  simp [textToBits, wordsToBits, alpha, List.flatMap_map]

@[simp] theorem textToBits_length (t : List Byte) : (textToBits t).length = 8 * t.length := by
  simp [textToBits_eq]

theorem bitsToText_eq (bs : BitString) :
    bitsToText bs = (bitWords bs 8 (bs.length / 8)).map (BitVec.ofNat 8) := by
  simp [bitsToText, bitWords, alpha, mul_comm]

@[simp] theorem bitsToText_length (bs : BitString) : (bitsToText bs).length = bs.length / 8 := by
  simp [bitsToText_eq]

/-- R142: the bits of a text give the text back. -/
theorem bitsToText_textToBits (t : List Byte) : bitsToText (textToBits t) = t := by
  have h : ∀ w ∈ t.map BitVec.toNat, w < 2 ^ 8 := by
    intro w hw
    obtain ⟨b, -, rfl⟩ := List.mem_map.1 hw
    exact b.isLt
  have hlen : (textToBits t).length / 8 = (t.map BitVec.toNat).length := by simp
  rw [bitsToText_eq, hlen, textToBits_eq, bitWords_wordsToBits 8 _ h, List.map_map]
  conv_rhs => rw [← List.map_id t]
  apply List.map_congr_left
  intro b _
  simp

/-- R142: whole bytes are kept by the way through text. -/
theorem textToBits_bitsToText (bs : BitString) (h : bs.length % 8 = 0) :
    textToBits (bitsToText bs) = bs := by
  rw [textToBits_eq, bitsToText_eq, List.map_map]
  have hid : (bitWords bs 8 (bs.length / 8)).map (BitVec.toNat ∘ BitVec.ofNat 8)
      = bitWords bs 8 (bs.length / 8) := by
    conv_rhs => rw [← List.map_id (bitWords bs 8 (bs.length / 8))]
    apply List.map_congr_left
    intro w hw
    have := bitWords_lt hw
    simpa using this
  rw [hid, wordsToBits_bitWords]
  omega

/-! ### The segmenter -/

@[simp] theorem flatten_nil : flatten [] = [] := rfl

@[simp] theorem flatten_cons (b : Nat × Nat) (bs : List (Nat × Nat)) :
    flatten (b :: bs) = b.1 :: b.2 :: flatten bs := rfl

@[simp] theorem flatten_length (bs : List (Nat × Nat)) : (flatten bs).length = 2 * bs.length := by
  induction bs with
  | nil => rfl
  | cons b bs ih => simp [ih]; ring

/-- R136: `pairBlocks(flatten(bs)) = bs`. -/
@[simp] theorem pairBlocks_flatten (bs : List (Nat × Nat)) : pairBlocks (flatten bs) = bs := by
  induction bs with
  | nil => rfl
  | cons b bs ih => simp [pairBlocks, ih]

/-- R136: `flatten(pairBlocks(ws)) = ws` for an even count. -/
theorem flatten_pairBlocks (ws : List Nat) (h : ws.length % 2 = 0) :
    flatten (pairBlocks ws) = ws := by
  induction ws using pairBlocks.induct with
  | case1 a b rest ih =>
    have : rest.length % 2 = 0 := by simp at h; omega
    simp [pairBlocks, ih this]
  | case2 ws hne =>
    cases ws with
    | nil => rfl
    | cons a ws =>
      cases ws with
      | nil => simp at h
      | cons b rest => exact absurd rfl (hne a b rest)

theorem pairBlocks_length (ws : List Nat) : (pairBlocks ws).length = ws.length / 2 := by
  induction ws using pairBlocks.induct with
  | case1 a b rest ih => simp [pairBlocks, ih]; omega
  | case2 ws hne =>
    cases ws with
    | nil => rfl
    | cons a ws =>
      cases ws with
      | nil => simp [pairBlocks]
      | cons b rest => exact absurd rfl (hne a b rest)

@[simp] theorem padEven_length (ws : List Nat) :
    (padEven ws).length = ws.length + ws.length % 2 := by
  unfold padEven
  split
  · next h => simp [h]
  · omega

theorem padEven_even (ws : List Nat) : (padEven ws).length % 2 = 0 := by
  rw [padEven_length]; omega

theorem mem_padEven {ws : List Nat} {w : Nat} (h : w ∈ padEven ws) : w ∈ ws ∨ w = 0 := by
  unfold padEven at h
  split at h
  · simpa using h
  · exact .inl h

theorem flatten_getElem? (bs : List (Nat × Nat)) (j : Nat) :
    (flatten bs)[2 * j]? = bs[j]?.map Prod.fst ∧ (flatten bs)[2 * j + 1]? = bs[j]?.map Prod.snd := by
  induction bs generalizing j with
  | nil => simp
  | cons b bs ih =>
    cases j with
    | zero => simp
    | succ j => simpa [Nat.mul_succ] using ih j

/-- R7, R51: bit `j` of `tobits_w(v)`, from the left, is bit `w-1-j` of `v`. -/
theorem toBits_getElem? (w v j : Nat) (h : j < w) :
    (toBits w v)[j]? = some (v.testBit (w - 1 - j)) := by
  induction w generalizing j with
  | zero => omega
  | succ w ih =>
    cases j with
    | zero => simp [toBits]
    | succ j => rw [toBits, List.getElem?_cons_succ, ih j (by omega)]; congr 2; omega

/-- R137: where word `k` stands in the BitString, and its bits. -/
theorem wordsToBits_getElem? (n : Nat) (ws : List Nat) (k j w : Nat) (h : ws[k]? = some w)
    (hj : j < n) : (wordsToBits n ws)[k * n + j]? = some (w.testBit (n - 1 - j)) := by
  induction ws generalizing k with
  | nil => simp at h
  | cons a ws ih =>
    rw [wordsToBits_cons]
    cases k with
    | zero =>
      simp at h; subst h
      rw [List.getElem?_append_left (by simpa using hj)]
      simpa using toBits_getElem? n a j hj
    | succ k =>
      have e : (k + 1) * n + j = n + (k * n + j) := by ring
      rw [List.getElem?_append_right (by simp [e]), e]
      simpa using ih k (by simpa using h)

end Sys2Proof.Machine
end

