-- ==== Sys2Proof/Laws/State.lean ====
section
/-!
SUPPORT. One lemma per field per shared update of the state, true by `rfl`, so that no proof unfolds a
record update.
-/
namespace Sys2Proof.Machine

variable (s : State)

/-! ### `toPhase p s` -/

@[simp] theorem toPhase_nIn (p : BitVec 4) : (toPhase p s).nIn = s.nIn := rfl
@[simp] theorem toPhase_mIn (p : BitVec 4) : (toPhase p s).mIn = s.mIn := rfl
@[simp] theorem toPhase_textPresent (p : BitVec 4) : (toPhase p s).textPresent = s.textPresent := rfl
@[simp] theorem toPhase_textlen (p : BitVec 4) : (toPhase p s).textlen = s.textlen := rfl
@[simp] theorem toPhase_keylen (p : BitVec 4) : (toPhase p s).keylen = s.keylen := rfl
@[simp] theorem toPhase_done (p : BitVec 4) : (toPhase p s).done = s.done := rfl
@[simp] theorem toPhase_err (p : BitVec 4) : (toPhase p s).err = s.err := rfl
@[simp] theorem toPhase_outValid (p : BitVec 4) : (toPhase p s).outValid = s.outValid := rfl
@[simp] theorem toPhase_cfgValid (p : BitVec 4) : (toPhase p s).cfgValid = s.cfgValid := rfl
@[simp] theorem toPhase_errcode (p : BitVec 4) : (toPhase p s).errcode = s.errcode := rfl
@[simp] theorem toPhase_errinfo (p : BitVec 4) : (toPhase p s).errinfo = s.errinfo := rfl
@[simp] theorem toPhase_n (p : BitVec 4) : (toPhase p s).n = s.n := rfl
@[simp] theorem toPhase_m (p : BitVec 4) : (toPhase p s).m = s.m := rfl
@[simp] theorem toPhase_maxWord (p : BitVec 4) : (toPhase p s).maxWord = s.maxWord := rfl
@[simp] theorem toPhase_maxKey (p : BitVec 4) : (toPhase p s).maxKey = s.maxKey := rfl
@[simp] theorem toPhase_outlen (p : BitVec 4) : (toPhase p s).outlen = s.outlen := rfl
@[simp] theorem toPhase_strat (p : BitVec 4) : (toPhase p s).strat = s.strat := rfl
@[simp] theorem toPhase_inbuf (p : BitVec 4) : (toPhase p s).inbuf = s.inbuf := rfl
@[simp] theorem toPhase_keybuf (p : BitVec 4) : (toPhase p s).keybuf = s.keybuf := rfl
@[simp] theorem toPhase_outbuf (p : BitVec 4) : (toPhase p s).outbuf = s.outbuf := rfl
@[simp] theorem toPhase_phase (p : BitVec 4) : (toPhase p s).phase = p := rfl
@[simp] theorem toPhase_blk (p : BitVec 4) : (toPhase p s).blk = s.blk := rfl
@[simp] theorem toPhase_rnd (p : BitVec 4) : (toPhase p s).rnd = s.rnd := rfl
@[simp] theorem toPhase_dir (p : BitVec 4) : (toPhase p s).dir = s.dir := rfl
@[simp] theorem toPhase_l (p : BitVec 4) : (toPhase p s).l = s.l := rfl
@[simp] theorem toPhase_r (p : BitVec 4) : (toPhase p s).r = s.r := rfl
@[simp] theorem toPhase_bitbuf (p : BitVec 4) : (toPhase p s).bitbuf = s.bitbuf := rfl
@[simp] theorem toPhase_wbuf (p : BitVec 4) : (toPhase p s).wbuf = s.wbuf := rfl
@[simp] theorem toPhase_wcount (p : BitVec 4) : (toPhase p s).wcount = s.wcount := rfl
@[simp] theorem toPhase_bcount (p : BitVec 4) : (toPhase p s).bcount = s.bcount := rfl
@[simp] theorem toPhase_rkbuf (p : BitVec 4) : (toPhase p s).rkbuf = s.rkbuf := rfl
@[simp] theorem toPhase_rkValid (p : BitVec 4) : (toPhase p s).rkValid = s.rkValid := rfl
@[simp] theorem toPhase_events (p : BitVec 4) : (toPhase p s).events = s.events := rfl
@[simp] theorem toPhase_pending (p : BitVec 4) : (toPhase p s).pending = s.pending := rfl
@[simp] theorem toPhase_rdata (p : BitVec 4) : (toPhase p s).rdata = s.rdata := rfl
@[simp] theorem toPhase_freeCtr (p : BitVec 4) : (toPhase p s).freeCtr = s.freeCtr := rfl

/-! ### `clearResult s` -/

@[simp] theorem clearResult_nIn : (clearResult s).nIn = s.nIn := rfl
@[simp] theorem clearResult_mIn : (clearResult s).mIn = s.mIn := rfl
@[simp] theorem clearResult_textPresent : (clearResult s).textPresent = s.textPresent := rfl
@[simp] theorem clearResult_textlen : (clearResult s).textlen = s.textlen := rfl
@[simp] theorem clearResult_keylen : (clearResult s).keylen = s.keylen := rfl
@[simp] theorem clearResult_done : (clearResult s).done = false := rfl
@[simp] theorem clearResult_err : (clearResult s).err = false := rfl
@[simp] theorem clearResult_outValid : (clearResult s).outValid = false := rfl
@[simp] theorem clearResult_cfgValid : (clearResult s).cfgValid = s.cfgValid := rfl
@[simp] theorem clearResult_errcode : (clearResult s).errcode = 0 := rfl
@[simp] theorem clearResult_errinfo : (clearResult s).errinfo = 0 := rfl
@[simp] theorem clearResult_n : (clearResult s).n = s.n := rfl
@[simp] theorem clearResult_m : (clearResult s).m = s.m := rfl
@[simp] theorem clearResult_maxWord : (clearResult s).maxWord = s.maxWord := rfl
@[simp] theorem clearResult_maxKey : (clearResult s).maxKey = s.maxKey := rfl
@[simp] theorem clearResult_outlen : (clearResult s).outlen = 0 := rfl
@[simp] theorem clearResult_strat : (clearResult s).strat = s.strat := rfl
@[simp] theorem clearResult_inbuf : (clearResult s).inbuf = s.inbuf := rfl
@[simp] theorem clearResult_keybuf : (clearResult s).keybuf = s.keybuf := rfl
@[simp] theorem clearResult_outbuf : (clearResult s).outbuf = s.outbuf := rfl
@[simp] theorem clearResult_phase : (clearResult s).phase = s.phase := rfl
@[simp] theorem clearResult_blk : (clearResult s).blk = s.blk := rfl
@[simp] theorem clearResult_rnd : (clearResult s).rnd = s.rnd := rfl
@[simp] theorem clearResult_dir : (clearResult s).dir = s.dir := rfl
@[simp] theorem clearResult_l : (clearResult s).l = s.l := rfl
@[simp] theorem clearResult_r : (clearResult s).r = s.r := rfl
@[simp] theorem clearResult_bitbuf : (clearResult s).bitbuf = s.bitbuf := rfl
@[simp] theorem clearResult_wbuf : (clearResult s).wbuf = s.wbuf := rfl
@[simp] theorem clearResult_wcount : (clearResult s).wcount = s.wcount := rfl
@[simp] theorem clearResult_bcount : (clearResult s).bcount = s.bcount := rfl
@[simp] theorem clearResult_rkbuf : (clearResult s).rkbuf = s.rkbuf := rfl
@[simp] theorem clearResult_rkValid : (clearResult s).rkValid = false := rfl
@[simp] theorem clearResult_events : (clearResult s).events = s.events := rfl
@[simp] theorem clearResult_pending : (clearResult s).pending = s.pending := rfl
@[simp] theorem clearResult_rdata : (clearResult s).rdata = s.rdata := rfl
@[simp] theorem clearResult_freeCtr : (clearResult s).freeCtr = s.freeCtr := rfl

/-! ### `startCommand s` -/

@[simp] theorem startCommand_nIn : (startCommand s).nIn = s.nIn := rfl
@[simp] theorem startCommand_mIn : (startCommand s).mIn = s.mIn := rfl
@[simp] theorem startCommand_textPresent : (startCommand s).textPresent = s.textPresent := rfl
@[simp] theorem startCommand_textlen : (startCommand s).textlen = s.textlen := rfl
@[simp] theorem startCommand_keylen : (startCommand s).keylen = s.keylen := rfl
@[simp] theorem startCommand_done : (startCommand s).done = false := rfl
@[simp] theorem startCommand_err : (startCommand s).err = false := rfl
@[simp] theorem startCommand_outValid : (startCommand s).outValid = false := rfl
@[simp] theorem startCommand_cfgValid : (startCommand s).cfgValid = s.cfgValid := rfl
@[simp] theorem startCommand_errcode : (startCommand s).errcode = 0 := rfl
@[simp] theorem startCommand_errinfo : (startCommand s).errinfo = 0 := rfl
@[simp] theorem startCommand_n : (startCommand s).n = s.n := rfl
@[simp] theorem startCommand_m : (startCommand s).m = s.m := rfl
@[simp] theorem startCommand_maxWord : (startCommand s).maxWord = s.maxWord := rfl
@[simp] theorem startCommand_maxKey : (startCommand s).maxKey = s.maxKey := rfl
@[simp] theorem startCommand_outlen : (startCommand s).outlen = 0 := rfl
@[simp] theorem startCommand_strat : (startCommand s).strat = s.strat := rfl
@[simp] theorem startCommand_inbuf : (startCommand s).inbuf = s.inbuf := rfl
@[simp] theorem startCommand_keybuf : (startCommand s).keybuf = s.keybuf := rfl
@[simp] theorem startCommand_outbuf : (startCommand s).outbuf = s.outbuf := rfl
@[simp] theorem startCommand_phase : (startCommand s).phase = s.phase := rfl
@[simp] theorem startCommand_blk : (startCommand s).blk = s.blk := rfl
@[simp] theorem startCommand_rnd : (startCommand s).rnd = s.rnd := rfl
@[simp] theorem startCommand_dir : (startCommand s).dir = s.dir := rfl
@[simp] theorem startCommand_l : (startCommand s).l = s.l := rfl
@[simp] theorem startCommand_r : (startCommand s).r = s.r := rfl
@[simp] theorem startCommand_bitbuf : (startCommand s).bitbuf = s.bitbuf := rfl
@[simp] theorem startCommand_wbuf : (startCommand s).wbuf = s.wbuf := rfl
@[simp] theorem startCommand_wcount : (startCommand s).wcount = s.wcount := rfl
@[simp] theorem startCommand_bcount : (startCommand s).bcount = s.bcount := rfl
@[simp] theorem startCommand_rkbuf : (startCommand s).rkbuf = s.rkbuf := rfl
@[simp] theorem startCommand_rkValid : (startCommand s).rkValid = false := rfl
@[simp] theorem startCommand_events : (startCommand s).events = [] := rfl
@[simp] theorem startCommand_pending : (startCommand s).pending = s.pending := rfl
@[simp] theorem startCommand_rdata : (startCommand s).rdata = s.rdata := rfl
@[simp] theorem startCommand_freeCtr : (startCommand s).freeCtr = s.freeCtr := rfl

/-! ### `loseHidden s` -/

@[simp] theorem loseHidden_nIn : (loseHidden s).nIn = s.nIn := rfl
@[simp] theorem loseHidden_mIn : (loseHidden s).mIn = s.mIn := rfl
@[simp] theorem loseHidden_textPresent : (loseHidden s).textPresent = s.textPresent := rfl
@[simp] theorem loseHidden_textlen : (loseHidden s).textlen = s.textlen := rfl
@[simp] theorem loseHidden_keylen : (loseHidden s).keylen = s.keylen := rfl
@[simp] theorem loseHidden_done : (loseHidden s).done = s.done := rfl
@[simp] theorem loseHidden_err : (loseHidden s).err = s.err := rfl
@[simp] theorem loseHidden_outValid : (loseHidden s).outValid = s.outValid := rfl
@[simp] theorem loseHidden_cfgValid : (loseHidden s).cfgValid = s.cfgValid := rfl
@[simp] theorem loseHidden_errcode : (loseHidden s).errcode = s.errcode := rfl
@[simp] theorem loseHidden_errinfo : (loseHidden s).errinfo = s.errinfo := rfl
@[simp] theorem loseHidden_n : (loseHidden s).n = s.n := rfl
@[simp] theorem loseHidden_m : (loseHidden s).m = s.m := rfl
@[simp] theorem loseHidden_maxWord : (loseHidden s).maxWord = s.maxWord := rfl
@[simp] theorem loseHidden_maxKey : (loseHidden s).maxKey = s.maxKey := rfl
@[simp] theorem loseHidden_outlen : (loseHidden s).outlen = s.outlen := rfl
@[simp] theorem loseHidden_strat : (loseHidden s).strat = s.strat := rfl
@[simp] theorem loseHidden_inbuf : (loseHidden s).inbuf = s.inbuf := rfl
@[simp] theorem loseHidden_keybuf : (loseHidden s).keybuf = s.keybuf := rfl
@[simp] theorem loseHidden_outbuf : (loseHidden s).outbuf = s.outbuf := rfl
@[simp] theorem loseHidden_phase : (loseHidden s).phase = s.phase := rfl
@[simp] theorem loseHidden_blk : (loseHidden s).blk = Config.lostNat s.freeCtr 0 := rfl
@[simp] theorem loseHidden_rnd : (loseHidden s).rnd = Config.lostNat s.freeCtr 1 := rfl
@[simp] theorem loseHidden_dir : (loseHidden s).dir = s.dir := rfl
@[simp] theorem loseHidden_l : (loseHidden s).l = Config.lostNat s.freeCtr 2 % 2 ^ s.n := rfl
@[simp] theorem loseHidden_r : (loseHidden s).r = Config.lostNat s.freeCtr 3 % 2 ^ s.n := rfl
@[simp] theorem loseHidden_bitbuf : (loseHidden s).bitbuf = Config.lostBits s.freeCtr := rfl
@[simp] theorem loseHidden_wbuf : (loseHidden s).wbuf = [] := rfl
@[simp] theorem loseHidden_wcount : (loseHidden s).wcount = Config.lostNat s.freeCtr 4 := rfl
@[simp] theorem loseHidden_bcount : (loseHidden s).bcount = Config.lostNat s.freeCtr 5 := rfl
@[simp] theorem loseHidden_rkbuf : (loseHidden s).rkbuf = Config.lostRoundKeys s.freeCtr := rfl
@[simp] theorem loseHidden_rkValid : (loseHidden s).rkValid = s.rkValid := rfl
@[simp] theorem loseHidden_events : (loseHidden s).events = s.events := rfl
@[simp] theorem loseHidden_pending : (loseHidden s).pending = s.pending := rfl
@[simp] theorem loseHidden_rdata : (loseHidden s).rdata = s.rdata := rfl
@[simp] theorem loseHidden_freeCtr : (loseHidden s).freeCtr = s.freeCtr + 1 := rfl

/-! ### `raiseError e info s` -/

@[simp] theorem raiseError_nIn (e : ErrorKind) (info : Nat) : (raiseError e info s).nIn = s.nIn := rfl
@[simp] theorem raiseError_mIn (e : ErrorKind) (info : Nat) : (raiseError e info s).mIn = s.mIn := rfl
@[simp] theorem raiseError_textPresent (e : ErrorKind) (info : Nat) : (raiseError e info s).textPresent = s.textPresent := rfl
@[simp] theorem raiseError_textlen (e : ErrorKind) (info : Nat) : (raiseError e info s).textlen = s.textlen := rfl
@[simp] theorem raiseError_keylen (e : ErrorKind) (info : Nat) : (raiseError e info s).keylen = s.keylen := rfl
@[simp] theorem raiseError_done (e : ErrorKind) (info : Nat) : (raiseError e info s).done = true := rfl
@[simp] theorem raiseError_err (e : ErrorKind) (info : Nat) : (raiseError e info s).err = true := rfl
@[simp] theorem raiseError_outValid (e : ErrorKind) (info : Nat) : (raiseError e info s).outValid = false := rfl
@[simp] theorem raiseError_cfgValid (e : ErrorKind) (info : Nat) : (raiseError e info s).cfgValid = s.cfgValid := rfl
@[simp] theorem raiseError_errcode (e : ErrorKind) (info : Nat) : (raiseError e info s).errcode = errorCode e := rfl
@[simp] theorem raiseError_errinfo (e : ErrorKind) (info : Nat) : (raiseError e info s).errinfo = info := rfl
@[simp] theorem raiseError_n (e : ErrorKind) (info : Nat) : (raiseError e info s).n = s.n := rfl
@[simp] theorem raiseError_m (e : ErrorKind) (info : Nat) : (raiseError e info s).m = s.m := rfl
@[simp] theorem raiseError_maxWord (e : ErrorKind) (info : Nat) : (raiseError e info s).maxWord = s.maxWord := rfl
@[simp] theorem raiseError_maxKey (e : ErrorKind) (info : Nat) : (raiseError e info s).maxKey = s.maxKey := rfl
@[simp] theorem raiseError_outlen (e : ErrorKind) (info : Nat) : (raiseError e info s).outlen = 0 := rfl
@[simp] theorem raiseError_strat (e : ErrorKind) (info : Nat) : (raiseError e info s).strat = s.strat := rfl
@[simp] theorem raiseError_inbuf (e : ErrorKind) (info : Nat) : (raiseError e info s).inbuf = s.inbuf := rfl
@[simp] theorem raiseError_keybuf (e : ErrorKind) (info : Nat) : (raiseError e info s).keybuf = s.keybuf := rfl
@[simp] theorem raiseError_outbuf (e : ErrorKind) (info : Nat) : (raiseError e info s).outbuf = s.outbuf := rfl
@[simp] theorem raiseError_phase (e : ErrorKind) (info : Nat) : (raiseError e info s).phase = 0 := rfl
@[simp] theorem raiseError_blk (e : ErrorKind) (info : Nat) : (raiseError e info s).blk = Config.lostNat s.freeCtr 0 := rfl
@[simp] theorem raiseError_rnd (e : ErrorKind) (info : Nat) : (raiseError e info s).rnd = Config.lostNat s.freeCtr 1 := rfl
@[simp] theorem raiseError_dir (e : ErrorKind) (info : Nat) : (raiseError e info s).dir = s.dir := rfl
@[simp] theorem raiseError_l (e : ErrorKind) (info : Nat) : (raiseError e info s).l = Config.lostNat s.freeCtr 2 % 2 ^ s.n := rfl
@[simp] theorem raiseError_r (e : ErrorKind) (info : Nat) : (raiseError e info s).r = Config.lostNat s.freeCtr 3 % 2 ^ s.n := rfl
@[simp] theorem raiseError_bitbuf (e : ErrorKind) (info : Nat) : (raiseError e info s).bitbuf = Config.lostBits s.freeCtr := rfl
@[simp] theorem raiseError_wbuf (e : ErrorKind) (info : Nat) : (raiseError e info s).wbuf = [] := rfl
@[simp] theorem raiseError_wcount (e : ErrorKind) (info : Nat) : (raiseError e info s).wcount = Config.lostNat s.freeCtr 4 := rfl
@[simp] theorem raiseError_bcount (e : ErrorKind) (info : Nat) : (raiseError e info s).bcount = Config.lostNat s.freeCtr 5 := rfl
@[simp] theorem raiseError_rkbuf (e : ErrorKind) (info : Nat) : (raiseError e info s).rkbuf = Config.lostRoundKeys s.freeCtr := rfl
@[simp] theorem raiseError_rkValid (e : ErrorKind) (info : Nat) : (raiseError e info s).rkValid = false := rfl
@[simp] theorem raiseError_events (e : ErrorKind) (info : Nat) : (raiseError e info s).events = s.events := rfl
@[simp] theorem raiseError_pending (e : ErrorKind) (info : Nat) : (raiseError e info s).pending = s.pending := rfl
@[simp] theorem raiseError_rdata (e : ErrorKind) (info : Nat) : (raiseError e info s).rdata = s.rdata := rfl
@[simp] theorem raiseError_freeCtr (e : ErrorKind) (info : Nat) : (raiseError e info s).freeCtr = s.freeCtr + 1 := rfl

/-! ### `completeOk none s` -/

@[simp] theorem completeOk_none_nIn : (completeOk none s).nIn = s.nIn := rfl
@[simp] theorem completeOk_none_mIn : (completeOk none s).mIn = s.mIn := rfl
@[simp] theorem completeOk_none_textPresent : (completeOk none s).textPresent = s.textPresent := rfl
@[simp] theorem completeOk_none_textlen : (completeOk none s).textlen = s.textlen := rfl
@[simp] theorem completeOk_none_keylen : (completeOk none s).keylen = s.keylen := rfl
@[simp] theorem completeOk_none_done : (completeOk none s).done = true := rfl
@[simp] theorem completeOk_none_err : (completeOk none s).err = s.err := rfl
@[simp] theorem completeOk_none_outValid : (completeOk none s).outValid = s.outValid := rfl
@[simp] theorem completeOk_none_cfgValid : (completeOk none s).cfgValid = s.cfgValid := rfl
@[simp] theorem completeOk_none_errcode : (completeOk none s).errcode = s.errcode := rfl
@[simp] theorem completeOk_none_errinfo : (completeOk none s).errinfo = s.errinfo := rfl
@[simp] theorem completeOk_none_n : (completeOk none s).n = s.n := rfl
@[simp] theorem completeOk_none_m : (completeOk none s).m = s.m := rfl
@[simp] theorem completeOk_none_maxWord : (completeOk none s).maxWord = s.maxWord := rfl
@[simp] theorem completeOk_none_maxKey : (completeOk none s).maxKey = s.maxKey := rfl
@[simp] theorem completeOk_none_outlen : (completeOk none s).outlen = s.outlen := rfl
@[simp] theorem completeOk_none_strat : (completeOk none s).strat = s.strat := rfl
@[simp] theorem completeOk_none_inbuf : (completeOk none s).inbuf = s.inbuf := rfl
@[simp] theorem completeOk_none_keybuf : (completeOk none s).keybuf = s.keybuf := rfl
@[simp] theorem completeOk_none_outbuf : (completeOk none s).outbuf = s.outbuf := rfl
@[simp] theorem completeOk_none_phase : (completeOk none s).phase = 0 := rfl
@[simp] theorem completeOk_none_blk : (completeOk none s).blk = Config.lostNat s.freeCtr 0 := rfl
@[simp] theorem completeOk_none_rnd : (completeOk none s).rnd = Config.lostNat s.freeCtr 1 := rfl
@[simp] theorem completeOk_none_dir : (completeOk none s).dir = s.dir := rfl
@[simp] theorem completeOk_none_l : (completeOk none s).l = Config.lostNat s.freeCtr 2 % 2 ^ s.n := rfl
@[simp] theorem completeOk_none_r : (completeOk none s).r = Config.lostNat s.freeCtr 3 % 2 ^ s.n := rfl
@[simp] theorem completeOk_none_bitbuf : (completeOk none s).bitbuf = Config.lostBits s.freeCtr := rfl
@[simp] theorem completeOk_none_wbuf : (completeOk none s).wbuf = [] := rfl
@[simp] theorem completeOk_none_wcount : (completeOk none s).wcount = Config.lostNat s.freeCtr 4 := rfl
@[simp] theorem completeOk_none_bcount : (completeOk none s).bcount = Config.lostNat s.freeCtr 5 := rfl
@[simp] theorem completeOk_none_rkbuf : (completeOk none s).rkbuf = Config.lostRoundKeys s.freeCtr := rfl
@[simp] theorem completeOk_none_rkValid : (completeOk none s).rkValid = false := rfl
@[simp] theorem completeOk_none_events : (completeOk none s).events = s.events := rfl
@[simp] theorem completeOk_none_pending : (completeOk none s).pending = s.pending := rfl
@[simp] theorem completeOk_none_rdata : (completeOk none s).rdata = s.rdata := rfl
@[simp] theorem completeOk_none_freeCtr : (completeOk none s).freeCtr = s.freeCtr + 1 := rfl

/-! ### `completeOk (some len) s` -/

@[simp] theorem completeOk_some_nIn (len : Nat) : (completeOk (some len) s).nIn = s.nIn := rfl
@[simp] theorem completeOk_some_mIn (len : Nat) : (completeOk (some len) s).mIn = s.mIn := rfl
@[simp] theorem completeOk_some_textPresent (len : Nat) : (completeOk (some len) s).textPresent = s.textPresent := rfl
@[simp] theorem completeOk_some_textlen (len : Nat) : (completeOk (some len) s).textlen = s.textlen := rfl
@[simp] theorem completeOk_some_keylen (len : Nat) : (completeOk (some len) s).keylen = s.keylen := rfl
@[simp] theorem completeOk_some_done (len : Nat) : (completeOk (some len) s).done = true := rfl
@[simp] theorem completeOk_some_err (len : Nat) : (completeOk (some len) s).err = s.err := rfl
@[simp] theorem completeOk_some_outValid (len : Nat) : (completeOk (some len) s).outValid = true := rfl
@[simp] theorem completeOk_some_cfgValid (len : Nat) : (completeOk (some len) s).cfgValid = s.cfgValid := rfl
@[simp] theorem completeOk_some_errcode (len : Nat) : (completeOk (some len) s).errcode = s.errcode := rfl
@[simp] theorem completeOk_some_errinfo (len : Nat) : (completeOk (some len) s).errinfo = s.errinfo := rfl
@[simp] theorem completeOk_some_n (len : Nat) : (completeOk (some len) s).n = s.n := rfl
@[simp] theorem completeOk_some_m (len : Nat) : (completeOk (some len) s).m = s.m := rfl
@[simp] theorem completeOk_some_maxWord (len : Nat) : (completeOk (some len) s).maxWord = s.maxWord := rfl
@[simp] theorem completeOk_some_maxKey (len : Nat) : (completeOk (some len) s).maxKey = s.maxKey := rfl
@[simp] theorem completeOk_some_outlen (len : Nat) : (completeOk (some len) s).outlen = len := rfl
@[simp] theorem completeOk_some_strat (len : Nat) : (completeOk (some len) s).strat = s.strat := rfl
@[simp] theorem completeOk_some_inbuf (len : Nat) : (completeOk (some len) s).inbuf = s.inbuf := rfl
@[simp] theorem completeOk_some_keybuf (len : Nat) : (completeOk (some len) s).keybuf = s.keybuf := rfl
@[simp] theorem completeOk_some_outbuf (len : Nat) : (completeOk (some len) s).outbuf = s.outbuf := rfl
@[simp] theorem completeOk_some_phase (len : Nat) : (completeOk (some len) s).phase = 0 := rfl
@[simp] theorem completeOk_some_blk (len : Nat) : (completeOk (some len) s).blk = Config.lostNat s.freeCtr 0 := rfl
@[simp] theorem completeOk_some_rnd (len : Nat) : (completeOk (some len) s).rnd = Config.lostNat s.freeCtr 1 := rfl
@[simp] theorem completeOk_some_dir (len : Nat) : (completeOk (some len) s).dir = s.dir := rfl
@[simp] theorem completeOk_some_l (len : Nat) : (completeOk (some len) s).l = Config.lostNat s.freeCtr 2 % 2 ^ s.n := rfl
@[simp] theorem completeOk_some_r (len : Nat) : (completeOk (some len) s).r = Config.lostNat s.freeCtr 3 % 2 ^ s.n := rfl
@[simp] theorem completeOk_some_bitbuf (len : Nat) : (completeOk (some len) s).bitbuf = Config.lostBits s.freeCtr := rfl
@[simp] theorem completeOk_some_wbuf (len : Nat) : (completeOk (some len) s).wbuf = [] := rfl
@[simp] theorem completeOk_some_wcount (len : Nat) : (completeOk (some len) s).wcount = Config.lostNat s.freeCtr 4 := rfl
@[simp] theorem completeOk_some_bcount (len : Nat) : (completeOk (some len) s).bcount = Config.lostNat s.freeCtr 5 := rfl
@[simp] theorem completeOk_some_rkbuf (len : Nat) : (completeOk (some len) s).rkbuf = Config.lostRoundKeys s.freeCtr := rfl
@[simp] theorem completeOk_some_rkValid (len : Nat) : (completeOk (some len) s).rkValid = false := rfl
@[simp] theorem completeOk_some_events (len : Nat) : (completeOk (some len) s).events = s.events := rfl
@[simp] theorem completeOk_some_pending (len : Nat) : (completeOk (some len) s).pending = s.pending := rfl
@[simp] theorem completeOk_some_rdata (len : Nat) : (completeOk (some len) s).rdata = s.rdata := rfl
@[simp] theorem completeOk_some_freeCtr (len : Nat) : (completeOk (some len) s).freeCtr = s.freeCtr + 1 := rfl

/-! ### `clearConfig s` -/

@[simp] theorem clearConfig_nIn : (clearConfig s).nIn = s.nIn := rfl
@[simp] theorem clearConfig_mIn : (clearConfig s).mIn = s.mIn := rfl
@[simp] theorem clearConfig_textPresent : (clearConfig s).textPresent = s.textPresent := rfl
@[simp] theorem clearConfig_textlen : (clearConfig s).textlen = s.textlen := rfl
@[simp] theorem clearConfig_keylen : (clearConfig s).keylen = s.keylen := rfl
@[simp] theorem clearConfig_done : (clearConfig s).done = s.done := rfl
@[simp] theorem clearConfig_err : (clearConfig s).err = s.err := rfl
@[simp] theorem clearConfig_outValid : (clearConfig s).outValid = s.outValid := rfl
@[simp] theorem clearConfig_cfgValid : (clearConfig s).cfgValid = false := rfl
@[simp] theorem clearConfig_errcode : (clearConfig s).errcode = s.errcode := rfl
@[simp] theorem clearConfig_errinfo : (clearConfig s).errinfo = s.errinfo := rfl
@[simp] theorem clearConfig_n : (clearConfig s).n = 0 := rfl
@[simp] theorem clearConfig_m : (clearConfig s).m = 0 := rfl
@[simp] theorem clearConfig_maxWord : (clearConfig s).maxWord = 0 := rfl
@[simp] theorem clearConfig_maxKey : (clearConfig s).maxKey = 0 := rfl
@[simp] theorem clearConfig_outlen : (clearConfig s).outlen = s.outlen := rfl
@[simp] theorem clearConfig_strat : (clearConfig s).strat = s.strat := rfl
@[simp] theorem clearConfig_inbuf : (clearConfig s).inbuf = s.inbuf := rfl
@[simp] theorem clearConfig_keybuf : (clearConfig s).keybuf = s.keybuf := rfl
@[simp] theorem clearConfig_outbuf : (clearConfig s).outbuf = s.outbuf := rfl
@[simp] theorem clearConfig_phase : (clearConfig s).phase = s.phase := rfl
@[simp] theorem clearConfig_blk : (clearConfig s).blk = s.blk := rfl
@[simp] theorem clearConfig_rnd : (clearConfig s).rnd = s.rnd := rfl
@[simp] theorem clearConfig_dir : (clearConfig s).dir = s.dir := rfl
@[simp] theorem clearConfig_l : (clearConfig s).l = s.l := rfl
@[simp] theorem clearConfig_r : (clearConfig s).r = s.r := rfl
@[simp] theorem clearConfig_bitbuf : (clearConfig s).bitbuf = s.bitbuf := rfl
@[simp] theorem clearConfig_wbuf : (clearConfig s).wbuf = s.wbuf := rfl
@[simp] theorem clearConfig_wcount : (clearConfig s).wcount = s.wcount := rfl
@[simp] theorem clearConfig_bcount : (clearConfig s).bcount = s.bcount := rfl
@[simp] theorem clearConfig_rkbuf : (clearConfig s).rkbuf = s.rkbuf := rfl
@[simp] theorem clearConfig_rkValid : (clearConfig s).rkValid = s.rkValid := rfl
@[simp] theorem clearConfig_events : (clearConfig s).events = s.events := rfl
@[simp] theorem clearConfig_pending : (clearConfig s).pending = s.pending := rfl
@[simp] theorem clearConfig_rdata : (clearConfig s).rdata = s.rdata := rfl
@[simp] theorem clearConfig_freeCtr : (clearConfig s).freeCtr = s.freeCtr := rfl

/-! ### `setConfig n m s` -/

@[simp] theorem setConfig_nIn (n m : Nat) : (setConfig n m s).nIn = s.nIn := rfl
@[simp] theorem setConfig_mIn (n m : Nat) : (setConfig n m s).mIn = s.mIn := rfl
@[simp] theorem setConfig_textPresent (n m : Nat) : (setConfig n m s).textPresent = s.textPresent := rfl
@[simp] theorem setConfig_textlen (n m : Nat) : (setConfig n m s).textlen = s.textlen := rfl
@[simp] theorem setConfig_keylen (n m : Nat) : (setConfig n m s).keylen = s.keylen := rfl
@[simp] theorem setConfig_done (n m : Nat) : (setConfig n m s).done = s.done := rfl
@[simp] theorem setConfig_err (n m : Nat) : (setConfig n m s).err = s.err := rfl
@[simp] theorem setConfig_outValid (n m : Nat) : (setConfig n m s).outValid = s.outValid := rfl
@[simp] theorem setConfig_cfgValid (n m : Nat) : (setConfig n m s).cfgValid = true := rfl
@[simp] theorem setConfig_errcode (n m : Nat) : (setConfig n m s).errcode = s.errcode := rfl
@[simp] theorem setConfig_errinfo (n m : Nat) : (setConfig n m s).errinfo = s.errinfo := rfl
@[simp] theorem setConfig_n (n m : Nat) : (setConfig n m s).n = n := rfl
@[simp] theorem setConfig_m (n m : Nat) : (setConfig n m s).m = m := rfl
@[simp] theorem setConfig_maxWord (n m : Nat) : (setConfig n m s).maxWord = 2 ^ n := rfl
@[simp] theorem setConfig_maxKey (n m : Nat) : (setConfig n m s).maxKey = 2 ^ (m * n) := rfl
@[simp] theorem setConfig_outlen (n m : Nat) : (setConfig n m s).outlen = s.outlen := rfl
@[simp] theorem setConfig_strat (n m : Nat) : (setConfig n m s).strat = s.strat := rfl
@[simp] theorem setConfig_inbuf (n m : Nat) : (setConfig n m s).inbuf = s.inbuf := rfl
@[simp] theorem setConfig_keybuf (n m : Nat) : (setConfig n m s).keybuf = s.keybuf := rfl
@[simp] theorem setConfig_outbuf (n m : Nat) : (setConfig n m s).outbuf = s.outbuf := rfl
@[simp] theorem setConfig_phase (n m : Nat) : (setConfig n m s).phase = s.phase := rfl
@[simp] theorem setConfig_blk (n m : Nat) : (setConfig n m s).blk = s.blk := rfl
@[simp] theorem setConfig_rnd (n m : Nat) : (setConfig n m s).rnd = s.rnd := rfl
@[simp] theorem setConfig_dir (n m : Nat) : (setConfig n m s).dir = s.dir := rfl
@[simp] theorem setConfig_l (n m : Nat) : (setConfig n m s).l = s.l := rfl
@[simp] theorem setConfig_r (n m : Nat) : (setConfig n m s).r = s.r := rfl
@[simp] theorem setConfig_bitbuf (n m : Nat) : (setConfig n m s).bitbuf = s.bitbuf := rfl
@[simp] theorem setConfig_wbuf (n m : Nat) : (setConfig n m s).wbuf = s.wbuf := rfl
@[simp] theorem setConfig_wcount (n m : Nat) : (setConfig n m s).wcount = s.wcount := rfl
@[simp] theorem setConfig_bcount (n m : Nat) : (setConfig n m s).bcount = s.bcount := rfl
@[simp] theorem setConfig_rkbuf (n m : Nat) : (setConfig n m s).rkbuf = s.rkbuf := rfl
@[simp] theorem setConfig_rkValid (n m : Nat) : (setConfig n m s).rkValid = s.rkValid := rfl
@[simp] theorem setConfig_events (n m : Nat) : (setConfig n m s).events = s.events := rfl
@[simp] theorem setConfig_pending (n m : Nat) : (setConfig n m s).pending = s.pending := rfl
@[simp] theorem setConfig_rdata (n m : Nat) : (setConfig n m s).rdata = s.rdata := rfl
@[simp] theorem setConfig_freeCtr (n m : Nat) : (setConfig n m s).freeCtr = s.freeCtr := rfl

/-! ### `enterText d s` -/

@[simp] theorem enterText_nIn (d : Dir) : (enterText d s).nIn = s.nIn := rfl
@[simp] theorem enterText_mIn (d : Dir) : (enterText d s).mIn = s.mIn := rfl
@[simp] theorem enterText_textPresent (d : Dir) : (enterText d s).textPresent = s.textPresent := rfl
@[simp] theorem enterText_textlen (d : Dir) : (enterText d s).textlen = s.textlen := rfl
@[simp] theorem enterText_keylen (d : Dir) : (enterText d s).keylen = s.keylen := rfl
@[simp] theorem enterText_done (d : Dir) : (enterText d s).done = false := rfl
@[simp] theorem enterText_err (d : Dir) : (enterText d s).err = false := rfl
@[simp] theorem enterText_outValid (d : Dir) : (enterText d s).outValid = false := rfl
@[simp] theorem enterText_cfgValid (d : Dir) : (enterText d s).cfgValid = s.cfgValid := rfl
@[simp] theorem enterText_errcode (d : Dir) : (enterText d s).errcode = 0 := rfl
@[simp] theorem enterText_errinfo (d : Dir) : (enterText d s).errinfo = 0 := rfl
@[simp] theorem enterText_n (d : Dir) : (enterText d s).n = s.n := rfl
@[simp] theorem enterText_m (d : Dir) : (enterText d s).m = s.m := rfl
@[simp] theorem enterText_maxWord (d : Dir) : (enterText d s).maxWord = s.maxWord := rfl
@[simp] theorem enterText_maxKey (d : Dir) : (enterText d s).maxKey = s.maxKey := rfl
@[simp] theorem enterText_outlen (d : Dir) : (enterText d s).outlen = 0 := rfl
@[simp] theorem enterText_strat (d : Dir) : (enterText d s).strat = s.strat := rfl
@[simp] theorem enterText_inbuf (d : Dir) : (enterText d s).inbuf = s.inbuf := rfl
@[simp] theorem enterText_keybuf (d : Dir) : (enterText d s).keybuf = s.keybuf := rfl
@[simp] theorem enterText_outbuf (d : Dir) : (enterText d s).outbuf = s.outbuf := rfl
@[simp] theorem enterText_phase (d : Dir) : (enterText d s).phase = 1 := rfl
@[simp] theorem enterText_blk (d : Dir) : (enterText d s).blk = s.blk := rfl
@[simp] theorem enterText_rnd (d : Dir) : (enterText d s).rnd = s.rnd := rfl
@[simp] theorem enterText_dir (d : Dir) : (enterText d s).dir = d := rfl
@[simp] theorem enterText_l (d : Dir) : (enterText d s).l = s.l := rfl
@[simp] theorem enterText_r (d : Dir) : (enterText d s).r = s.r := rfl
@[simp] theorem enterText_bitbuf (d : Dir) : (enterText d s).bitbuf = s.bitbuf := rfl
@[simp] theorem enterText_wbuf (d : Dir) : (enterText d s).wbuf = s.wbuf := rfl
@[simp] theorem enterText_wcount (d : Dir) : (enterText d s).wcount = s.wcount := rfl
@[simp] theorem enterText_bcount (d : Dir) : (enterText d s).bcount = s.bcount := rfl
@[simp] theorem enterText_rkbuf (d : Dir) : (enterText d s).rkbuf = s.rkbuf := rfl
@[simp] theorem enterText_rkValid (d : Dir) : (enterText d s).rkValid = false := rfl
@[simp] theorem enterText_events (d : Dir) : (enterText d s).events = [] := rfl
@[simp] theorem enterText_pending (d : Dir) : (enterText d s).pending = s.pending := rfl
@[simp] theorem enterText_rdata (d : Dir) : (enterText d s).rdata = s.rdata := rfl
@[simp] theorem enterText_freeCtr (d : Dir) : (enterText d s).freeCtr = s.freeCtr := rfl

end Sys2Proof.Machine
end

