-- ==== Sys2Proof/Laws/Sequencer.lean ====
section
/-!
SUPPORT. What the shared operations of a command do: sequencing (43_facade.md R163), the key scan
(40_config_and_key.md R93), the block loop (41_round_engine.md R115).
-/
namespace Sys2Proof.Machine

/-! ### Sequencing -/

theorem andThen_running {s : State} (f : State → Result) (h : s.phase ≠ 0) :
    andThen (.next s) f = f s := if_neg h

theorem andThen_over {s : State} (f : State → Result) (h : s.phase = 0) :
    andThen (.next s) f = .next s := if_pos h

@[simp] theorem andThen_refused (x : Refusal) (f : State → Result) :
    andThen (.refused x) f = .refused x := rfl

/-- When a sequence answers a next state, the first part did, and either the command was over or the
rest answered it. -/
theorem andThen_eq_next {first : Result} {f : State → Result} {t : State}
    (h : andThen first f = .next t) :
    ∃ s, first = .next s ∧ ((s.phase = 0 ∧ t = s) ∨ (s.phase ≠ 0 ∧ f s = .next t)) := by
  cases first with
  | next s =>
    by_cases hp : s.phase = 0
    · rw [andThen_over f hp] at h; cases h; exact ⟨_, rfl, .inl ⟨hp, rfl⟩⟩
    · rw [andThen_running f hp] at h; exact ⟨s, rfl, .inr ⟨hp, h⟩⟩
  | fault x => cases x
  | refused x => cases h

@[simp] theorem andThen_raise (e : ErrorKind) (info : Nat) (s : State) (f : State → Result) :
    andThen (.next (raiseError e info s)) f = .next (raiseError e info s) := rfl

/-- R40: two states that differ in hidden registers only lose them to the same state. -/
theorem loseHidden_congr {s t : State}
    (h : { s with blk := 0, rnd := 0, l := 0, r := 0, wcount := 0, bcount := 0, bitbuf := [],
                  rkbuf := [], wbuf := [] } =
         { t with blk := 0, rnd := 0, l := 0, r := 0, wcount := 0, bcount := 0, bitbuf := [],
                  rkbuf := [], wbuf := [] }) :
    loseHidden s = loseHidden t := by
  cases s; cases t
  simp only [State.mk.injEq] at h
  simp [loseHidden, h]

/-! ### The key scan -/

/-- A key element the scan accepts (R93, conflict C1): `0 ≤ k < MAX_WORD`. -/
theorem keyInRange_iff (n : Nat) (k : Int) :
    keyInRange n k = true ↔ ¬ (k < 0 ∨ ((2 ^ n : Nat) : Int) ≤ k) := by
  simp [keyInRange]

/-- What the scan finds on a written key: the lowest index out of range, if any. -/
theorem scanKey_eq (b : Buf Int) (n start : Nat) (key : KeySeq)
    (h : readSeq b start key.length = .ok key) :
    scanKey b (2 ^ n) start key.length =
      match key.findIdx? (fun k => !keyInRange n k) with
      | some i => .outOfRange (start + i)
      | none => .allInRange := by
  induction key generalizing start with
  | nil => rfl
  | cons k key ih =>
    rw [List.length_cons, readSeq] at h
    split at h
    · cases h
    · next v hv =>
      split at h
      · next vs hvs =>
        cases h
        rw [List.length_cons, scanKey, hv]
        by_cases hk : keyInRange n k = true
        · have hn : ¬ (k < 0 ∨ ((2 ^ n : Nat) : Int) ≤ k) := (keyInRange_iff n k).1 hk
          simp only [if_neg hn, ih (start + 1) hvs]
          rw [List.findIdx?_cons]
          simp only [hk, Bool.not_true]
          cases hf : List.findIdx? (fun k => !keyInRange n k) key with
          | none => simp
          | some i => simp; omega
        · have hn : k < 0 ∨ ((2 ^ n : Nat) : Int) ≤ k := by
            by_contra hc; exact hk ((keyInRange_iff n k).2 hc)
          simp only [if_pos hn]
          rw [List.findIdx?_cons]
          simp [hk]
      · cases h

/-- R93 by elements: the scan passes exactly when every element is written and in range. -/
theorem scanKey_eq_allInRange {b : Buf Int} {mw start count : Nat} :
    scanKey b mw start count = .allInRange ↔
      ∀ j, j < count → ∃ x, readBuf b (start + j) = some x ∧ 0 ≤ x ∧ x < (mw : Int) := by
  induction count generalizing start with
  | zero => simp [scanKey]
  | succ count ih =>
    have shift : (∀ j, j < count + 1 → ∃ x, readBuf b (start + j) = some x ∧ 0 ≤ x ∧ x < (mw : Int)) ↔
        (∃ x, readBuf b start = some x ∧ 0 ≤ x ∧ x < (mw : Int)) ∧
        ∀ j, j < count → ∃ x, readBuf b (start + 1 + j) = some x ∧ 0 ≤ x ∧ x < (mw : Int) := by
      constructor
      · intro h
        refine ⟨by simpa using h 0 (by omega), fun j hj => ?_⟩
        have := h (j + 1) (by omega)
        rwa [show start + (j + 1) = start + 1 + j by omega] at this
      · rintro ⟨h0, h⟩ j hj
        cases j with
        | zero => simpa using h0
        | succ j =>
          rw [show start + (j + 1) = start + 1 + j by omega]
          exact h j (by omega)
    rw [shift, ← ih, scanKey]
    cases hr : readBuf b start with
    | none => simp
    | some k =>
      by_cases hk : k < 0 ∨ (mw : Int) ≤ k
      · simp only [if_pos hk, reduceCtorEq, Option.some.injEq, exists_eq_left', false_iff]
        omega
      · simp only [if_neg hk, Option.some.injEq, exists_eq_left']
        exact ⟨fun h => ⟨by omega, h⟩, fun h => h.2⟩

/-- R93 by elements: where the scan stops, given that the elements before are in range. -/
theorem scanKey_stops {b : Buf Int} {mw start count : Nat} (i : Nat) (hi : i < count)
    (hpre : ∀ j, j < i → ∃ x, readBuf b (start + j) = some x ∧ 0 ≤ x ∧ x < (mw : Int)) :
    (∀ k, readBuf b (start + i) = some k → (k < 0 ∨ (mw : Int) ≤ k) →
      scanKey b mw start count = .outOfRange (start + i)) ∧
    (readBuf b (start + i) = none → scanKey b mw start count = .unwritten (start + i)) := by
  induction i generalizing start count with
  | zero =>
    obtain ⟨c, rfl⟩ := Nat.exists_eq_succ_of_ne_zero (Nat.ne_of_gt hi)
    refine ⟨fun k hk hbad => ?_, fun h => ?_⟩
    · rw [Nat.add_zero] at hk
      rw [scanKey, hk]
      simp only [if_pos hbad, Nat.add_zero]
    · rw [Nat.add_zero] at h
      rw [scanKey, h]; rfl
  | succ i ih =>
    obtain ⟨c, rfl⟩ := Nat.exists_eq_succ_of_ne_zero (Nat.ne_of_gt (Nat.lt_of_le_of_lt (Nat.zero_le _) hi))
    obtain ⟨x, hx, hx0, hx1⟩ := hpre 0 (by omega)
    rw [Nat.add_zero] at hx
    have hgood : ¬ (x < 0 ∨ (mw : Int) ≤ x) := by omega
    have e : start + (i + 1) = start + 1 + i := by omega
    rw [scanKey, hx, e]
    simp only [if_neg hgood]
    refine ih (by omega) fun j hj => ?_
    have := hpre (j + 1) (by omega)
    rwa [show start + (j + 1) = start + 1 + j by omega] at this

/-! ### The block transform -/

theorem ofBlock_lt {n : Nat} (b : Block n) : (ofBlock b).1 < 2 ^ n ∧ (ofBlock b).2 < 2 ^ n :=
  ⟨b.1.isLt, b.2.isLt⟩

/-- Whatever the strategy, a transformed block is two words in `[0, 2^N)`. -/
theorem dirBlock_lt (S : Strategy) (d : Dir) (n m : Nat) (rk : S.RK) (b : Nat × Nat) :
    (dirBlock S d n m rk b).1 < 2 ^ n ∧ (dirBlock S d n m rk b).2 < 2 ^ n := by
  cases d <;> exact ofBlock_lt _

theorem toBlock_ofBlock {n : Nat} (b : Block n) : toBlock n (ofBlock b) = b := by
  simp [toBlock, ofBlock]

theorem ofBlock_toBlock {n : Nat} {b : Nat × Nat} (h1 : b.1 < 2 ^ n) (h2 : b.2 < 2 ^ n) :
    ofBlock (toBlock n b) = b := by
  simp [toBlock, ofBlock, Nat.mod_eq_of_lt h1, Nat.mod_eq_of_lt h2]

/-- R112 on register values: for a strategy that inverts, decryption undoes encryption. -/
theorem decBlock_encBlock {S : Strategy} {n m : Nat} (hS : S.Inverts n m) (rk : S.RK)
    {b : Nat × Nat} (h1 : b.1 < 2 ^ n) (h2 : b.2 < 2 ^ n) :
    decBlock S n m rk (encBlock S n m rk b) = b := by
  rw [decBlock, encBlock, toBlock_ofBlock, hS, ofBlock_toBlock h1 h2]

theorem blockFault_eq_none {s : State} (hl : s.l < 2 ^ s.n) (hr : s.r < 2 ^ s.n) :
    blockFault s = none := by
  rw [blockFault, if_neg (by omega), if_neg (by omega)]

/-- The strategy event of a direction (R115). -/
def dirEvent (d : Dir) (blk : Nat) : StratEvent :=
  match d with
  | .enc => .eb blk
  | .dec => .db blk

/-- The value of `RND` after a block transform in a direction. -/
def dirRnd (S : Strategy) (d : Dir) (rk : S.RK) : Nat :=
  match d with
  | .enc => S.transform.rndAfterEnc rk
  | .dec => S.transform.rndAfterDec rk

/-- R115: one pass of the block loop on a block that WBUF holds, its words in range. -/
theorem blockPass_eq (S : Strategy) (d : Dir) (s : State) (b : Nat × Nat) (hd : s.dir = d)
    (hp : dirPresent d s = true) (h0 : readBuf s.wbuf (2 * s.blk) = some b.1)
    (h1 : readBuf s.wbuf (2 * s.blk + 1) = some b.2) (hl : b.1 < 2 ^ s.n) (hr : b.2 < 2 ^ s.n) :
    blockPass S d s = .next
      { s with
        l := (dirBlock S d s.n s.m (S.load s.rkbuf) b).1
        r := (dirBlock S d s.n s.m (S.load s.rkbuf) b).2
        rnd := dirRnd S d (S.load s.rkbuf)
        events := s.events ++ [dirEvent d s.blk]
        wbuf := writeBuf (writeBuf s.wbuf (2 * s.blk) (dirBlock S d s.n s.m (S.load s.rkbuf) b).1)
          (2 * s.blk + 1) (dirBlock S d s.n s.m (S.load s.rkbuf) b).2
        blk := if s.blk + 1 < s.bcount then s.blk + 1 else s.blk
        phase := if s.blk + 1 < s.bcount then 8 else 12 } := by
  have hw0 : readWord s (2 * s.blk) = b.1 := by simp [readWord, h0]
  have hw1 : readWord s (2 * s.blk + 1) = b.2 := by simp [readWord, h1]
  cases d with
  | enc =>
    have hp' : ebPresent s = true := hp
    rw [blockPass, execPairBlocks, andThen_running _ (by simp [hd])]
    simp only [encryptBlockWith, hw0, hw1, hd]
    rw [if_pos (by simpa [ebPresent] using hp'), blockFault_eq_none (by simpa using hl) (by simpa using hr)]
    rw [andThen_running _ (by simp), execFlatten]
    by_cases hb : s.blk + 1 < s.bcount <;>
      simp [hb, toPhase, dirBlock, dirRnd, dirEvent]
  | dec =>
    have hp' : dbPresent s = true := hp
    rw [blockPass, execPairBlocks, andThen_running _ (by simp [hd])]
    simp only [decryptBlockWith, hw0, hw1, hd]
    rw [if_pos (by simpa [dbPresent] using hp'), blockFault_eq_none (by simpa using hl) (by simpa using hr)]
    rw [andThen_running _ (by simp), execFlatten]
    by_cases hb : s.blk + 1 < s.bcount <;>
      simp [hb, toPhase, dirBlock, dirRnd, dirEvent]

/-- R186: one pass when the block function is absent raises, with nothing transformed. -/
theorem blockPass_absent (S : Strategy) (d : Dir) (s : State) (hd : s.dir = d)
    (hp : dirPresent d s = false) :
    ∃ l r, blockPass S d s = .next (raiseError .notImplemented (dirInfo d)
      { s with l := l, r := r, phase := match d with | .enc => 9 | .dec => 10 }) := by
  refine ⟨readWord s (2 * s.blk), readWord s (2 * s.blk + 1), ?_⟩
  cases d with
  | enc =>
    have hp' : ebPresent s = false := hp
    rw [blockPass, execPairBlocks, andThen_running _ (by simp [hd])]
    simp only [encryptBlockWith, hd]
    rw [if_neg (by simpa [ebPresent] using hp')]
    simp [dirInfo, toPhase]
  | dec =>
    have hp' : dbPresent s = false := hp
    rw [blockPass, execPairBlocks, andThen_running _ (by simp [hd])]
    simp only [decryptBlockWith, hd]
    rw [if_neg (by simpa [dbPresent] using hp')]
    simp [dirInfo, toPhase]

/-- R115: the block loop, from block `BLK` to the last. Every block is transformed once, in index
order, with the same round keys, and written back where it came from; the elements of WBUF outside
are as before. -/
theorem blockLoop_eq (S : Strategy) (d : Dir) (bs : List (Nat × Nat)) (s : State)
    (hd : s.dir = d) (hp : dirPresent d s = true) (hne : bs ≠ [])
    (hcount : s.blk + bs.length = s.bcount)
    (hread : ∀ i b, bs[i]? = some b →
      readBuf s.wbuf (2 * (s.blk + i)) = some b.1 ∧
      readBuf s.wbuf (2 * (s.blk + i) + 1) = some b.2)
    (hlt : ∀ b ∈ bs, b.1 < 2 ^ s.n ∧ b.2 < 2 ^ s.n) :
    ∃ l r rnd blk wbuf,
      blockLoop S d bs.length s = .next
        { s with
          l := l, r := r, rnd := rnd, blk := blk, wbuf := wbuf, phase := 12
          events := s.events ++ (List.range bs.length).map fun i => dirEvent d (s.blk + i) } ∧
      ∀ k, readBuf wbuf k =
        if 2 * s.blk ≤ k ∧ k < 2 * s.bcount then
          (flatten (bs.map (dirBlock S d s.n s.m (S.load s.rkbuf))))[k - 2 * s.blk]?
        else readBuf s.wbuf k := by
  induction bs generalizing s with
  | nil => exact absurd rfl hne
  | cons b bs ih =>
    obtain ⟨h0, h1⟩ := hread 0 b rfl
    obtain ⟨hl, hr⟩ := hlt b (by simp)
    have hpass := blockPass_eq S d s b hd hp (by simpa using h0) (by simpa using h1) hl hr
    simp only [List.length_cons] at hcount
    rw [List.length_cons, blockLoop, hpass, andThen_running _ (by
      dsimp only; split <;> decide)]
    generalize hb' : dirBlock S d s.n s.m (S.load s.rkbuf) b = b'
    by_cases hlast : bs = []
    · subst hlast
      have hb : ¬ s.blk + 1 < s.bcount := by simp at hcount; omega
      refine ⟨b'.1, b'.2, dirRnd S d (S.load s.rkbuf), s.blk,
        writeBuf (writeBuf s.wbuf (2 * s.blk) b'.1) (2 * s.blk + 1) b'.2, ?_, ?_⟩
      · simp only [hb, if_false, List.length_nil, blockLoop]
        simp [List.range_succ]
      · intro k
        rw [readBuf_writeBuf, readBuf_writeBuf]
        have hbc : s.bcount = s.blk + 1 := by simp at hcount; omega
        by_cases hk0 : k = 2 * s.blk
        · subst hk0
          rw [if_neg (by omega), if_pos rfl, if_pos (by omega)]
          simp [hb']
        · by_cases hk1 : k = 2 * s.blk + 1
          · subst hk1
            rw [if_pos rfl, if_pos (by omega)]
            simp [hb']
          · rw [if_neg hk1, if_neg hk0, if_neg (by omega)]
    · have hb : s.blk + 1 < s.bcount := by
        have := List.length_pos_iff.2 hlast; omega
      simp only [hb, if_true]
      obtain ⟨l, r, rnd, blk, wbuf, heq, hmem⟩ := ih
        { s with
          l := b'.1, r := b'.2, rnd := dirRnd S d (S.load s.rkbuf)
          events := s.events ++ [dirEvent d s.blk]
          wbuf := writeBuf (writeBuf s.wbuf (2 * s.blk) b'.1) (2 * s.blk + 1) b'.2
          blk := s.blk + 1, phase := 8 } hd
        (by cases d <;> exact hp) hlast (by dsimp only; omega)
        (by
          intro i c hc
          have := hread (i + 1) c (by simpa using hc)
          have e : s.blk + 1 + i = s.blk + (i + 1) := by omega
          dsimp only
          rw [readBuf_writeBuf_other _ _ (by omega), readBuf_writeBuf_other _ _ (by omega),
            readBuf_writeBuf_other _ _ (by omega), readBuf_writeBuf_other _ _ (by omega), e]
          exact this)
        (fun c hc => hlt c (by simp [hc]))
      refine ⟨l, r, rnd, blk, wbuf, ?_, ?_⟩
      · rw [heq]
        have e : (List.range (bs.length + 1)).map (fun i => dirEvent d (s.blk + i)) =
            dirEvent d s.blk :: (List.range bs.length).map fun i => dirEvent d (s.blk + 1 + i) := by
          rw [List.range_succ_eq_map]
          simp only [List.map_cons, List.map_map]
          congr 1
          apply List.map_congr_left
          intro i _
          show dirEvent d (s.blk + (i + 1)) = _
          congr 1; omega
        simp [e]
      · intro k
        rw [hmem k]
        dsimp only
        by_cases hk : 2 * (s.blk + 1) ≤ k ∧ k < 2 * s.bcount
        · have e : k - 2 * s.blk = k - 2 * (s.blk + 1) + 1 + 1 := by omega
          rw [if_pos hk, if_pos (by omega), List.map_cons, flatten_cons, e]
          simp
        · rw [if_neg hk, readBuf_writeBuf, readBuf_writeBuf]
          by_cases hk0 : k = 2 * s.blk
          · subst hk0
            rw [if_neg (by omega), if_pos rfl, if_pos (by omega)]
            simp [hb']
          · by_cases hk1 : k = 2 * s.blk + 1
            · subst hk1
              rw [if_pos rfl, if_pos (by omega)]
              simp [hb']
            · rw [if_neg hk1, if_neg hk0, if_neg (by omega)]

end Sys2Proof.Machine
end

