-- ==== Sys2Proof/Laws/TextCommand.lean ====
section
/-!
SUPPORT. What a text command does, from start to end (43_facade.md R161, R162): with the host's duties
kept it either raises the first error of 60_exceptions.md R188 or completes with the value of the
function of R161.
-/
namespace Sys2Proof.Machine

/-- The state CHECK_INPUT hands on is the one it was given, at the next phase. -/
theorem checkInput_passes {s : State} (hv : s.cfgValid = true) (ht : s.textPresent = true)
    (hn : 1 ≤ s.n) (ha : (8 * s.textlen) % s.n = 0) : execCheckInput s = .next (toPhase 2 s) := by
  have hm : modN (alpha * s.textlen) s.n = 0 := by
    rw [modN, if_neg (by omega)]; exact ha
  simp [execCheckInput, hv, ht, hm]

/-- R143: with the input aligned, the bits split into whole words. -/
theorem wordCount_mul {len n : Nat} (ha : (8 * len) % n = 0) : (8 * len / n) * n = 8 * len :=
  Nat.div_mul_cancel (Nat.dvd_of_mod_eq_zero ha)

/-- R144: after CHECK_INPUT the reassembled length is a multiple of 8. -/
theorem aligned_after_padding {len n : Nat} (ha : (8 * len) % n = 0) :
    (n * (8 * len / n + (8 * len / n) % 2)) % 8 = 0 := by
  have hw := wordCount_mul ha
  generalize hW : 8 * len / n = W at *
  rcases Nat.mod_two_eq_zero_or_one W with h | h
  · rw [h, Nat.add_zero, mul_comm, hw]; omega
  · have hcop : Nat.Coprime 8 W := by
      have : Nat.Coprime 2 W := by
        rw [Nat.coprime_two_left, Nat.odd_iff]; exact h
      simpa using Nat.Coprime.pow_left 3 this
    have h8 : 8 ∣ n := hcop.dvd_of_dvd_mul_left ⟨len, hw⟩
    exact Nat.mod_eq_zero_of_dvd (h8.mul_right _)

/-- The words of a text as PARSE_WORDS and PAD_EVEN leave them. -/
def textWords (n : Nat) (t : List Byte) : List Nat :=
  padEven (bitWords (textToBits t) n (8 * t.length / n))

/-- The blocks of those words. -/
def textBlocks (n : Nat) (t : List Byte) : List (Nat × Nat) := pairBlocks (textWords n t)

/-- R140 on a text of whole words. -/
theorem textToBlocks_eq {n : Nat} (hn : 0 < n) {t : List Byte} (ha : (8 * t.length) % n = 0) :
    textToBlocks n t = some (textBlocks n t) := by
  rw [textToBlocks, parseWords_chop hn _ (by simpa using ha), textBlocks, textWords,
    textToBits_length]
  rfl

/-- R133: a text that is no whole number of words has no blocks. -/
theorem textToBlocks_eq_none {n : Nat} (hn : 0 < n) {t : List Byte} (ha : (8 * t.length) % n ≠ 0) :
    textToBlocks n t = none := by
  rw [textToBlocks, parseWords_chop_short hn _ (by simpa using ha)]
  rfl

theorem textWords_lt {n : Nat} {t : List Byte} {w : Nat} (h : w ∈ textWords n t) :
    w < 2 ^ n := by
  rcases mem_padEven h with h | h
  · exact bitWords_lt h
  · subst h; positivity

@[simp] theorem textWords_length (n : Nat) (t : List Byte) :
    (textWords n t).length = 8 * t.length / n + (8 * t.length / n) % 2 := by
  simp [textWords]

theorem textWords_eq_flatten (n : Nat) (t : List Byte) :
    textWords n t = flatten (textBlocks n t) := by
  rw [textBlocks, flatten_pairBlocks]
  exact padEven_even _

theorem textBlocks_length (n : Nat) (t : List Byte) :
    2 * (textBlocks n t).length = (textWords n t).length := by
  rw [textWords_eq_flatten, flatten_length]

/-- R167: a text has a block exactly when it has a character. -/
theorem textBlocks_eq_nil_iff {n : Nat} {t : List Byte}
    (ha : (8 * t.length) % n = 0) : textBlocks n t = [] ↔ t = [] := by
  have hl := textBlocks_length n t
  have hw := wordCount_mul ha
  rw [textWords_length] at hl
  rw [← List.length_eq_zero_iff, ← List.length_eq_zero_iff]
  generalize hW : 8 * t.length / n = W at *
  constructor
  · intro h
    have h0 : W = 0 := by omega
    rw [h0] at hw; omega
  · intro h
    have h0 : W = 0 := by rw [← hW, h]; simp
    omega

theorem mem_flatten {bs : List (Nat × Nat)} {w : Nat} (h : w ∈ flatten bs) :
    ∃ b ∈ bs, w = b.1 ∨ w = b.2 := by
  simpa [flatten] using h

/-- R144: inside a command the reassembly never misaligns, whatever the block function. -/
theorem textFunction_ok (S : Strategy) (d : Dir) {n m : Nat} (hn : 0 < n) {t : List Byte}
    (key : KeySeq) (ha : (8 * t.length) % n = 0) :
    textFunction S d n m t key = some (.ok (bitsToText (wordsToBits n
      (flatten ((textBlocks n t).map (dirBlock S d n m (S.ek n m key))))))) := by
  have hl := textBlocks_length n t
  rw [textFunction, textToBlocks_eq hn ha, Option.map_some, blocksToText, wordsToText, if_pos]
  rw [wordsToBits_length, flatten_length, List.length_map, hl, textWords_length]
  exact aligned_after_padding ha

/-- R169, R93, R94: the state after EXPAND_KEY, when the input and the key pass. -/
def expandedState (S : Strategy) (d : Dir) (s : State) (key : KeySeq) : State :=
  { enterText d s with
    rkbuf := S.store (S.ek s.n s.m key), rkValid := true, events := [.ek], phase := 4 }

/-- The sequence of a text command after EXPAND_KEY (R161). -/
def afterExpand (S : Strategy) (d : Dir) (s3 : State) : Result :=
  andThen (execTextToBits s3) fun s4 =>
  andThen (execChopN s4) fun s5 =>
  andThen (execParseWords s5) fun s6 =>
  andThen (execPadEven s6) fun s7 =>
  andThen (blockLoop S d s7.bcount s7) fun s8 =>
  andThen (execEnsureNBits s8) fun s9 =>
  andThen (execAlignCheck s9) execBitsToText

theorem textCommandWith_def (S : Strategy) (d : Dir) (s : State) :
    textCommandWith S d s =
      andThen (execCheckInput (enterText d s)) fun s1 =>
      andThen (execValidateKey s1) fun s2 =>
      andThen (expandKeyWith S s2) (afterExpand S d) := rfl

/-- CHECK_INPUT, VALIDATE_KEY and EXPAND_KEY pass. -/
theorem textCommandWith_expanded (S : Strategy) (d : Dir) {s : State} {t : List Byte} {key : KeySeq}
    (hv : s.cfgValid = true) (hp : s.textPresent = true) (hn : 1 ≤ s.n)
    (hmax : s.maxWord = 2 ^ s.n) (ht : hostText s = .ok t) (ha : (8 * t.length) % s.n = 0)
    (hk : hostKey s = .ok key) (hlen : key.length = s.m)
    (hscan : key.findIdx? (fun k => !keyInRange s.n k) = none) (hek : ekPresent s = true) :
    textCommandWith S d s = afterExpand S d (expandedState S d s key) := by
  have htl : t.length = s.textlen := readSeq_length ht
  have hkl : key.length = s.keylen := readSeq_length hk
  have hscan' : scanKey s.keybuf s.maxWord 0 s.m = .allInRange := by
    rw [hmax, ← hlen, scanKey_eq s.keybuf s.n 0 key (hkl ▸ hk), hscan]
  have hk' : readSeq s.keybuf 0 s.m = .ok key := by rw [← hlen, hkl]; exact hk
  have hek' : ekPresent (toPhase 3 (toPhase 2 (enterText d s))) = true := hek
  have hvk : execValidateKey (toPhase 2 (enterText d s)) =
      .next (toPhase 3 (toPhase 2 (enterText d s))) := by
    rw [execValidateKey, if_neg (by simp; omega)]
    simp [hscan']
  have hck : execCheckInput (enterText d s) = .next (toPhase 2 (enterText d s)) :=
    checkInput_passes hv hp hn (by
      simp only [enterText_textlen, enterText_n, ← htl]; exact ha)
  rw [textCommandWith_def, hck, andThen_running _ (by simp), hvk, andThen_running _ (by simp),
    expandKeyWith, if_pos hek']
  simp only [toPhase_keybuf, toPhase_m, enterText_keybuf, enterText_m, hk']
  rw [andThen_running _ (by simp)]
  rfl

/-- TEXT_TO_BITS, CHOP_N, PARSE_WORDS and PAD_EVEN: WBUF holds the padded words of the text. -/
theorem afterExpand_padded (S : Strategy) (d : Dir) {s : State} {t : List Byte} (hn : 1 ≤ s.n)
    (ht : hostText s = .ok t) (ha : (8 * t.length) % s.n = 0) :
    ∃ wbuf bits blk,
      afterExpand S d s =
        (andThen (blockLoop S d ((textBlocks s.n t).length)
          { s with
            bitbuf := bits, wbuf := wbuf, wcount := (textWords s.n t).length
            bcount := (textBlocks s.n t).length, blk := blk
            phase := if 0 < (textBlocks s.n t).length then 8 else 12 }) fun s8 =>
          andThen (execEnsureNBits s8) fun s9 =>
          andThen (execAlignCheck s9) execBitsToText) ∧
      (0 < (textBlocks s.n t).length → blk = 0) ∧
      ∀ k, k < (textWords s.n t).length → readBuf wbuf k = (textWords s.n t)[k]? := by
  have hb := textBlocks_length s.n t
  have hwm := wordCount_mul ha
  have ht' : readSeq s.inbuf 0 s.textlen = .ok t := ht
  set W := 8 * t.length / s.n with hW
  set ws0 := bitWords (textToBits t) s.n W with hws0
  have hdiv : divN (textToBits t).length s.n = W := by
    rw [divN, if_neg (by omega), textToBits_length]
  have hlen0 : ws0.length = W := by simp [hws0]
  have htw : textWords s.n t = padEven ws0 := rfl
  have htwl : (textWords s.n t).length = W + W % 2 := textWords_length s.n t
  rw [afterExpand, execTextToBits, ht', andThen_running _ (by simp)]
  simp only [execChopN, toPhase_bitbuf, toPhase_n, hdiv]
  rw [andThen_running _ (by simp), execParseWords, if_pos (by
    simp only [toPhase_wcount, toPhase_n, toPhase_bitbuf, textToBits_length]; omega)]
  rw [andThen_running _ (by simp), execPadEven]
  simp only [toPhase_bitbuf, toPhase_n, toPhase_wcount, toPhase_wbuf, ← hws0]
  rcases Nat.mod_two_eq_zero_or_one W with he | ho
  · have hbc : W / 2 = (textBlocks s.n t).length := by omega
    refine ⟨writeSeq s.wbuf 0 ws0, textToBits t,
      if 0 < (textBlocks s.n t).length then 0 else s.blk, ?_, ?_, ?_⟩
    · by_cases h0 : 0 < (textBlocks s.n t).length
      · simp [padWords, he, hbc, h0, toPhase, htwl, andThen]
      · simp [padWords, he, hbc, h0, toPhase, htwl, andThen]
    · intro h; simp [h]
    · intro k hk
      rw [readBuf_writeSeq, if_pos (by omega), htw, padEven, if_neg (by omega)]
      simp
  · have hbc : (W + 1) / 2 = (textBlocks s.n t).length := by omega
    have h0 : 0 < (textBlocks s.n t).length := by omega
    refine ⟨writeBuf (writeSeq s.wbuf 0 ws0) W 0, textToBits t, 0, ?_, fun _ => rfl, ?_⟩
    · simp [padWords, ho, hbc, h0, toPhase, htwl, andThen]
    · intro k hk
      rw [readBuf_writeBuf, htw, padEven, hlen0, if_pos (c := W % 2 = 1) ho]
      by_cases hkW : k = W
      · subst hkW; simp [hlen0]
      · rw [if_neg hkW, readBuf_writeSeq, if_pos (by omega), List.getElem?_append_left (by omega)]
        simp

/-- ENSURE_N_BITS, ALIGN_CHECK and BITS_TO_TEXT on words in range that reassemble to whole bytes. -/
theorem reassembly {s : State} {n : Nat} {ws : List Nat} (hn : s.n = n) (hph : s.phase = 12) (hcount : s.wcount = ws.length)
    (hread : ∀ k, k < ws.length → readBuf s.wbuf k = ws[k]?) (hlt : ∀ w ∈ ws, w < 2 ^ n)
    (ha : (n * ws.length) % 8 = 0) :
    (andThen (.next s) fun s8 =>
      andThen (execEnsureNBits s8) fun s9 => andThen (execAlignCheck s9) execBitsToText) =
    .next (completeOk (some (bitsToText (wordsToBits n ws)).length)
      { s with outbuf := writeSeq s.outbuf 0 (bitsToText (wordsToBits n ws)) }) := by
  subst hn
  have hst : storedWords s = ws := by
    apply List.ext_getElem?
    intro k
    by_cases hk : k < ws.length
    · have h1 := hread k hk
      rw [List.getElem?_eq_getElem hk] at h1
      simp [storedWords, hcount, hk, readWord, h1]
    · simp [storedWords, hcount, Nat.le_of_not_lt hk]
  have hfind : ws.find? (fun w => decide (2 ^ s.n ≤ w)) = none := by
    rw [List.find?_eq_none]
    intro w hw
    have := hlt w hw
    simp; omega
  have hals : ¬ (s.n * s.wcount) % alpha ≠ 0 := by rw [hcount]; simpa [alpha] using ha
  rw [andThen_running _ (by rw [hph]; decide), execEnsureNBits, hst, hfind]
  dsimp only
  rw [andThen_running _ (by simp), execAlignCheck, if_neg (by simpa using hals),
    andThen_running _ (by simp), execBitsToText, if_pos (by rfl)]
  have hl : (wordsToBits s.n ws).length / alpha = (bitsToText (wordsToBits s.n ws)).length := by
    simp [alpha]
  simp only [toPhase_bitbuf, toPhase_outbuf, hl]
  rfl

/-- The events of a text command that transforms `blocks` blocks (R95, R115). -/
def textEvents (d : Dir) (blocks : Nat) : List StratEvent :=
  .ek :: (List.range blocks).map (dirEvent d)

/-- R161, R162: the command completes. -/
theorem textCommandWith_completes (S : Strategy) (d : Dir) {s : State} {t out : List Byte}
    {key : KeySeq} (hcfg : s.cfgValid = true → 1 ≤ s.n ∧ s.maxWord = 2 ^ s.n)
    (hd : HostDuties s t key) (herr : firstError d s t key = none)
    (hout : textFunction S d s.n s.m t key = some (.ok out)) :
    textCommandWith S d s = .next (completeOk (some out.length)
      { enterText d s with
        outbuf := writeSeq s.outbuf 0 out
        events := textEvents d (textBlocks s.n t).length }) := by
  unfold firstError at herr
  split at herr
  · cases herr
  · next hv =>
    have hv : s.cfgValid = true := by simpa using hv
    obtain ⟨hn, hmax⟩ := hcfg hv
    split at herr
    · cases herr
    · next hp =>
      have hp : s.textPresent = true := by simpa using hp
      have ht := hd.text hp
      split at herr
      · cases herr
      · next ha =>
        have ha : (8 * t.length) % s.n = 0 := by simpa using ha
        split at herr
        · cases herr
        · next hlen =>
          have hlen : key.length = s.m := by simpa using hlen
          split at herr
          · cases herr
          · next hscan =>
            split at herr
            · cases herr
            · next hek =>
              have hek : ekPresent s = true := by simpa using hek
              split at herr
              · cases herr
              · next hdir =>
                rw [textFunction_ok S d hn key ha] at hout
                cases hout
                rw [textCommandWith_expanded S d hv hp hn hmax ht ha hd.key hlen hscan hek]
                set s3 := expandedState S d s key with hs3
                obtain ⟨wbuf, bits, blk, heq, hblk, hread⟩ :=
                  afterExpand_padded S d (s := s3) hn (t := t) ht ha
                have hn3 : s3.n = s.n := rfl
                rw [heq]
                set bs := textBlocks s3.n t with hbs
                set f := dirBlock S d s.n s.m (S.ek s.n s.m key) with hf
                have htwf : textWords s.n t = flatten bs := textWords_eq_flatten s.n t
                have hal : (s.n * (flatten (bs.map f)).length) % 8 = 0 := by
                  rw [flatten_length, List.length_map, ← flatten_length, ← htwf,
                    textWords_length]
                  exact aligned_after_padding ha
                have hwl : (textWords s3.n t).length = (flatten (bs.map f)).length := by
                  rw [hn3, htwf]; simp
                have hltf : ∀ w ∈ flatten (bs.map f), w < 2 ^ s.n := by
                  intro w hw
                  obtain ⟨b, hb, hwb⟩ := mem_flatten hw
                  obtain ⟨c, -, rfl⟩ := List.mem_map.1 hb
                  have := dirBlock_lt S d s.n s.m (S.ek s.n s.m key) c
                  rcases hwb with rfl | rfl
                  · exact this.1
                  · exact this.2
                by_cases hbn : bs = []
                · have hl0 : bs.length = 0 := by simp [hbn]
                  rw [hl0, blockLoop]
                  rw [reassembly (n := s.n) (ws := flatten (bs.map f)) ?_ ?_ ?_ ?_ hltf hal]
                  · rw [hn3] at hbs
                    simp only [textEvents, ← hbs, hl0]
                    rfl
                  · rfl
                  · rfl
                  · exact hwl
                  · intro k hk; simp [hbn] at hk
                · have hlt : 0 < bs.length := List.length_pos_iff.2 hbn
                  have hb0 := hblk hlt
                  subst hb0
                  have hpres : dirPresent d s = true := by
                    by_contra hc
                    apply hdir
                    refine ⟨by simpa using hc, fun h => hbn ?_⟩
                    exact (textBlocks_eq_nil_iff ha).2 h
                  obtain ⟨l, r, rnd, blk, wbuf', hloop, hmem⟩ := blockLoop_eq S d bs
                    { s3 with
                      bitbuf := bits, wbuf := wbuf, wcount := (textWords s3.n t).length
                      bcount := bs.length, blk := 0
                      phase := if 0 < bs.length then 8 else 12 } rfl
                    (by cases d <;> exact hpres) hbn (by simp)
                    (by
                      intro i b hb
                      have hib : i < bs.length := (List.getElem?_eq_some_iff.1 hb).1
                      have hg := flatten_getElem? bs i
                      have hwlen : (textWords s3.n t).length = 2 * bs.length := by
                        rw [hn3, htwf, flatten_length]
                      have h1 := hread (2 * i) (by omega)
                      have h2 := hread (2 * i + 1) (by omega)
                      rw [hn3, htwf] at h1 h2
                      rw [hg.1, hb] at h1
                      rw [hg.2, hb] at h2
                      simpa using ⟨h1, h2⟩)
                    (by
                      intro b hb
                      have hmemb : ∀ w ∈ flatten bs, w < 2 ^ s.n := fun w hw =>
                        textWords_lt (htwf ▸ hw)
                      constructor
                      · exact hmemb _ (by simp only [flatten, List.mem_flatMap]; exact ⟨b, hb, by simp⟩)
                      · exact hmemb _ (by simp only [flatten, List.mem_flatMap]; exact ⟨b, hb, by simp⟩))
                  rw [hloop]
                  rw [reassembly (n := s.n) (ws := flatten (bs.map f)) ?_ ?_ ?_ ?_ hltf hal]
                  · have hev : ([StratEvent.ek] ++
                        (List.range bs.length).map fun i => dirEvent d (0 + i)) =
                        textEvents d bs.length := by
                      simp [textEvents]
                    have hev' : s3.events = [.ek] := rfl
                    simp only [hev', hev]
                    rfl
                  · rfl
                  · rfl
                  · exact hwl
                  · intro k hk
                    have h1 := hmem k
                    rw [flatten_length, List.length_map] at hk
                    rw [if_pos ⟨by simp, hk⟩] at h1
                    simp only [Nat.mul_zero, Nat.sub_zero] at h1
                    rwa [show S.load s3.rkbuf = S.ek s.n s.m key from S.load_store _] at h1

/-- The strategy invocations before an error (R189, conflict C3): only an absent block function is met
after `S.ek` has run. -/
def errorEvents (e : ErrorKind) (info : Nat) : List StratEvent :=
  if e = .notImplemented ∧ info ≠ 0 then [.ek] else []

/-- R188: the command raises the first error, before anything is written but hidden state. -/
theorem textCommandWith_raises (S : Strategy) (d : Dir) {s : State} {t : List Byte} {key : KeySeq}
    {e : ErrorKind} {info : Nat} (hcfg : s.cfgValid = true → 1 ≤ s.n ∧ s.maxWord = 2 ^ s.n)
    (hd : HostDuties s t key) (herr : firstError d s t key = some (e, info)) :
    textCommandWith S d s =
      .next (raiseError e info { enterText d s with events := errorEvents e info }) := by
  unfold firstError at herr
  split at herr
  · next hv =>
    cases herr
    rw [textCommandWith_def, execCheckInput, if_pos (by simpa using hv), andThen_raise]
    rfl
  · next hv =>
    have hv : s.cfgValid = true := by simpa using hv
    obtain ⟨hn, hmax⟩ := hcfg hv
    split at herr
    · next hp =>
      cases herr
      rw [textCommandWith_def, execCheckInput, if_neg (by simp [hv]), if_pos (by simpa using hp),
        andThen_raise]
      rfl
    · next hp =>
      have hp : s.textPresent = true := by simpa using hp
      have ht := hd.text hp
      have htl : t.length = s.textlen := readSeq_length ht
      have hkl : key.length = s.keylen := readSeq_length hd.key
      split at herr
      · next ha =>
        cases herr
        have hm : modN (alpha * s.textlen) s.n ≠ 0 := by
          rw [modN, if_neg (by omega), ← htl]; exact ha
        rw [textCommandWith_def, execCheckInput, if_neg (by simp [hv]), if_neg (by simp [hp]),
          if_pos (by simpa using hm), andThen_raise]
        rfl
      · next ha =>
        have ha : (8 * t.length) % s.n = 0 := by simpa using ha
        have hck : execCheckInput (enterText d s) = .next (toPhase 2 (enterText d s)) :=
          checkInput_passes hv hp hn (by
            simp only [enterText_textlen, enterText_n, ← htl]; exact ha)
        split at herr
        · next hlen =>
          cases herr
          rw [textCommandWith_def, hck, andThen_running _ (by simp), execValidateKey,
            if_pos (by simpa [← hkl] using hlen), andThen_raise, hkl]
          rfl
        · next hlen =>
          have hlen : key.length = s.m := by simpa using hlen
          have hsc := scanKey_eq s.keybuf s.n 0 key (hkl ▸ hd.key)
          rw [hlen, ← hmax] at hsc
          split at herr
          · next i hi =>
            cases herr
            rw [hi] at hsc
            rw [textCommandWith_def, hck, andThen_running _ (by simp), execValidateKey,
              if_neg (by simp; omega)]
            simp only [toPhase_keybuf, toPhase_maxWord, toPhase_m, enterText_keybuf,
              enterText_maxWord, enterText_m, hsc, Nat.zero_add]
            rw [andThen_raise]
            rfl
          · next hscan =>
            split at herr
            · next hek =>
              cases herr
              rw [hscan] at hsc
              rw [textCommandWith_def, hck, andThen_running _ (by simp), execValidateKey,
                if_neg (by simp; omega)]
              simp only [toPhase_keybuf, toPhase_maxWord, toPhase_m, enterText_keybuf,
                enterText_maxWord, enterText_m, hsc]
              have hek' : ¬ ekPresent (toPhase 3 (toPhase 2 (enterText d s))) = true := by
                rw [show ekPresent (toPhase 3 (toPhase 2 (enterText d s))) = ekPresent s from rfl,
                  hek]
                simp
              rw [andThen_running _ (by simp), expandKeyWith, if_neg hek', andThen_raise]
              rfl
            · next hek =>
              have hek : ekPresent s = true := by simpa using hek
              split at herr
              · next hdir =>
                obtain ⟨habs, hne⟩ := hdir
                cases herr
                rw [textCommandWith_expanded S d hv hp hn hmax ht ha hd.key hlen hscan hek]
                obtain ⟨wbuf, bits, blk, heq, -, -⟩ :=
                  afterExpand_padded S d (s := expandedState S d s key) hn (t := t) ht ha
                rw [heq]
                have hlen' : 0 < (textBlocks s.n t).length := by
                  rw [List.length_pos_iff]
                  exact fun h => hne ((textBlocks_eq_nil_iff ha).1 h)
                obtain ⟨k, hk⟩ : ∃ k, (textBlocks (expandedState S d s key).n t).length = k + 1 :=
                  Nat.exists_eq_succ_of_ne_zero (Nat.ne_of_gt hlen')
                rw [hk, blockLoop]
                obtain ⟨l, r, hpass⟩ := blockPass_absent S d
                  { expandedState S d s key with
                    bitbuf := bits, wbuf := wbuf, wcount := (textWords (expandedState S d s key).n t).length
                    bcount := k + 1, blk := blk
                    phase := if 0 < k + 1 then 8 else 12 } rfl
                  (by cases d <;> exact habs)
                rw [hpass, andThen_raise, andThen_raise]
                cases d <;> rfl
              · cases herr

end Sys2Proof.Machine
end

