-- ==== Sys2Proof/Laws/Outcome.lean ====
section
/-!
SUPPORT. How a text command ends, from any configured state and without the host's duties: the error it
raises, the result it completes with, or the element it is refused for (43_facade.md R166: a function of
the operands alone).
-/
namespace Sys2Proof.Machine

/-- The three ends of a text command. -/
inductive TextEnd where
  | refused (x : Refusal)
  | raised (e : ErrorKind) (info : Nat)
  | completed (blocks : Nat) (out : List Byte)

/-- How a text command ends, by its operands (R39). -/
def textEnd (S : Strategy) (d : Dir) (s : State) : TextEnd :=
  if s.cfgValid = false then .raised .configuration 4
  else if s.textPresent = false then .raised .input 0
  else if (8 * s.textlen) % s.n ≠ 0 then .raised .input 1
  else if s.keylen ≠ s.m then .raised .keyFormat s.keylen
  else
    match scanKey s.keybuf s.maxWord 0 s.m with
    | .outOfRange i => .raised .keyRange i
    | .unwritten i => .refused (.keybufUnwritten i)
    | .allInRange =>
      if ekPresent s = false then .raised .notImplemented 0
      else
        match hostText s, hostKey s with
        | .error i, _ => .refused (.inbufUnwritten i)
        | .ok _, .error i => .refused (.keybufUnwritten i)
        | .ok t, .ok key =>
          if dirPresent d s = false ∧ t ≠ [] then .raised .notImplemented (dirInfo d)
          else
            match textFunction S d s.n s.m t key with
            | some (.ok out) => .completed (textBlocks s.n t).length out
            | some (.error r) => .raised .codecAlignment r
            | none => .raised .input 1

/-- What a text command answers, by its end. -/
def TextEnd.answer (d : Dir) (s : State) : TextEnd → Result
  | .refused x => .refused x
  | .raised e info => .next (raiseError e info { enterText d s with events := errorEvents e info })
  | .completed blocks out => .next (completeOk (some out.length)
      { enterText d s with outbuf := writeSeq s.outbuf 0 out, events := textEvents d blocks })

/-- A key of in-range elements is written (R93). -/
theorem hostKey_of_scan {s : State} (hlen : s.keylen = s.m)
    (hs : scanKey s.keybuf s.maxWord 0 s.m = .allInRange) :
    ∃ key, hostKey s = .ok key ∧ key.length = s.m ∧ ∀ k ∈ key, 0 ≤ k ∧ k < (s.maxWord : Int) := by
  rw [scanKey_eq_allInRange] at hs
  cases hk : hostKey s with
  | error i =>
    exfalso
    have : ∀ start len, (∀ j, j < len → ∃ x, readBuf s.keybuf (start + j) = some x) →
        ∃ vs, readSeq s.keybuf start len = .ok vs := by
      intro start len
      induction len generalizing start with
      | zero => exact fun _ => ⟨[], rfl⟩
      | succ len ih =>
        intro h
        obtain ⟨x, hx⟩ := h 0 (by omega)
        rw [Nat.add_zero] at hx
        obtain ⟨vs, hvs⟩ := ih (start + 1) fun j hj => by
          have := h (j + 1) (by omega)
          rwa [show start + (j + 1) = start + 1 + j by omega] at this
        exact ⟨x :: vs, by rw [readSeq, hx, hvs]⟩
    obtain ⟨vs, hvs⟩ := this 0 s.keylen fun j hj => by
      obtain ⟨x, hx, -⟩ := hs j (by omega)
      exact ⟨x, hx⟩
    rw [hostKey, hvs] at hk
    cases hk
  | ok key =>
    have h := (readSeq_eq_ok_iff _ _ _ _).1 hk
    refine ⟨key, rfl, by rw [h.1, hlen], fun k hmem => ?_⟩
    obtain ⟨i, hi⟩ := List.mem_iff_getElem?.1 hmem
    have hil : i < s.keylen := by rw [← h.1]; exact (List.getElem?_eq_some_iff.1 hi).1
    have h2 := h.2 i hil
    obtain ⟨x, hx, hr⟩ := hs i (by omega)
    rw [hx, hi] at h2
    cases h2
    exact hr

theorem findIdx?_of_inRange {n : Nat} {key : KeySeq} (h : ∀ k ∈ key, 0 ≤ k ∧ k < ((2 ^ n : Nat) : Int)) :
    key.findIdx? (fun k => !keyInRange n k) = none := by
  rw [List.findIdx?_eq_none_iff]
  intro k hk
  have := h k hk
  rw [Bool.not_eq_false', keyInRange_iff]
  omega

/-- R161, R162, R166, R188: a text command answers what `textEnd` says. -/
theorem textCommandWith_eq (S : Strategy) (d : Dir) {s : State}
    (hcfg : s.cfgValid = true → 1 ≤ s.n ∧ s.maxWord = 2 ^ s.n) :
    textCommandWith S d s = (textEnd S d s).answer d s := by
  have duties (t : List Byte) (key : KeySeq) (ht : hostText s = .ok t) (hk : hostKey s = .ok key) :
      HostDuties s t key := ⟨fun _ => ht, hk⟩
  unfold textEnd
  by_cases hv : s.cfgValid = false
  · rw [if_pos hv, textCommandWith_def, execCheckInput, if_pos (by simpa using hv), andThen_raise]
    rfl
  rw [if_neg hv]
  have hv : s.cfgValid = true := by simpa using hv
  obtain ⟨hn, hmax⟩ := hcfg hv
  by_cases hp : s.textPresent = false
  · rw [if_pos hp, textCommandWith_def, execCheckInput, if_neg (by simp [hv]),
      if_pos (by simpa using hp), andThen_raise]
    rfl
  rw [if_neg hp]
  have hp : s.textPresent = true := by simpa using hp
  by_cases ha : (8 * s.textlen) % s.n ≠ 0
  · have hm : modN (alpha * s.textlen) s.n ≠ 0 := by rw [modN, if_neg (by omega)]; exact ha
    rw [if_pos ha, textCommandWith_def, execCheckInput, if_neg (by simp [hv]), if_neg (by simp [hp]),
      if_pos (by simpa using hm), andThen_raise]
    rfl
  rw [if_neg ha]
  have ha : (8 * s.textlen) % s.n = 0 := by simpa using ha
  have hck : execCheckInput (enterText d s) = .next (toPhase 2 (enterText d s)) :=
    checkInput_passes hv hp hn ha
  by_cases hlen : s.keylen ≠ s.m
  · rw [if_pos hlen, textCommandWith_def, hck, andThen_running _ (by simp), execValidateKey,
      if_pos (by simpa using hlen), andThen_raise]
    rfl
  rw [if_neg hlen]
  have hlen : s.keylen = s.m := by simpa using hlen
  have hval : execValidateKey (toPhase 2 (enterText d s)) =
      match scanKey s.keybuf s.maxWord 0 s.m with
      | .allInRange => .next (toPhase 3 (toPhase 2 (enterText d s)))
      | .outOfRange i => .next (raiseError .keyRange i (toPhase 2 (enterText d s)))
      | .unwritten i => .refused (.keybufUnwritten i) := by
    rw [execValidateKey, if_neg (by simpa using hlen)]
    rfl
  cases hs : scanKey s.keybuf s.maxWord 0 s.m with
  | outOfRange i =>
    rw [textCommandWith_def, hck, andThen_running _ (by simp), hval, hs]
    rfl
  | unwritten i =>
    rw [textCommandWith_def, hck, andThen_running _ (by simp), hval, hs]
    rfl
  | allInRange =>
    obtain ⟨key, hkey, hkl, hrange⟩ := hostKey_of_scan hlen hs
    rw [hmax] at hrange
    have hfind := findIdx?_of_inRange hrange
    by_cases hek : ekPresent s = false
    · have hek' : ¬ ekPresent (toPhase 3 (toPhase 2 (enterText d s))) = true := by
        rw [show ekPresent (toPhase 3 (toPhase 2 (enterText d s))) = ekPresent s from rfl, hek]
        simp
      simp only [if_pos hek]
      rw [textCommandWith_def, hck, andThen_running _ (by simp), hval, hs]
      dsimp only
      rw [andThen_running _ (by simp), expandKeyWith, if_neg hek', andThen_raise]
      rfl
    simp only [if_neg hek]
    have hek : ekPresent s = true := by simpa using hek
    cases ht : hostText s with
    | error i =>
      have hek' : ekPresent (toPhase 3 (toPhase 2 (enterText d s))) = true := hek
      have hrk : readSeq (toPhase 3 (toPhase 2 (enterText d s))).keybuf 0
          (toPhase 3 (toPhase 2 (enterText d s))).m = .ok key := by
        rw [hostKey, hlen] at hkey; exact hkey
      rw [textCommandWith_def, hck, andThen_running _ (by simp), hval, hs]
      dsimp only
      rw [andThen_running _ (by simp), expandKeyWith, if_pos hek', hrk]
      dsimp only
      rw [andThen_running _ (by simp), afterExpand, execTextToBits]
      have : readSeq s.inbuf 0 s.textlen = .error i := ht
      simp only [toPhase_inbuf, toPhase_textlen, enterText_inbuf, enterText_textlen, this]
      rfl
    | ok t =>
      have htl : t.length = s.textlen := readSeq_length ht
      rw [hkey]
      have hd := duties t key ht hkey
      have hfe : firstError d s t key =
          if dirPresent d s = false ∧ t ≠ [] then some (.notImplemented, dirInfo d) else none := by
        unfold firstError
        rw [if_neg (by simp [hv]), if_neg (by simp [hp]), htl, if_neg (by simpa using ha),
          if_neg (by simpa using hkl), hfind]
        dsimp only
        rw [if_neg (by simp [hek])]
      by_cases hdir : dirPresent d s = false ∧ t ≠ []
      · simp only [if_pos hdir]
        rw [if_pos hdir] at hfe
        exact textCommandWith_raises S d hcfg hd hfe
      · simp only [if_neg hdir]
        rw [if_neg hdir] at hfe
        have hok := textFunction_ok S d (m := s.m) hn key (by rw [htl]; exact ha)
        rw [hok]
        exact textCommandWith_completes S d hcfg hd hfe hok

/-- R166: the end of a text command is a function of its operands. -/
theorem textEnd_congr (S : Strategy) (d : Dir) {s s' : State} (hs : SameOperands s s')
    (hm : s.cfgValid = true → s.maxWord = 2 ^ s.n) (hm' : s'.cfgValid = true → s'.maxWord = 2 ^ s'.n) :
    textEnd S d s = textEnd S d s' := by
  have readSeq_congr {α : Type} (b b' : Buf α) (start len : Nat)
      (h : ∀ j, j < len → readBuf b (start + j) = readBuf b' (start + j)) :
      readSeq b start len = readSeq b' start len := by
    induction len generalizing start with
    | zero => rfl
    | succ len ih =>
      have h0 := h 0 (by omega)
      rw [Nat.add_zero] at h0
      rw [readSeq, readSeq, h0, ih (start + 1) fun j hj => by
        have := h (j + 1) (by omega)
        rwa [show start + (j + 1) = start + 1 + j by omega] at this]
  have scan_congr (b b' : Buf Int) (mw start len : Nat)
      (h : ∀ j, j < len → readBuf b (start + j) = readBuf b' (start + j)) :
      scanKey b mw start len = scanKey b' mw start len := by
    induction len generalizing start with
    | zero => rfl
    | succ len ih =>
      have h0 := h 0 (by omega)
      rw [Nat.add_zero] at h0
      rw [scanKey, scanKey, h0, ih (start + 1) fun j hj => by
        have := h (j + 1) (by omega)
        rwa [show start + (j + 1) = start + 1 + j by omega] at this]
  obtain ⟨hcfg, hpres, htl, htext, hkl, hkey, hst⟩ := hs
  unfold cfgView at hcfg
  by_cases hv : s.cfgValid = true
  · have hv' : s'.cfgValid = true := by
      by_contra hc
      rw [if_pos hv, if_neg hc] at hcfg
      cases hcfg
    rw [if_pos hv, if_pos hv'] at hcfg
    simp only [Option.some.injEq, Prod.mk.injEq] at hcfg
    obtain ⟨hn, hM⟩ := hcfg
    by_cases hp : s.textPresent = true
    · have htl := htl hp
      have htext := htext hp
      have h1 : hostText s = hostText s' := by
        rw [hostText, hostText, ← htl]
        exact readSeq_congr _ _ _ _ fun j hj => by simpa using htext j hj
      have h2 : hostKey s = hostKey s' := by
        rw [hostKey, hostKey, ← hkl]
        exact readSeq_congr _ _ _ _ fun j hj => by simpa using hkey j hj
      have h4 : ekPresent s = ekPresent s' := by simp [ekPresent, hst]
      have h5 : dirPresent d s = dirPresent d s' := by
        cases d <;> simp [dirPresent, ebPresent, dbPresent, hst]
      unfold textEnd
      rw [hv, hv', ← hpres, ← htl, ← hn, ← hM, ← hkl, ← h1, ← h2, ← h4, ← h5, hm hv, hm' hv', ← hn]
      by_cases hlen : s.keylen ≠ s.m
      · simp only [if_pos hlen]
      · have hlen' : s.keylen = s.m := by simpa using hlen
        rw [scan_congr s.keybuf s'.keybuf (2 ^ s.n) 0 s.m fun j hj => by
          simpa using hkey j (by omega)]
    · have hp' : s'.textPresent = false := by rw [← hpres]; simpa using hp
      have hp : s.textPresent = false := by simpa using hp
      unfold textEnd
      rw [hv, hv', hp, hp']
      rfl
  · have hv' : ¬ s'.cfgValid = true := by
      intro hc
      rw [if_neg hv, if_pos hc] at hcfg
      cases hcfg
    unfold textEnd
    rw [if_pos (by simpa using hv), if_pos (by simpa using hv')]

/-- R144: CodecAlignmentError is not among the ends of a text command. -/
theorem textEnd_ne_codecAlignment (S : Strategy) (d : Dir) {s : State}
    (hcfg : s.cfgValid = true → 1 ≤ s.n) (info : Nat) :
    textEnd S d s ≠ .raised .codecAlignment info := by
  intro h
  unfold textEnd at h
  split at h
  · cases h
  next hv =>
  split at h
  · cases h
  split at h
  · cases h
  next ha =>
  split at h
  · cases h
  split at h
  · cases h
  · cases h
  split at h
  · cases h
  split at h
  · cases h
  · cases h
  next t key ht hk =>
  split at h
  · cases h
  have htl : t.length = s.textlen := readSeq_length ht
  rw [textFunction_ok S d (hcfg (by simpa using hv)) key (by rw [htl]; simpa using ha)] at h
  cases h

end Sys2Proof.Machine
end

