-- ==== Sys2Proof/Laws/Frames.lean ====
section
/-!
SUPPORT. What every micro-operation leaves alone (10_state.md R40, 40_config_and_key.md R92): the host's
side, the configuration and, but for BITS_TO_TEXT, OUTBUF; and that it either goes on with the result of
the last command untouched or raises (43_facade.md R163).
-/
namespace Sys2Proof.Machine

/-- Host side, configuration and OUTBUF are as before. -/
def SameButHidden (s t : State) : Prop := SameHostSide s t ∧ SameConfig s t ∧ t.outbuf = s.outbuf

theorem SameButHidden.refl (s : State) : SameButHidden s s := by
  simp [SameButHidden, SameHostSide, SameConfig]

theorem SameButHidden.trans {s t u : State} (h : SameButHidden s t) (h' : SameButHidden t u) :
    SameButHidden s u := by
  simp only [SameButHidden, SameHostSide, SameConfig] at *
  refine ⟨⟨?_, ?_, ?_, ?_, ?_, ?_, ?_, ?_, ?_, ?_⟩, ⟨?_, ?_, ?_, ?_, ?_⟩, ?_⟩ <;> simp [h, h']

/-- The command goes on: the flags and the result are as before. -/
def GoesOn (s t : State) : Prop :=
  t.phase ≠ 0 ∧ t.done = s.done ∧ t.err = s.err ∧ t.outValid = s.outValid ∧ t.errcode = s.errcode ∧
    t.errinfo = s.errinfo ∧ t.outlen = s.outlen

/-- The command is over by `raise` (R190). -/
def Raised (t : State) : Prop :=
  t.phase = 0 ∧ t.rkValid = false ∧ t.done = true ∧ t.err = true ∧ t.outValid = false ∧ t.outlen = 0

/-- What a micro-operation other than BITS_TO_TEXT and CONFIGURE does to the rest of the machine. -/
def MicroFrame (s t : State) : Prop := SameButHidden s t ∧ (GoesOn s t ∨ Raised t)

theorem MicroFrame.refl {s : State} (h : s.phase ≠ 0) : MicroFrame s s :=
  ⟨.refl s, .inl ⟨h, rfl, rfl, rfl, rfl, rfl, rfl⟩⟩

theorem MicroFrame.trans {s t u : State} (h : MicroFrame s t) (hp : t.phase ≠ 0)
    (h' : MicroFrame t u) : MicroFrame s u := by
  refine ⟨h.1.trans h'.1, ?_⟩
  rcases h.2 with ⟨-, h⟩ | h
  · rcases h'.2 with ⟨p, h'⟩ | h'
    · exact .inl ⟨p, by simp [h, h']⟩
    · exact .inr h'
  · exact absurd h.1 hp

variable {s t : State}

theorem raiseError_frame (e : ErrorKind) (info : Nat) (s : State) :
    MicroFrame s (raiseError e info s) :=
  ⟨by simp [SameButHidden, SameHostSide, SameConfig], .inr (by simp [Raised])⟩

theorem toPhase_frame {p : BitVec 4} (hp : p ≠ 0) (s : State) : MicroFrame s (toPhase p s) :=
  ⟨by simp [SameButHidden, SameHostSide, SameConfig], .inl (by simpa [GoesOn] using hp)⟩

theorem execCheckInput_frame (h : execCheckInput s = .next t) : MicroFrame s t := by
  unfold execCheckInput at h
  split_ifs at h <;> cases h
  · exact raiseError_frame ..
  · exact raiseError_frame ..
  · exact raiseError_frame ..
  · exact toPhase_frame (by decide) s

theorem execValidateKey_frame (h : execValidateKey s = .next t) : MicroFrame s t := by
  unfold execValidateKey at h
  split at h
  · cases h; exact raiseError_frame ..
  · split at h <;> cases h
    · exact toPhase_frame (by decide) s
    · exact raiseError_frame ..

theorem expandKeyWith_frame {S : Strategy} (h : expandKeyWith S s = .next t) : MicroFrame s t := by
  unfold expandKeyWith at h
  split at h
  · split at h <;> cases h
    simp [MicroFrame, SameButHidden, SameHostSide, SameConfig, GoesOn]
  · cases h; exact raiseError_frame ..

theorem execTextToBits_frame (h : execTextToBits s = .next t) : MicroFrame s t := by
  unfold execTextToBits at h
  split at h <;> cases h
  simp [MicroFrame, SameButHidden, SameHostSide, SameConfig, GoesOn]

theorem execChopN_frame (h : execChopN s = .next t) : MicroFrame s t := by
  unfold execChopN at h
  cases h
  simp [MicroFrame, SameButHidden, SameHostSide, SameConfig, GoesOn]

theorem execParseWords_frame (h : execParseWords s = .next t) : MicroFrame s t := by
  unfold execParseWords at h
  split at h <;> cases h
  simp [MicroFrame, SameButHidden, SameHostSide, SameConfig, GoesOn]

theorem execPadEven_frame (h : execPadEven s = .next t) : MicroFrame s t := by
  unfold execPadEven padWords at h
  dsimp only at h
  split at h <;> split at h <;> cases h <;>
    simp [MicroFrame, SameButHidden, SameHostSide, SameConfig, GoesOn]

theorem execPairBlocks_frame (h : execPairBlocks s = .next t) : MicroFrame s t := by
  unfold execPairBlocks at h
  cases h
  cases hd : s.dir <;> simp [MicroFrame, SameButHidden, SameHostSide, SameConfig, GoesOn]

theorem encryptBlockWith_frame {S : Strategy} (h : encryptBlockWith S s = .next t) :
    MicroFrame s t := by
  unfold encryptBlockWith at h
  split at h
  · split at h <;> cases h
    simp [MicroFrame, SameButHidden, SameHostSide, SameConfig, GoesOn]
  · cases h; exact raiseError_frame ..

theorem decryptBlockWith_frame {S : Strategy} (h : decryptBlockWith S s = .next t) :
    MicroFrame s t := by
  unfold decryptBlockWith at h
  split at h
  · split at h <;> cases h
    simp [MicroFrame, SameButHidden, SameHostSide, SameConfig, GoesOn]
  · cases h; exact raiseError_frame ..

theorem execFlatten_frame (h : execFlatten s = .next t) : MicroFrame s t := by
  unfold execFlatten at h
  dsimp only at h
  split at h <;> cases h <;> simp [MicroFrame, SameButHidden, SameHostSide, SameConfig, GoesOn]

theorem execEnsureNBits_frame (h : execEnsureNBits s = .next t) : MicroFrame s t := by
  unfold execEnsureNBits at h
  split at h <;> cases h
  simp [MicroFrame, SameButHidden, SameHostSide, SameConfig, GoesOn]

theorem execAlignCheck_frame (h : execAlignCheck s = .next t) : MicroFrame s t := by
  unfold execAlignCheck at h
  split at h <;> cases h
  · exact raiseError_frame ..
  · exact toPhase_frame (by decide) s

/-- BITS_TO_TEXT writes OUTBUF below `OUTLEN` only, and completes (R164). -/
theorem execBitsToText_frame (h : execBitsToText s = .next t) :
    SameHostSide s t ∧ SameConfig s t ∧ t.phase = 0 ∧ t.rkValid = false ∧ t.done = true ∧
      t.outValid = true ∧ t.err = s.err ∧ t.errcode = s.errcode ∧ t.errinfo = s.errinfo ∧
      t.events = s.events ∧ ∀ k, t.outlen ≤ k → readBuf t.outbuf k = readBuf s.outbuf k := by
  unfold execBitsToText at h
  split at h <;> cases h
  refine ⟨by simp [SameHostSide], by simp [SameConfig], rfl, rfl, rfl, rfl, rfl, rfl, rfl, rfl,
    fun k hk => ?_⟩
  simp only [completeOk_some_outlen, completeOk_some_outbuf, alpha] at hk ⊢
  rw [readBuf_writeSeq, if_neg (by simp; omega)]

/-- A sequence of two parts with frames has a frame. -/
theorem andThen_frame {first : Result} {f : State → Result} (h : andThen first f = .next t)
    (h1 : ∀ u, first = .next u → MicroFrame s u) (h2 : ∀ u, f u = .next t → u.phase ≠ 0 → MicroFrame u t) :
    MicroFrame s t := by
  obtain ⟨u, hu, ⟨-, rfl⟩ | ⟨hp, hf⟩⟩ := andThen_eq_next h
  · exact h1 _ hu
  · exact (h1 _ hu).trans hp (h2 _ hf hp)

theorem blockPass_frame {S : Strategy} {d : Dir} (h : blockPass S d s = .next t) : MicroFrame s t := by
  refine andThen_frame h (fun _ => execPairBlocks_frame) fun u hu _ => ?_
  refine andThen_frame hu (fun v hv => ?_) fun _ hv _ => execFlatten_frame hv
  cases d
  · exact encryptBlockWith_frame hv
  · exact decryptBlockWith_frame hv

theorem blockLoop_frame {S : Strategy} {d : Dir} {count : Nat} (hp : s.phase ≠ 0)
    (h : blockLoop S d count s = .next t) : MicroFrame s t := by
  induction count generalizing s with
  | zero => cases h; exact .refl hp
  | succ count ih => exact andThen_frame h (fun _ => blockPass_frame) fun u hu hp => ih hp hu

/-- How a text command reaches its end, from any state: by `raise`, or out of BITS_TO_TEXT. -/
theorem textCommandWith_ends {S : Strategy} {d : Dir} (h : textCommandWith S d s = .next t) :
    (MicroFrame (enterText d s) t ∧ Raised t) ∨
    ∃ u, MicroFrame (enterText d s) u ∧ GoesOn (enterText d s) u ∧ execBitsToText u = .next t := by
  have ended {u : State} (f : MicroFrame (enterText d s) u) (p : u.phase = 0) :
      MicroFrame (enterText d s) u ∧ Raised u := by
    rcases f.2 with h | h
    · exact absurd p h.1
    · exact ⟨f, h⟩
  rw [textCommandWith] at h
  obtain ⟨u, hu, ⟨p, rfl⟩ | ⟨p, h⟩⟩ := andThen_eq_next h
  · exact .inl (ended (execCheckInput_frame hu) p)
  have f := execCheckInput_frame hu
  obtain ⟨v, hv, ⟨q, rfl⟩ | ⟨q, h⟩⟩ := andThen_eq_next h
  · exact .inl (ended (f.trans p (execValidateKey_frame hv)) q)
  replace f := f.trans p (execValidateKey_frame hv)
  obtain ⟨u, hu, ⟨p, rfl⟩ | ⟨p, h⟩⟩ := andThen_eq_next h
  · exact .inl (ended (f.trans q (expandKeyWith_frame hu)) p)
  replace f := f.trans q (expandKeyWith_frame hu)
  obtain ⟨v, hv, ⟨q, rfl⟩ | ⟨q, h⟩⟩ := andThen_eq_next h
  · exact .inl (ended (f.trans p (execTextToBits_frame hv)) q)
  replace f := f.trans p (execTextToBits_frame hv)
  obtain ⟨u, hu, ⟨p, rfl⟩ | ⟨p, h⟩⟩ := andThen_eq_next h
  · exact .inl (ended (f.trans q (execChopN_frame hu)) p)
  replace f := f.trans q (execChopN_frame hu)
  obtain ⟨v, hv, ⟨q, rfl⟩ | ⟨q, h⟩⟩ := andThen_eq_next h
  · exact .inl (ended (f.trans p (execParseWords_frame hv)) q)
  replace f := f.trans p (execParseWords_frame hv)
  obtain ⟨u, hu, ⟨p, rfl⟩ | ⟨p, h⟩⟩ := andThen_eq_next h
  · exact .inl (ended (f.trans q (execPadEven_frame hu)) p)
  replace f := f.trans q (execPadEven_frame hu)
  obtain ⟨v, hv, ⟨q, rfl⟩ | ⟨q, h⟩⟩ := andThen_eq_next h
  · exact .inl (ended (f.trans p (blockLoop_frame p hv)) q)
  replace f := f.trans p (blockLoop_frame p hv)
  obtain ⟨u, hu, ⟨p, rfl⟩ | ⟨p, h⟩⟩ := andThen_eq_next h
  · exact .inl (ended (f.trans q (execEnsureNBits_frame hu)) p)
  replace f := f.trans q (execEnsureNBits_frame hu)
  obtain ⟨v, hv, ⟨q, rfl⟩ | ⟨q, h⟩⟩ := andThen_eq_next h
  · exact .inl (ended (f.trans p (execAlignCheck_frame hv)) q)
  replace f := f.trans p (execAlignCheck_frame hv)
  refine .inr ⟨v, f, ?_, h⟩
  rcases f.2 with g | g
  · exact g
  · exact absurd g.1 q

/-- A text command leaves the host's side and the configuration alone. -/
theorem textCommandWith_frame {S : Strategy} {d : Dir} (h : textCommandWith S d s = .next t) :
    SameHostSide s t ∧ SameConfig s t ∧ t.phase = 0 ∧ t.rkValid = false ∧ t.done = true ∧
      (t.err = true → t.outValid = false ∧ t.outlen = 0) ∧
      ∀ k, t.outlen ≤ k → readBuf t.outbuf k = readBuf s.outbuf k := by
  have e : SameButHidden s (enterText d s) := by simp [SameButHidden, SameHostSide, SameConfig]
  rcases textCommandWith_ends h with ⟨f, r⟩ | ⟨u, f, g, hu⟩
  · have f' := e.trans f.1
    exact ⟨f'.1, f'.2.1, r.1, r.2.1, r.2.2.1, fun _ => ⟨r.2.2.2.2.1, r.2.2.2.2.2⟩,
      fun k _ => by rw [f'.2.2]⟩
  · have f' := e.trans f.1
    obtain ⟨h1, h2, h3, h4, h5, h6, h7, -, -, -, h8⟩ := execBitsToText_frame hu
    have f'' : SameButHidden s { t with outbuf := u.outbuf } := f'.trans ⟨h1, h2, rfl⟩
    refine ⟨f''.1, f''.2.1, h3, h4, h5, fun herr => ?_, fun k hk => by rw [h8 k hk, f'.2.2]⟩
    have : t.err = false := by rw [h7, g.2.2.1]; rfl
    rw [this] at herr
    cases herr

end Sys2Proof.Machine
end

