-- ==== Sys2Proof/Laws/Invariant.lean ====
section
/-!
SUPPORT. The invariant of the machine (Safety.lean) and the shared operations: `raise`, `complete_ok`,
`start_command` and each micro-operation keep it.
-/
namespace Sys2Proof.Machine

variable {s t : State}

theorem readBuf_nil_none {α : Type} {P : Nat → α → Prop} :
    ∀ k w, readBuf ([] : Buf α) k = some w → P k w := by simp

theorem errorCode_ne_zero (e : ErrorKind) : errorCode e ≠ 0 := by cases e <;> decide

/-- What `raise` needs of the state it is called in. -/
theorem raiseError_inv (e : ErrorKind) (info : Nat) (hm : Memory.wf s = true)
    (hc : s.cfgValid = true → 1 ≤ s.n ∧ 1 ≤ s.m ∧ s.maxWord = 2 ^ s.n ∧ s.maxKey = 2 ^ (s.m * s.n))
    (hu : s.cfgValid = false → s.n = 0 ∧ s.m = 0 ∧ s.maxWord = 0 ∧ s.maxKey = 0) :
    (raiseError e info s).Inv where
  memory := by
    rw [memory_wf_iff] at *
    exact ⟨hm.1, hm.2.1, hm.2.2.1, rfl⟩
  configured := hc
  unconfigured := hu
  errFlag := ⟨fun _ => errorCode_ne_zero e, fun _ => rfl⟩
  errInfo h := absurd h (errorCode_ne_zero e)
  errCode := by rw [raiseError_errcode]; cases e <;> decide
  errDone _ := ⟨rfl, rfl⟩
  output h := by cases h
  noOutput _ := rfl
  block := ⟨Nat.mod_lt _ (by positivity), Nat.mod_lt _ (by positivity)⟩
  words := readBuf_nil_none
  idle _ := rfl
  running h := absurd rfl h

theorem raiseError_keeps (h : s.Inv) (e : ErrorKind) (info : Nat) : (raiseError e info s).Inv :=
  raiseError_inv e info h.memory h.configured h.unconfigured

/-- `start_command` and entering a text command. -/
theorem enterText_keeps (h : s.Inv) (d : Dir) : (enterText d s).Inv where
  memory := h.memory
  configured := h.configured
  unconfigured := h.unconfigured
  errFlag := by simp
  errInfo _ := rfl
  errCode := by simp
  errDone h := by cases h
  output h := by cases h
  noOutput _ := rfl
  block := h.block
  words := h.words
  idle h := by simp at h
  running _ := ⟨rfl, rfl, rfl⟩

/-- Moving `PHASE` inside a command, with hidden state changed within its ranges. -/
theorem running_inv (h : s.Inv) (hp : s.phase ≠ 0) (ht : t.phase ≠ 0)
    (hcfg : SameConfig s t) (hhost : SameHostSide s t)
    (hout : t.outbuf = s.outbuf) (hwf : bufWf t.wbuf = true)
    (hflags : t.done = s.done ∧ t.err = s.err ∧ t.outValid = s.outValid ∧ t.errcode = s.errcode ∧
      t.errinfo = s.errinfo ∧ t.outlen = s.outlen)
    (hb : t.l < 2 ^ s.n ∧ t.r < 2 ^ s.n)
    (hw : ∀ k w, readBuf t.wbuf k = some w → w < 2 ^ s.n) : t.Inv := by
  obtain ⟨c1, c2, c3, c4, c5⟩ := hcfg
  obtain ⟨f1, f2, f3, f4, f5, f6⟩ := hflags
  have hm := (memory_wf_iff s).1 h.memory
  refine { memory := ?_, configured := ?_, unconfigured := ?_, errFlag := ?_, errInfo := ?_,
           errCode := ?_, errDone := ?_, output := ?_, noOutput := ?_, block := ?_, words := ?_,
           idle := fun h0 => absurd h0 ht, running := fun _ => ?_ }
  · rw [memory_wf_iff]
    refine ⟨?_, ?_, ?_, hwf⟩
    · rw [hhost.2.2.2.2.2.1]; exact hm.1
    · rw [hhost.2.2.2.2.2.2.1]; exact hm.2.1
    · rw [hout]; exact hm.2.2.1
  · rw [c1, c2, c3, c4, c5]; exact h.configured
  · rw [c1, c2, c3, c4, c5]; exact h.unconfigured
  · rw [f2, f4]; exact h.errFlag
  · rw [f4, f5]; exact h.errInfo
  · rw [f4]; exact h.errCode
  · rw [f1, f2, f3]; exact h.errDone
  · rw [f1, f3, f6, hout]; exact h.output
  · rw [f3, f6]; exact h.noOutput
  · rw [c2]; exact hb
  · rw [c2]; exact hw
  · rw [f1, f2, f3]; exact h.running hp

theorem readWord_lt (h : s.Inv) (k : Nat) : readWord s k < 2 ^ s.n := by
  unfold readWord
  cases hr : readBuf s.wbuf k with
  | some w => exact h.words k w hr
  | none => exact Nat.mod_lt _ (by positivity)

theorem wf_wbuf (h : s.Inv) : bufWf s.wbuf = true := ((memory_wf_iff s).1 h.memory).2.2.2

theorem toPhase_keeps (h : s.Inv) (hp : s.phase ≠ 0) {p : BitVec 4} (hq : p ≠ 0) :
    (toPhase p s).Inv :=
  running_inv h hp (by simpa using hq) (by simp [SameConfig]) (by simp [SameHostSide]) rfl (wf_wbuf (s := s) h)
    ⟨rfl, rfl, rfl, rfl, rfl, rfl⟩ h.block h.words

theorem execCheckInput_keeps (h : s.Inv) (hp : s.phase ≠ 0) (hx : execCheckInput s = .next t) :
    t.Inv := by
  unfold execCheckInput at hx
  split_ifs at hx <;> cases hx
  · exact raiseError_keeps h ..
  · exact raiseError_keeps h ..
  · exact raiseError_keeps h ..
  · exact toPhase_keeps h hp (by decide)

theorem execValidateKey_keeps (h : s.Inv) (hp : s.phase ≠ 0) (hx : execValidateKey s = .next t) :
    t.Inv := by
  unfold execValidateKey at hx
  split at hx
  · cases hx; exact raiseError_keeps h ..
  · split at hx <;> cases hx
    · exact toPhase_keeps h hp (by decide)
    · exact raiseError_keeps h ..

theorem expandKeyWith_keeps {S : Strategy} (h : s.Inv) (hp : s.phase ≠ 0)
    (hx : expandKeyWith S s = .next t) : t.Inv := by
  unfold expandKeyWith at hx
  split at hx
  · split at hx <;> cases hx
    exact running_inv h hp (by simp) (by simp [SameConfig]) (by simp [SameHostSide]) rfl (wf_wbuf (s := s) h)
      ⟨rfl, rfl, rfl, rfl, rfl, rfl⟩ h.block h.words
  · cases hx; exact raiseError_keeps h ..

theorem execTextToBits_keeps (h : s.Inv) (hp : s.phase ≠ 0) (hx : execTextToBits s = .next t) :
    t.Inv := by
  unfold execTextToBits at hx
  split at hx <;> cases hx
  exact running_inv h hp (by simp) (by simp [SameConfig]) (by simp [SameHostSide]) rfl (wf_wbuf (s := s) h)
    ⟨rfl, rfl, rfl, rfl, rfl, rfl⟩ h.block h.words

theorem execChopN_keeps (h : s.Inv) (hp : s.phase ≠ 0) (hx : execChopN s = .next t) : t.Inv := by
  unfold execChopN at hx
  cases hx
  exact running_inv h hp (by simp) (by simp [SameConfig]) (by simp [SameHostSide]) rfl (wf_wbuf (s := s) h)
    ⟨rfl, rfl, rfl, rfl, rfl, rfl⟩ h.block h.words

theorem execParseWords_keeps (h : s.Inv) (hp : s.phase ≠ 0) (hx : execParseWords s = .next t) :
    t.Inv := by
  unfold execParseWords at hx
  split at hx <;> cases hx
  refine running_inv h hp (by simp) (by simp [SameConfig]) (by simp [SameHostSide]) rfl
    (bufWf_writeSeq (wf_wbuf (s := s) h) _ _) ⟨rfl, rfl, rfl, rfl, rfl, rfl⟩ h.block ?_
  intro k w hw
  simp only [toPhase_wbuf, readBuf_writeSeq] at hw
  split at hw
  · exact bitWords_lt (List.mem_iff_getElem?.2 ⟨_, hw⟩)
  · exact h.words k w hw

theorem execPadEven_keeps (h : s.Inv) (hp : s.phase ≠ 0) (hx : execPadEven s = .next t) :
    t.Inv := by
  have hw : ∀ k w, readBuf (padWords s).wbuf k = some w → w < 2 ^ s.n := by
    intro k w hk
    unfold padWords at hk
    split at hk
    · dsimp only at hk
      rw [readBuf_writeBuf] at hk
      split at hk
      · cases hk; positivity
      · exact h.words k w hk
    · exact h.words k w hk
  have hwf : bufWf (padWords s).wbuf = true := by
    unfold padWords
    split
    · exact bufWf_writeBuf (wf_wbuf (s := s) h) _ _
    · exact wf_wbuf h
  have hl : (padWords s).l = s.l := by unfold padWords; split <;> rfl
  have hr : (padWords s).r = s.r := by unfold padWords; split <;> rfl
  have htw : t.wbuf = (padWords s).wbuf := by
    unfold execPadEven at hx; dsimp only at hx; split at hx <;> cases hx <;> rfl
  have htl : t.l = s.l ∧ t.r = s.r := by
    unfold execPadEven at hx; dsimp only at hx; split at hx <;> cases hx <;> exact ⟨hl, hr⟩
  have hph : t.phase ≠ 0 := by
    unfold execPadEven at hx; dsimp only at hx; split at hx <;> cases hx <;> simp
  obtain ⟨⟨f1, f2, f3⟩, ⟨-, f4⟩ | f4⟩ := execPadEven_frame hx
  · exact running_inv h hp hph f2 f1 f3 (htw ▸ hwf) f4 (by rw [htl.1, htl.2]; exact h.block)
      (htw ▸ hw)
  · exact absurd f4.1 hph

theorem execPairBlocks_keeps (h : s.Inv) (hp : s.phase ≠ 0) (hx : execPairBlocks s = .next t) :
    t.Inv := by
  unfold execPairBlocks at hx
  cases hx
  exact running_inv h hp (by cases s.dir <;> simp) (by simp [SameConfig]) (by simp [SameHostSide]) rfl
    (wf_wbuf (s := s) h) ⟨rfl, rfl, rfl, rfl, rfl, rfl⟩ ⟨readWord_lt h _, readWord_lt h _⟩ h.words

theorem encryptBlockWith_keeps {S : Strategy} (h : s.Inv) (hp : s.phase ≠ 0)
    (hx : encryptBlockWith S s = .next t) : t.Inv := by
  unfold encryptBlockWith at hx
  split at hx
  · split at hx <;> cases hx
    exact running_inv h hp (by simp) (by simp [SameConfig]) (by simp [SameHostSide]) rfl (wf_wbuf (s := s) h)
      ⟨rfl, rfl, rfl, rfl, rfl, rfl⟩ (ofBlock_lt _) h.words
  · cases hx; exact raiseError_keeps h ..

theorem decryptBlockWith_keeps {S : Strategy} (h : s.Inv) (hp : s.phase ≠ 0)
    (hx : decryptBlockWith S s = .next t) : t.Inv := by
  unfold decryptBlockWith at hx
  split at hx
  · split at hx <;> cases hx
    exact running_inv h hp (by simp) (by simp [SameConfig]) (by simp [SameHostSide]) rfl (wf_wbuf (s := s) h)
      ⟨rfl, rfl, rfl, rfl, rfl, rfl⟩ (ofBlock_lt _) h.words
  · cases hx; exact raiseError_keeps h ..

theorem execFlatten_keeps (h : s.Inv) (hp : s.phase ≠ 0) (hx : execFlatten s = .next t) :
    t.Inv := by
  have hwf := bufWf_writeBuf (bufWf_writeBuf (wf_wbuf (s := s) h) (2 * s.blk) s.l) (2 * s.blk + 1) s.r
  have hw : ∀ k w, readBuf (writeBuf (writeBuf s.wbuf (2 * s.blk) s.l) (2 * s.blk + 1) s.r) k =
      some w → w < 2 ^ s.n := by
    intro k w hk
    rw [readBuf_writeBuf, readBuf_writeBuf] at hk
    split_ifs at hk
    · cases hk; exact h.block.2
    · cases hk; exact h.block.1
    · exact h.words k w hk
  unfold execFlatten at hx
  dsimp only at hx
  split at hx <;> cases hx <;>
    exact running_inv h hp (by simp) (by simp [SameConfig]) (by simp [SameHostSide]) rfl hwf
      ⟨rfl, rfl, rfl, rfl, rfl, rfl⟩ h.block hw

theorem execEnsureNBits_keeps (h : s.Inv) (hp : s.phase ≠ 0) (hx : execEnsureNBits s = .next t) :
    t.Inv := by
  unfold execEnsureNBits at hx
  split at hx <;> cases hx
  exact running_inv h hp (by simp) (by simp [SameConfig]) (by simp [SameHostSide]) rfl (wf_wbuf (s := s) h)
    ⟨rfl, rfl, rfl, rfl, rfl, rfl⟩ h.block h.words

theorem execAlignCheck_keeps (h : s.Inv) (hp : s.phase ≠ 0) (hx : execAlignCheck s = .next t) :
    t.Inv := by
  unfold execAlignCheck at hx
  split at hx <;> cases hx
  · exact raiseError_keeps h ..
  · exact toPhase_keeps h hp (by decide)

/-- A command that has not raised completes: `complete_ok` (R164). -/
theorem completeOk_some_inv {len : Nat} (hm : Memory.wf s = true)
    (hc : s.cfgValid = true → 1 ≤ s.n ∧ 1 ≤ s.m ∧ s.maxWord = 2 ^ s.n ∧ s.maxKey = 2 ^ (s.m * s.n))
    (hu : s.cfgValid = false → s.n = 0 ∧ s.m = 0 ∧ s.maxWord = 0 ∧ s.maxKey = 0)
    (he : s.err = false ∧ s.errcode = 0 ∧ s.errinfo = 0)
    (ho : ∀ i, i < len → (readBuf s.outbuf i).isSome = true) : (completeOk (some len) s).Inv where
  memory := by
    rw [memory_wf_iff] at *
    exact ⟨hm.1, hm.2.1, hm.2.2.1, rfl⟩
  configured := hc
  unconfigured := hu
  errFlag := by simp [he]
  errInfo _ := he.2.2
  errCode := by simp [he]
  errDone h := by simp [he] at h
  output _ := ⟨rfl, ho⟩
  noOutput h := by cases h
  block := ⟨Nat.mod_lt _ (by positivity), Nat.mod_lt _ (by positivity)⟩
  words := readBuf_nil_none
  idle _ := rfl
  running h := absurd rfl h

/-- Inside a command the flags of the last result are clear. -/
theorem running_clear (h : s.Inv) (hp : s.phase ≠ 0) :
    s.err = false ∧ s.errcode = 0 ∧ s.errinfo = 0 ∧ s.outValid = false ∧ s.outlen = 0 := by
  obtain ⟨-, he, ho⟩ := h.running hp
  have hc : s.errcode = 0 := by
    by_contra hne
    have := h.errFlag.2 hne
    rw [he] at this
    cases this
  exact ⟨he, hc, h.errInfo hc, ho, h.noOutput ho⟩

theorem execBitsToText_keeps (h : s.Inv) (hp : s.phase ≠ 0) (hx : execBitsToText s = .next t) :
    t.Inv := by
  unfold execBitsToText at hx
  split at hx <;> cases hx
  have hm := (memory_wf_iff s).1 h.memory
  obtain ⟨e1, e2, e3, -⟩ := running_clear h hp
  refine completeOk_some_inv ?_ h.configured h.unconfigured ⟨e1, e2, e3⟩ fun i hi => ?_
  · rw [memory_wf_iff]
    exact ⟨hm.1, hm.2.1, bufWf_writeSeq hm.2.2.1 _ _, hm.2.2.2⟩
  · have hi' : i < (bitsToText s.bitbuf).length := by simpa [alpha] using hi
    dsimp only
    rw [readBuf_writeSeq, if_pos (by omega), Nat.sub_zero, List.getElem?_eq_getElem hi']
    rfl

/-- The body of CONSTRUCT and CONFIGURE (R90), inside a command. -/
theorem configureBody_keeps (h : s.Inv) (hp : s.phase ≠ 0) (hx : configureBody s = .next t) :
    t.Inv := by
  have hm := (memory_wf_iff s).1 h.memory
  unfold configureBody at hx
  split at hx
  · cases hx
    exact raiseError_inv _ _ h.memory (fun h => by cases h) (fun _ => ⟨rfl, rfl, rfl, rfl⟩)
  · next hf =>
    have hpos : 0 < s.nIn ∧ 0 < s.mIn := by
      unfold configFault at hf
      split_ifs at hf <;> omega
    split at hx <;> cases hx
    obtain ⟨e1, e2, e3, e4, e5⟩ := running_clear h hp
    exact {
      memory := by rw [memory_wf_iff]; exact ⟨hm.1, hm.2.1, hm.2.2.1, rfl⟩
      configured := fun _ => ⟨by simp; omega, by simp; omega, rfl, rfl⟩
      unconfigured := fun h => by cases h
      errFlag := by simp [e1, e2]
      errInfo := fun _ => e3
      errCode := by simp [e2]
      errDone := fun h => by simp [e1] at h
      output := fun h => by simp [e4] at h
      noOutput := fun _ => e5
      block := ⟨Nat.mod_lt _ (by positivity), Nat.mod_lt _ (by positivity)⟩
      words := readBuf_nil_none
      idle := fun _ => rfl
      running := fun h => absurd rfl h }

/-- A sequence keeps the invariant when each part does. -/
theorem andThen_keeps {first : Result} {f : State → Result} (h : andThen first f = .next t)
    (h1 : ∀ u, first = .next u → u.Inv)
    (h2 : ∀ u, u.Inv → u.phase ≠ 0 → f u = .next t → t.Inv) : t.Inv := by
  obtain ⟨u, hu, ⟨-, rfl⟩ | ⟨hp, hf⟩⟩ := andThen_eq_next h
  · exact h1 _ hu
  · exact h2 u (h1 u hu) hp hf

theorem blockPass_keeps {S : Strategy} {d : Dir} (h : s.Inv) (hp : s.phase ≠ 0)
    (hx : blockPass S d s = .next t) : t.Inv := by
  refine andThen_keeps hx (fun _ => execPairBlocks_keeps h hp) fun u hu hpu hx => ?_
  refine andThen_keeps hx (fun v hv => ?_) fun v hv hpv hx => execFlatten_keeps hv hpv hx
  cases d
  · exact encryptBlockWith_keeps hu hpu hv
  · exact decryptBlockWith_keeps hu hpu hv

theorem blockLoop_keeps {S : Strategy} {d : Dir} {count : Nat} (h : s.Inv) (hp : s.phase ≠ 0)
    (hx : blockLoop S d count s = .next t) : t.Inv := by
  induction count generalizing s with
  | zero => cases hx; exact h
  | succ count ih =>
    exact andThen_keeps hx (fun _ => blockPass_keeps h hp) fun u hu hp hx => ih hu hp hx

theorem textCommandWith_keeps {S : Strategy} {d : Dir} (h : s.Inv)
    (hx : textCommandWith S d s = .next t) : t.Inv := by
  unfold textCommandWith at hx
  refine andThen_keeps hx (fun _ => execCheckInput_keeps (enterText_keeps h d) (by simp)) ?_
  refine fun u h hp hx => andThen_keeps hx (fun _ => execValidateKey_keeps h hp) ?_
  refine fun u h hp hx => andThen_keeps hx (fun _ => expandKeyWith_keeps h hp) ?_
  refine fun u h hp hx => andThen_keeps hx (fun _ => execTextToBits_keeps h hp) ?_
  refine fun u h hp hx => andThen_keeps hx (fun _ => execChopN_keeps h hp) ?_
  refine fun u h hp hx => andThen_keeps hx (fun _ => execParseWords_keeps h hp) ?_
  refine fun u h hp hx => andThen_keeps hx (fun _ => execPadEven_keeps h hp) ?_
  refine fun u h hp hx => andThen_keeps hx (fun _ => blockLoop_keeps h hp) ?_
  refine fun u h hp hx => andThen_keeps hx (fun _ => execEnsureNBits_keeps h hp) ?_
  refine fun u h hp hx => andThen_keeps hx (fun _ => execAlignCheck_keeps h hp) ?_
  exact fun u h hp hx => execBitsToText_keeps h hp hx

end Sys2Proof.Machine
end

