-- ==== Sys2Proof/Laws/PerInstr.lean ====
section
/-!
SUPPORT. Statements made for every instruction, one lemma per constructor. `TableRow`: the instruction is
well formed and the decoder reads it from the bits spec/opcode_table.json gives its row (30_encoding.md
R71, R73, R76).
-/
namespace Sys2Proof.Laws.TableRow

/-- Some word of the opcode table, of a command's 32 bits or of one byte, decodes to the instruction. -/
def Statement (i : Instr) : Prop :=
  i.wellFormed = true ∧
    ∃ nbits w, (nbits = 32 ∨ nbits = 8) ∧ w < 2 ^ nbits ∧ decodeTableWord nbits w = some i

theorem construct : Statement .construct := ⟨rfl, 32, 1, .inl rfl, by decide, by decide⟩
theorem encryptAscii : Statement .encryptAscii := ⟨rfl, 32, 2, .inl rfl, by decide, by decide⟩
theorem decryptAscii : Statement .decryptAscii := ⟨rfl, 32, 3, .inl rfl, by decide, by decide⟩
theorem illegal0 : Statement .illegal0 := ⟨rfl, 32, 0, .inl rfl, by decide, by decide⟩
theorem illegal4 : Statement .illegal4 := ⟨rfl, 32, 4, .inl rfl, by decide, by decide⟩
theorem illegal5 : Statement .illegal5 := ⟨rfl, 32, 5, .inl rfl, by decide, by decide⟩
theorem illegal6 : Statement .illegal6 := ⟨rfl, 32, 6, .inl rfl, by decide, by decide⟩
theorem illegal7 : Statement .illegal7 := ⟨rfl, 32, 7, .inl rfl, by decide, by decide⟩
theorem illegal8 : Statement .illegal8 := ⟨rfl, 32, 8, .inl rfl, by decide, by decide⟩
theorem illegal9 : Statement .illegal9 := ⟨rfl, 32, 9, .inl rfl, by decide, by decide⟩
theorem illegal10 : Statement .illegal10 := ⟨rfl, 32, 10, .inl rfl, by decide, by decide⟩
theorem illegal11 : Statement .illegal11 := ⟨rfl, 32, 11, .inl rfl, by decide, by decide⟩
theorem illegal12 : Statement .illegal12 := ⟨rfl, 32, 12, .inl rfl, by decide, by decide⟩
theorem illegal13 : Statement .illegal13 := ⟨rfl, 32, 13, .inl rfl, by decide, by decide⟩
theorem illegal14 : Statement .illegal14 := ⟨rfl, 32, 14, .inl rfl, by decide, by decide⟩
theorem illegal15 : Statement .illegal15 := ⟨rfl, 32, 15, .inl rfl, by decide, by decide⟩
theorem checkInput : Statement .checkInput := ⟨rfl, 8, 1, .inr rfl, by decide, by decide⟩
theorem validateKey : Statement .validateKey := ⟨rfl, 8, 2, .inr rfl, by decide, by decide⟩
theorem expandKey : Statement .expandKey := ⟨rfl, 8, 3, .inr rfl, by decide, by decide⟩
theorem textToBits : Statement .textToBits := ⟨rfl, 8, 4, .inr rfl, by decide, by decide⟩
theorem chopN : Statement .chopN := ⟨rfl, 8, 5, .inr rfl, by decide, by decide⟩
theorem parseWords : Statement .parseWords := ⟨rfl, 8, 6, .inr rfl, by decide, by decide⟩
theorem padEven : Statement .padEven := ⟨rfl, 8, 7, .inr rfl, by decide, by decide⟩
theorem pairBlocks : Statement .pairBlocks := ⟨rfl, 8, 8, .inr rfl, by decide, by decide⟩
theorem encryptBlock : Statement .encryptBlock := ⟨rfl, 8, 9, .inr rfl, by decide, by decide⟩
theorem decryptBlock : Statement .decryptBlock := ⟨rfl, 8, 10, .inr rfl, by decide, by decide⟩
theorem flatten : Statement .flatten := ⟨rfl, 8, 11, .inr rfl, by decide, by decide⟩
theorem ensureNBits : Statement .ensureNBits := ⟨rfl, 8, 12, .inr rfl, by decide, by decide⟩
theorem alignCheck : Statement .alignCheck := ⟨rfl, 8, 13, .inr rfl, by decide, by decide⟩
theorem bitsToText : Statement .bitsToText := ⟨rfl, 8, 14, .inr rfl, by decide, by decide⟩
theorem configure : Statement .configure := ⟨rfl, 8, 15, .inr rfl, by decide, by decide⟩

end Sys2Proof.Laws.TableRow
end

