-- ==== Sys2Proof/Tests/Slice0.lean ====
section
/-!
SUPPORT. Tests of the model and witnesses of the statements' hypotheses. Expected values are those of
spec/95_test_vectors.md (the vector is named at each test) or worked out by hand from the rule named.
-/
namespace Sys2Proof.Tests

open Sys2Proof Sys2Proof.Machine

/-! ### Helpers -/

/-- The strategy IDENT of spec/95. -/
def identS : Strategy :=
  { RK := List Int, store := id, load := id, load_store := fun _ => rfl
    ek := fun _ _ K => K, transform := .whole (fun _ _ b _ => b) (fun _ _ b _ => b) }

/-- The strategy TOY of spec/95: `F(x, k) = (x + k) mod 2^N`. -/
def toyS : Strategy :=
  { RK := List Int, store := id, load := id, load_store := fun _ => rfl
    ek := fun _ _ K => K
    transform := .rounds (fun n _ b k => (b.2, b.1 ^^^ (b.2 + BitVec.ofInt n k)))
      (fun n _ b k => (b.2 ^^^ (b.1 + BitVec.ofInt n k), b.1)) }

/-- After `CONSTRUCT n, m ; SETTEXT text ; SETKEY key` from reset. -/
def ready (n m : Nat) (text : List Byte) (key : KeySeq) (strat : BitVec 3 := 0b111) : State :=
  { State.reset with
    done := true, cfgValid := true, n := n, m := m, maxWord := 2 ^ n, maxKey := 2 ^ (m * n)
    nIn := n, mIn := m, textPresent := true, textlen := text.length, inbuf := writeSeq [] 0 text
    keylen := key.length, keybuf := writeSeq [] 0 key, strat := strat }

/-- Inside a command, at phase `p`. -/
def midway (p : BitVec 4) (n m : Nat) (text : List Byte) (key : KeySeq) (strat : BitVec 3 := 0b111) :
    State :=
  { ready n m text key strat with done := false, phase := p, rkValid := true }

/-- A field of the next state. -/
def pick {α : Type} (f : State → α) : Result → Option α
  | .next t => some (f t)
  | _ => none

/-- The refusal. -/
def refusal : Result → Option Refusal
  | .refused x => some x
  | _ => none

/-- What the host sees: STATUS, ERRCODE, ERRINFO and the result bytes. -/
def seen : Result → Option (BitVec 32 × BitVec 4 × Nat × List Byte) :=
  pick fun t => (statusWord t, t.errcode, t.errinfo,
    if t.outValid then (List.range t.outlen).map (outByte t) else [])

/-! ### Well-formedness: ill-formed terms are refused -/

/-- R30, R196: `TEXTLEN` is a natural. -/
theorem test_wellFormed_negative_textlen :
    HostAction.wellFormed (.writeReg 0x0C (-1)) = false ∧
    HostAction.wellFormed (.writeReg 0x0C 0) = true := by decide

/-- R31, R196: `KEYLEN` is a natural. -/
theorem test_wellFormed_negative_keylen :
    HostAction.wellFormed (.writeReg 0x0D (-1)) = false ∧
    HostAction.wellFormed (.writeReg 0x0D 3) = true := by decide

/-- R25: `N_IN` and `M_IN` take any integer. -/
theorem test_wellFormed_integer_operands :
    HostAction.wellFormed (.writeReg 0x04 (-3)) = true ∧
    HostAction.wellFormed (.writeReg 0x05 (-1)) = true := by decide

/-- R70, R76: no instruction has an operand, none is ill formed. -/
theorem test_wellFormed_instructions :
    Instr.wellFormed .construct = true ∧ Instr.wellFormed .configure = true := by decide

/-! ### Decoding: words written out from 30_encoding.md -/

/-- R71: the three commands; bits 31:4 are ignored (V43-16 writes 0x12). -/
theorem test_decode_commands :
    decodeCommand 0b00000000000000000000000000000001 = .construct ∧
    decodeCommand 0b00000000000000000000000000000010 = .encryptAscii ∧
    decodeCommand 0b00000000000000000000000000010010 = .encryptAscii ∧
    decodeCommand 0b11111111111111111111111111110011 = .decryptAscii := by decide

/-- R73: every unassigned opcode. -/
theorem test_decode_illegal :
    decodeCommand 0b0000 = .illegal0 ∧ decodeCommand 0b0100 = .illegal4 ∧
    decodeCommand 0b0101 = .illegal5 ∧ decodeCommand 0b0110 = .illegal6 ∧
    decodeCommand 0b0111 = .illegal7 ∧ decodeCommand 0b1000 = .illegal8 ∧
    decodeCommand 0b1001 = .illegal9 ∧ decodeCommand 0b1010 = .illegal10 ∧
    decodeCommand 0b1011 = .illegal11 ∧ decodeCommand 0b1100 = .illegal12 ∧
    decodeCommand 0b1101 = .illegal13 ∧ decodeCommand 0b1110 = .illegal14 ∧
    decodeCommand 0b1111 = .illegal15 := by decide

/-- R76: the phase codes 1 to 8. -/
theorem test_decode_phases_1_to_8 :
    decodeTableWord 8 0b0001 = some .checkInput ∧ decodeTableWord 8 0b0010 = some .validateKey ∧
    decodeTableWord 8 0b0011 = some .expandKey ∧ decodeTableWord 8 0b0100 = some .textToBits ∧
    decodeTableWord 8 0b0101 = some .chopN ∧ decodeTableWord 8 0b0110 = some .parseWords ∧
    decodeTableWord 8 0b0111 = some .padEven ∧ decodeTableWord 8 0b1000 = some .pairBlocks := by
  decide

/-- R76: the phase codes 9 to 15; 0 is IDLE, no instruction. -/
theorem test_decode_phases_9_to_15 :
    decodeTableWord 8 0b1001 = some .encryptBlock ∧ decodeTableWord 8 0b1010 = some .decryptBlock ∧
    decodeTableWord 8 0b1011 = some .flatten ∧ decodeTableWord 8 0b1100 = some .ensureNBits ∧
    decodeTableWord 8 0b1101 = some .alignCheck ∧ decodeTableWord 8 0b1110 = some .bitsToText ∧
    decodeTableWord 8 0b1111 = some .configure ∧ decodeTableWord 8 0b0000 = none := by decide

/-! ### Family 40 -/

/-- V40-2: `16, 4`. -/
theorem test_construct_16_4 :
    pick (fun t => (t.n, t.m, t.maxWord, t.maxKey, statusWord t))
      (exec .construct { State.reset with nIn := 16, mIn := 4 }) =
    some (16, 4, 65536, 18446744073709551616, 0b01001) := by decide

/-- V40-16: a failed CONSTRUCT clears the configuration. -/
theorem test_construct_clears :
    pick (fun t => (t.n, t.maxWord, t.errcode, t.errinfo, statusWord t))
      (exec .construct { ready 8 1 [] [] with nIn := 8, mIn := 0 }) =
    some (0, 0, 1, 2, 0b00011) := by decide

/-- V40-5: both operands bad. -/
theorem test_configure_both_bad :
    pick (fun t => (t.errcode, t.errinfo, t.phase))
      (exec .configure { State.reset with nIn := -3, mIn := -1, phase := 15 }) =
    some (1, 3, 0) := by decide

/-- V40-7, V40-8: the bound is strict. -/
theorem test_validateKey_bound :
    pick (fun t => (t.errcode, t.errinfo)) (exec .validateKey (midway 2 8 1 [] [256])) =
      some (3, 0) ∧
    pick State.phase (exec .validateKey (midway 2 8 1 [] [255])) = some 3 := by decide

/-- V40-12, V40-13: lowest index; the count before the range. -/
theorem test_validateKey_order :
    pick (fun t => (t.errcode, t.errinfo)) (exec .validateKey (midway 2 8 3 [] [1, 256, -5])) =
      some (3, 1) ∧
    pick (fun t => (t.errcode, t.errinfo)) (exec .validateKey (midway 2 8 2 [] [300])) =
      some (2, 1) := by decide

/-- V40-17b: the identity key expansion. -/
theorem test_expandKey_toy :
    pick (fun t => (t.rkbuf, t.rkValid, t.events))
      (expandKeyWith toyS (midway 3 8 2 [] [3, 5])) =
    some ([3, 5], true, [.ek]) := by decide

/-- V40-17c: no `expandKey`. -/
theorem test_expandKey_absent :
    pick (fun t => (t.errcode, t.errinfo)) (exec .expandKey (midway 3 8 2 [] [3, 5] 0b110)) =
    some (6, 0) := by decide

/-! ### Family 41 -/

/-- V41-1: TOY, one block of 8-bit words; RND counts the rounds. -/
theorem test_encryptBlock_toy :
    pick (fun t => (t.l, t.r, t.phase, t.events))
      (encryptBlockWith toyS { midway 9 8 2 [] [] with l := 65, r := 66, rkbuf := [3, 5] }) =
    some (4, 75, 11, [.eb 0]) := by decide

/-- V41-18: no `encryptBlock`. -/
theorem test_encryptBlock_absent :
    pick (fun t => (t.errcode, t.errinfo))
      (exec .encryptBlock { midway 9 8 2 [] [] 0b101 with l := 65, r := 66 }) =
    some (6, 1) := by decide

/-- V41-11 backwards and V41-15. -/
theorem test_decryptBlock_toy :
    pick (fun t => (t.l, t.r))
      (decryptBlockWith toyS { midway 10 3 2 [] [] with l := 7, r := 1, rkbuf := [5, 2] }) =
      some (2, 0) ∧
    pick (fun t => (t.l, t.r))
      (decryptBlockWith toyS { midway 10 8 2 [] [] with l := 65, r := 66, rkbuf := [3, 5] }) =
      some (70, 4) := by decide

/-- V41-19: no `decryptBlock`. -/
theorem test_decryptBlock_absent :
    pick (fun t => (t.errcode, t.errinfo))
      (exec .decryptBlock { midway 10 8 2 [] [] 0b011 with l := 65, r := 66 }) =
    some (6, 2) := by decide

/-- V41-17: the block loop, two blocks. -/
theorem test_blockLoop :
    pick (fun t => (t.wbuf, t.events, t.phase))
      (blockLoop toyS .enc 2 { midway 8 8 2 [] [] with
        rkbuf := [255, 255], wbuf := writeSeq [] 0 [255, 0, 128, 127], wcount := 4, bcount := 2 }) =
    some (writeSeq [] 0 [0, 255, 254, 130], [.eb 0, .eb 1], 12) := by decide

/-! ### Family 42 -/

/-- V42-1: `"AB"`, most significant bit first. -/
theorem test_textToBits :
    pick (fun t => (t.bitbuf, t.phase)) (exec .textToBits (midway 4 8 1 [0x41, 0x42] [])) =
    some ([false, true, false, false, false, false, false, true,
           false, true, false, false, false, false, true, false], 5) := by decide

/-- V42-2b, V42-2c: the word count. -/
theorem test_chopN :
    pick State.wcount (exec .chopN { midway 5 3 1 [] [] with
      bitbuf := textToBits [0x41, 0x42, 0x43] }) = some 8 ∧
    pick State.wcount (exec .chopN (midway 5 3 1 [] [])) = some 0 := by decide

/-- V42-2: a short last chunk of the general function. -/
theorem test_chop_short :
    chop (textToBits [0x41]) 3 = [[false, true, false], [false, false, false], [false, true]] := by
  decide

/-- V42-3, V42-3c: words, first bit most significant. -/
theorem test_parseWords :
    pick State.wbuf (exec .parseWords { midway 6 16 1 [] [] with
      bitbuf := textToBits [0x41, 0x42], wcount := 1 }) = some [(0, 16706)] ∧
    pick State.wbuf (exec .parseWords { midway 6 4 1 [] [] with
      bitbuf := textToBits [0x41], wcount := 2 }) = some [(0, 4), (1, 1)] := by decide

/-- V42-4, V42-4d. -/
theorem test_padEven_odd :
    pick (fun t => (t.wbuf, t.wcount, t.bcount, t.phase)) (exec .padEven { midway 7 8 1 [] [] with
      wbuf := [(0, 65)], wcount := 1 }) = some ([(0, 65), (1, 0)], 2, 1, 8) := by decide

/-- V42-4c: no word, no block. -/
theorem test_padEven_empty :
    pick (fun t => (t.wbuf, t.wcount, t.bcount, t.phase)) (exec .padEven (midway 7 8 1 [] [])) =
    some ([], 0, 0, 12) := by decide

/-- V42-5: block 1; the direction chooses the next phase (R163). -/
theorem test_pairBlocks :
    pick (fun t => (t.l, t.r, t.phase)) (exec .pairBlocks { midway 8 3 1 [] [] with
      wbuf := writeSeq [] 0 [2, 0, 2, 4, 1, 1, 0, 3], wcount := 8, bcount := 4, blk := 1 }) =
      some (2, 4, 9) ∧
    pick (fun t => (t.l, t.r, t.phase)) (exec .pairBlocks { midway 8 3 1 [] [] with
      wbuf := writeSeq [] 0 [2, 0, 2, 4, 1, 1, 0, 3], wcount := 8, bcount := 4, blk := 3,
      dir := .dec }) = some (0, 3, 10) := by decide

/-- V42-5b. -/
theorem test_flatten :
    pick (fun t => (t.wbuf, t.phase)) (exec .flatten { midway 11 8 1 [] [] with
      wbuf := writeSeq [] 0 [2, 0, 2, 4], wcount := 4, bcount := 2, blk := 1, l := 9, r := 8 }) =
    some (writeSeq [] 0 [2, 0, 9, 8], 12) := by decide

/-- V42-7: 12-bit words, zeros kept on the left. -/
theorem test_ensureNBits :
    pick State.bitbuf (exec .ensureNBits { midway 12 12 1 [] [] with
      wbuf := [(0, 1), (1, 2)], wcount := 2 }) =
    some (List.replicate 11 false ++ [true] ++ List.replicate 10 false ++ [true, false]) := by decide

/-- V42-7c: a word that does not fit is refused. -/
theorem test_ensureNBits_refuses :
    refusal (exec .ensureNBits { midway 12 8 1 [] [] with wbuf := [(0, 256)], wcount := 1 }) =
    some (.wordOutOfRange 256) := by decide

/-- V42-6b, V42-6d. -/
theorem test_alignCheck :
    pick (fun t => (t.errcode, t.errinfo)) (exec .alignCheck { midway 13 3 1 [] [] with wcount := 4 }) =
      some (5, 4) ∧
    pick State.phase (exec .alignCheck { midway 13 3 1 [] [] with wcount := 8 }) = some 14 := by
  decide

/-- V42-7: bytes, first bit most significant; the command completes. -/
theorem test_bitsToText :
    seen (exec .bitsToText { midway 14 12 1 [] [] with bitbuf := wordsToBits 12 [1, 2] }) =
    some (0b01101, 0, 0, [0x00, 0x10, 0x02]) := by decide

/-- V42-8, V42-19: words that straddle characters. -/
theorem test_codec_5_bit_words :
    textToBlocks 5 [0x41, 0x42, 0x43, 0x44, 0x45] = some [(8, 5), (1, 4), (6, 17), (2, 5)] ∧
    (blocksToText 5 [(8, 5), (1, 1), (0, 16), (26, 4)]).toOption =
      some [0x41, 0x42, 0x10, 0x43, 0x44] := by decide

/-! ### Family 43 -/

/-- V60-4: absence before length. -/
theorem test_checkInput_order :
    pick (fun t => (t.errcode, t.errinfo)) (exec .checkInput
      { midway 1 3 2 [0x41] [1] with textPresent := false }) = some (4, 0) ∧
    pick (fun t => (t.errcode, t.errinfo)) (exec .checkInput (midway 1 3 2 [0x41] [1])) =
      some (4, 1) := by decide

/-- E8 (SPK's own example): IDENT, `"AB"`, key `[0]`. -/
theorem test_encryptAscii_ident :
    seen (textCommandWith identS .enc (ready 8 1 [0x41, 0x42] [0])) =
    some (0b01101, 0, 0, [0x41, 0x42]) := by decide

/-- V43-9: 3-bit words, four blocks. -/
theorem test_encryptAscii_toy :
    seen (textCommandWith toyS .enc (ready 3 2 [0x41, 0x42, 0x43] [5, 2])) =
    some (0b01101, 0, 0, [0xE5, 0x9E, 0x01]) := by decide

/-- V43-2: the padding word comes back as a zero byte. -/
theorem test_decryptAscii_toy :
    seen (textCommandWith toyS .dec (ready 8 2 [0x42, 0x47] [3, 5])) =
    some (0b01101, 0, 0, [0x41, 0x00]) := by decide

/-- V60-7: range before the absent strategy. -/
theorem test_decryptAscii_priority :
    seen (exec .decryptAscii (ready 8 2 [0x41, 0x42] [1, 999] 0b110)) =
    some (0b01011, 3, 1, []) := by decide

/-- V60-16, V60-19: the last result is withdrawn. -/
theorem test_illegal0 :
    seen (exec .illegal0 { ready 8 2 [] [] with outValid := true, outlen := 0 }) =
    some (0b01011, 7, 0, []) := by decide

/-- V60-17, V60-18: the opcode is the ERRINFO. -/
theorem test_illegal_errinfo :
    [Instr.illegal4, .illegal5, .illegal6, .illegal7, .illegal8, .illegal9, .illegal10, .illegal11,
      .illegal12, .illegal13, .illegal14, .illegal15].map
        (fun i => pick (fun t => (t.errcode, t.errinfo)) (exec i State.reset)) =
    [some (7, 4), some (7, 5), some (7, 6), some (7, 7), some (7, 8), some (7, 9), some (7, 10),
      some (7, 11), some (7, 12), some (7, 13), some (7, 14), some (7, 15)] := by decide

/-! ### The host and the step -/

/-- V43-16: `WR CMD, 0x12`, one step; with no configuration the command raises (V60-1). -/
theorem test_step_command :
    seen (step { State.reset with pending := [.writeReg 0 0x12] }) = some (0b00011, 1, 4, []) := by
  decide

/-- R76: inside a command one step is one micro-operation. -/
theorem test_step_microOperation :
    pick State.phase (step ((ready 8 1 [] [0]).withFetchWord 8 2)) = some 3 := by decide

/-- R30: `TEXT_PRESENT` takes bit 0; R57, R28: reads. -/
theorem test_host_registers :
    pick State.textPresent (hostAccess (.writeReg 0x0B 3) State.reset) = some true ∧
    pick State.textPresent (hostAccess (.writeReg 0x0B 2) (ready 8 1 [] [])) = some false ∧
    pick State.rdata (hostAccess (.readReg 0x09) (ready 8 2 [] [])) = some 65536 ∧
    pick State.rdata (hostAccess (.readReg 0x10) (ready 8 2 [] [])) = some 0 := by decide

/-- R59: an element the host never wrote. -/
theorem test_host_unwritten :
    refusal (hostAccess (.readInbuf 2) (ready 8 1 [0x41, 0x42] [])) = some (.inbufUnwritten 2) := by
  decide

/-! ### Witnesses: concrete states and operands that meet the statements' hypotheses -/

/-- Every `ready` state meets the invariant. -/
theorem ready_inv {n m : Nat} (hn : 1 ≤ n) (hm : 1 ≤ m) (text : List Byte) (key : KeySeq)
    (strat : BitVec 3) : (ready n m text key strat).Inv where
  memory := by
    rw [memory_wf_iff]
    exact ⟨bufWf_writeSeq rfl 0 text, bufWf_writeSeq rfl 0 key, rfl, rfl⟩
  configured _ := ⟨hn, hm, rfl, rfl⟩
  unconfigured h := by cases h
  errFlag := by simp [ready, State.reset]
  errInfo _ := rfl
  errCode := by simp [ready, State.reset]
  errDone h := by cases h
  output h := by cases h
  noOutput _ := rfl
  block := ⟨Nat.pow_pos (by decide), Nat.pow_pos (by decide)⟩
  words := readBuf_nil_none
  idle _ := rfl
  running h := absurd rfl h

/-- A `ready` host keeps its duties. -/
theorem ready_duties (n m : Nat) (text : List Byte) (key : KeySeq) (strat : BitVec 3) :
    HostDuties (ready n m text key strat) text key :=
  ⟨fun _ => readSeq_writeSeq [] 0 text, readSeq_writeSeq [] 0 key⟩

/-- The invariant does not speak of the host's registers. -/
theorem host_registers_inv {s : State} (h : s.Inv) (a b : Int) (p : Bool) (t k : Nat) (x : Int) :
    ({ s with nIn := a, mIn := b, textPresent := p, textlen := t, keylen := k, rdata := x } :
      State).Inv where
  memory := h.memory
  configured := h.configured
  unconfigured := h.unconfigured
  errFlag := h.errFlag
  errInfo := h.errInfo
  errCode := h.errCode
  errDone := h.errDone
  output := h.output
  noOutput := h.noOutput
  block := h.block
  words := h.words
  idle := h.idle
  running := h.running

/-- O3: a well-formed instruction. -/
theorem witness_DecodeAndEncodeAgree : Instr.wellFormed .illegal15 = true := by decide

/-- O4: one state for each clause. -/
theorem witness_StepRunsTheDecodedInstruction :
    (decodeTableWord 8 15 = some .configure ∧ (midway 15 8 1 [] []).phase = 15) ∧
    (({ State.reset with pending := [.writeReg 0 (-1)] } : State).phase = 0 ∧
      decodeCommand (BitVec.ofInt 32 (-1)) = .illegal15) ∧
    (HostAction.writeReg 1 7 ≠ .writeReg 0 7 ∧ HostAction.reset ≠ .writeReg 0 7) ∧
    State.reset.pending = [] := by decide

/-- O5: the largest and the smallest words. -/
theorem witness_FetchedWordIsRunNext :
    decodeTableWord 32 0xFFFFFFFF = some .illegal15 ∧ decodeTableWord 32 0 = some .illegal0 ∧
    decodeTableWord 8 1 = some .checkInput ∧ decodeTableWord 8 15 = some .configure := by decide

/-- O6, O7: operands on both sides of the boundary, each alone and both. -/
theorem witness_ConstructSetsOrClearsTheConfiguration :
    [((1 : Int), (1 : Int)), (0, 1), (1, 0), (-1, 0)].map
      (fun p => pick (fun t => (t.cfgValid, t.errinfo))
        (exec .construct { State.reset with nIn := p.1, mIn := p.2 })) =
    [some (true, 0), some (false, 1), some (false, 2), some (false, 3)] := by decide

/-- O7. -/
theorem witness_ConfigureCompletes :
    [((1 : Int), (1 : Int)), (0, 1), (1, 0), (-1, 0)].map
      (fun p => pick (fun t => (t.cfgValid, t.errinfo))
        (exec .configure { State.reset with nIn := p.1, mIn := p.2, phase := 15 })) =
    [some (true, 0), some (false, 1), some (false, 2), some (false, 3)] := by decide

/-- O8: an instruction that answers a next state and writes no configuration. -/
theorem witness_OnlyConstructWritesTheConfiguration :
    Instr.checkInput ≠ .construct ∧ Instr.checkInput ≠ .configure ∧
    pick State.phase (exec .checkInput (midway 1 8 1 [] [])) = some 2 := by decide

/-- O9: a wrong count; the first offender at index 1 after a good element; a good key at the bound. -/
theorem witness_ValidateKeyChecksCountThenRange :
    (midway 2 8 1 [] []).keylen ≠ (midway 2 8 1 [] []).m ∧
    (∃ s : State, s.keylen = s.m ∧ 1 < s.m ∧ readBuf s.keybuf 1 = some 256 ∧
      (s.maxWord : Int) ≤ 256 ∧
      ∀ j, j < 1 → ∃ x, readBuf s.keybuf j = some x ∧ 0 ≤ x ∧ x < (s.maxWord : Int)) ∧
    (∃ s : State, s.keylen = s.m ∧
      ∀ j, j < s.m → ∃ x, readBuf s.keybuf j = some x ∧ 0 ≤ x ∧ x < (s.maxWord : Int)) := by
  refine ⟨by decide, ⟨midway 2 8 2 [] [255, 256], by decide, by decide, by decide, by decide,
    fun j hj => ⟨255, ?_, by decide, by decide⟩⟩, ⟨midway 2 8 1 [] [255], by decide,
    fun j hj => ⟨255, ?_, by decide, by decide⟩⟩⟩
  · obtain rfl : j = 0 := by omega
    decide
  · obtain rfl : j = 0 := Nat.lt_one_iff.1 hj
    decide

/-- O10: `expandKey` present with a written key of `M` elements; absent. -/
theorem witness_ExpandKeyStoresTheRoundKeys :
    (∃ (s : State) (key : KeySeq), s.strat.getLsbD 0 = true ∧ key.length = s.m ∧
      ∀ i, i < s.m → readBuf s.keybuf i = key[i]?) ∧
    (midway 3 8 1 [] [7] 0b110).strat.getLsbD 0 = false := by
  refine ⟨⟨midway 3 8 2 [] [3, 5], [3, 5], by decide, by decide, ?_⟩, by decide⟩
  show ∀ i, i < 2 → _
  decide

/-- O11, O12: words at the top of the range, the function present; absent. -/
theorem witness_EncryptBlockAppliesTheStrategy :
    (∃ s : State, s.strat.getLsbD 1 = true ∧ s.l < 2 ^ s.n ∧ s.r < 2 ^ s.n) ∧
    (midway 9 8 1 [] [] 0b101).strat.getLsbD 1 = false :=
  ⟨⟨{ midway 9 8 1 [] [] with l := 255, r := 0 }, by decide, by decide, by decide⟩, by decide⟩

/-- O12. -/
theorem witness_DecryptBlockAppliesTheStrategy :
    (∃ s : State, s.strat.getLsbD 2 = true ∧ s.l < 2 ^ s.n ∧ s.r < 2 ^ s.n) ∧
    (midway 10 8 1 [] [] 0b011).strat.getLsbD 2 = false :=
  ⟨⟨{ midway 10 8 1 [] [] with l := 255, r := 255 }, by decide, by decide, by decide⟩, by decide⟩

/-- O13: TOY's transform is round-iterated, with two round keys. -/
theorem witness_RoundKeysAreConsumedInOrder :
    ∃ enc dec : (n m : Nat) → Block n → Int → Block n, toyS.transform = .rounds enc dec ∧
      ([3] ++ [5] : List Int) = [3, 5] := ⟨_, _, rfl, rfl⟩

/-- O14: a layout and a round that inverts, TOY's. -/
theorem witness_InvertibleRoundsGiveTheRoundTrip :
    (∃ (store : List Int → RoundKeyData) (load : RoundKeyData → List Int),
      ∀ rk, load (store rk) = rk) ∧
    ∃ enc dec : (n m : Nat) → Block n → Int → Block n, toyS.transform = .rounds enc dec ∧
      ∀ (b : Block 8) (k : Int), dec 8 1 (enc 8 1 b k) k = b :=
  ⟨⟨id, id, fun _ => rfl⟩, _, _, rfl, fun b k => by simp⟩

/-- O15: a text and its last bit. -/
theorem witness_TextToBitsIsMostSignificantFirst :
    ∃ (s : State) (t : List Byte) (c : Byte), hostText s = .ok t ∧ t[1]? = some c ∧ 7 < 8 :=
  ⟨midway 4 8 1 [0x41, 0x42] [], [0x41, 0x42], 0x42, rfl, rfl, by decide⟩

/-- O16: the smallest word size, a full chunk followed by another, the short last one. -/
theorem witness_ChopCutsIntoChunks :
    1 ≤ (midway 5 1 1 [] []).n ∧ (chop (textToBits [0x41]) 3).length = 3 ∧
    (chop (textToBits [0x41]) 3)[1]? = some [false, false, false] ∧
    (chop (textToBits [0x41]) 3)[2]? = some [false, true] := by decide

/-- O17: exactly as many bits as the words need. -/
theorem witness_ParseWordsReadsEachChunk :
    ∃ s : State, s.wcount * s.n ≤ s.bitbuf.length ∧ 1 < s.wcount ∧ 7 < s.n :=
  ⟨{ midway 6 8 1 [] [] with bitbuf := textToBits [0x41, 0x42], wcount := 2 }, by decide⟩

/-- O18: an odd and an even count, and an element that is not the padding word's. -/
theorem witness_PadEvenAppendsOneZeroWord :
    ({ midway 7 8 1 [] [] with wcount := 1 } : State).wcount % 2 = 1 ∧
    (midway 7 8 1 [] []).wcount % 2 = 0 ∧ 0 ≠ 1 := by decide

/-- O19. -/
theorem witness_PairBlocksLoadsTheBlock :
    ∃ s : State, readBuf s.wbuf (2 * s.blk) = some 65 ∧ readBuf s.wbuf (2 * s.blk + 1) = some 0 ∧
      (padEven [65]).length % 2 = 0 ∧ (padEven [65])[2 * 0]? = some 65 ∧
      (padEven [65])[2 * 0 + 1]? = some 0 :=
  ⟨{ midway 8 8 1 [] [] with wbuf := [(0, 65), (1, 0)] }, by decide⟩

/-- O20: the last block, and one before it. -/
theorem witness_FlattenWritesTheBlockBack :
    (∃ s : State, s.blk < s.bcount ∧ s.blk + 1 < s.bcount) ∧
    (∃ s : State, s.blk < s.bcount ∧ ¬ s.blk + 1 < s.bcount) ∧ [2, 0].length % 2 = 0 :=
  ⟨⟨{ midway 11 8 1 [] [] with bcount := 2 }, by decide⟩,
   ⟨{ midway 11 8 1 [] [] with bcount := 1 }, by decide⟩, by decide⟩

/-- O21: words at the top of the range; a word just above it. -/
theorem witness_EnsureNBitsPadsAndNeverTruncates :
    (∃ (s : State) (ws : List Nat), ws.length = s.wcount ∧
      (∀ k, k < s.wcount → readBuf s.wbuf k = ws[k]?) ∧ (∀ w ∈ ws, w < 2 ^ s.n) ∧
      ws[1]? = some 255 ∧ 7 < s.n) ∧
    (∃ (s : State) (ws : List Nat), ws.length = s.wcount ∧
      (∀ k, k < s.wcount → readBuf s.wbuf k = ws[k]?) ∧ ∃ w ∈ ws, 2 ^ s.n ≤ w) := by
  refine ⟨⟨{ midway 12 8 1 [] [] with wbuf := [(0, 0), (1, 255)], wcount := 2 }, [0, 255], rfl, ?_,
    by decide, rfl, by decide⟩,
    ⟨{ midway 12 8 1 [] [] with wbuf := [(0, 256)], wcount := 1 }, [256], rfl, ?_, by decide⟩⟩
  · show ∀ k, k < 2 → _
    decide
  · show ∀ k, k < 1 → _
    decide

/-- O22: a length that is a multiple of 8, and one that is not. -/
theorem witness_AlignCheckTestsTheLength :
    (3 * ({ midway 13 3 1 [] [] with wcount := 8 } : State).wcount) % 8 = 0 ∧
    (3 * ({ midway 13 3 1 [] [] with wcount := 4 } : State).wcount) % 8 ≠ 0 := by decide

/-- O23: two bytes; the last bit of the last byte; the first element above the result. -/
theorem witness_BitsToTextPublishesTheBytes :
    pick (fun t => (t.outlen, outByte t 1)) (exec .bitsToText { midway 14 8 1 [] [] with
      bitbuf := textToBits [0x41, 0x42] }) = some (2, 0x42) ∧
    (textToBits [0x41, 0x42]).length % 8 = 0 := by decide

/-- O24: an even and an odd word count; words of 3 bits. -/
theorem witness_CodecInverseLaws :
    ((8 * [0x41, 0x42, 0x43].length) % 3 = 0 ∧ (8 * [0x41, 0x42, 0x43].length / 3) % 2 = 0) ∧
    ((8 * [0x41].length) % 8 = 0 ∧ (8 * [0x41].length / 8) % 2 = 1) ∧
    ([2, 0, 2, 4, 1, 1, 0, 3].length % 2 = 0 ∧ (3 * [2, 0, 2, 4, 1, 1, 0, 3].length) % 8 = 0 ∧
      ∀ w ∈ [2, 0, 2, 4, 1, 1, 0, 3], w < 2 ^ 3) := by decide

/-- O25: an even and an odd word count, with their results (V43-1, V43-2). -/
theorem witness_ResultLengthFollowsFromTheText :
    (textFunction toyS .enc 8 2 [0x41, 0x42] [3, 5]).map Except.toOption = some (some [0x04, 0x4B]) ∧
    (textFunction toyS .enc 8 2 [0x41] [3, 5]).map Except.toOption = some (some [0x42, 0x47]) := by decide

/-- O26: a state for each clause. -/
theorem witness_CheckInputTestsInOrder :
    State.reset.cfgValid = false ∧
    (({ midway 1 3 2 [0x41] [1] with textPresent := false } : State).textPresent = false) ∧
    (8 * (midway 1 3 2 [0x41] [1]).textlen) % 3 ≠ 0 ∧
    (8 * (midway 1 1 2 [] [1]).textlen) % 1 = 0 ∧ (midway 1 1 2 [] [1]).cfgValid = true ∧
    (midway 1 1 2 [] [1]).textPresent = true ∧ 1 ≤ (midway 1 1 2 [] [1]).n := by decide

/-- O27: both directions, an odd word count. -/
theorem witness_TextCommandComputesItsFunction (d : Dir) :
    (ready 8 2 [0x41] [3, 5]).Inv ∧ HostDuties (ready 8 2 [0x41] [3, 5]) [0x41] [3, 5] ∧
    firstError d (ready 8 2 [0x41] [3, 5]) [0x41] [3, 5] = none :=
  ⟨ready_inv (by decide) (by decide) _ _ _, ready_duties _ _ _ _ _, by cases d <;> decide⟩

/-- O28: an error of the key at the bound, and the absent block function. -/
theorem witness_TextCommandReportsTheFirstError :
    (ready 8 1 [0x41] [256]).Inv ∧ HostDuties (ready 8 1 [0x41] [256]) [0x41] [256] ∧
    firstError .enc (ready 8 1 [0x41] [256]) [0x41] [256] = some (.keyRange, 0) ∧
    firstError .dec (ready 8 1 [0x41] [255] 0b011) [0x41] [255] = some (.notImplemented, 2) ∧
    firstError .enc State.reset [] [] = some (.configuration, 4) :=
  ⟨ready_inv (by decide) (by decide) _ _ _, ready_duties _ _ _ _ _, by decide, by decide, by decide⟩

/-- O29: a validation error, `expandKey` absent, `encryptBlock` absent. -/
theorem witness_ValidationFailsBeforeTheStrategyRuns :
    (ready 8 1 [0x41] [256]).Inv ∧
    pick (fun t => (t.err, t.errcode)) (exec (textInstr .enc) (ready 8 1 [0x41] [256])) =
      some (true, 3) ∧
    pick (fun t => (t.errcode, t.errinfo)) (exec (textInstr .enc) (ready 8 1 [0x41] [1] 0b110)) =
      some (6, 0) ∧
    pick (fun t => (t.errcode, t.errinfo)) (exec (textInstr .enc) (ready 8 1 [0x41] [1] 0b101)) =
      some (6, 1) :=
  ⟨ready_inv (by decide) (by decide) _ _ _, by decide, by decide, by decide⟩

/-- A text command of the machine that completes. -/
theorem ready_completes (d : Dir) :
    ∃ u, exec (textInstr d) (ready 8 2 [0x41] [3, 5]) = .next u := by
  have h := textCommandWith_completes Config.strategy d (fun _ => ⟨by decide, rfl⟩)
    (ready_duties 8 2 [0x41] [3, 5] 0b111) (by cases d <;> decide)
    (textFunction_ok Config.strategy d (m := 2) (by decide) [3, 5] (by decide))
  cases d <;> exact ⟨_, h⟩

/-- O30, O33: a state of the invariant whose command answers a next state. -/
theorem witness_CodecAlignmentErrorIsUnreachable (d : Dir) :
    (ready 8 2 [0x41] [3, 5]).Inv ∧ ∃ u, exec (textInstr d) (ready 8 2 [0x41] [3, 5]) = .next u :=
  ⟨ready_inv (by decide) (by decide) _ _ _, ready_completes d⟩

/-- O31: IDENT inverts, and a text whose encryption succeeds; one byte, an odd word count. -/
theorem witness_DecryptionUndoesEncryption :
    (ready 8 2 [0x41] [3, 5]).Inv ∧ HostDuties (ready 8 2 [0x41] [3, 5]) [0x41] [3, 5] ∧
    (ready 8 2 [0x41] [3, 5]).strat = 0b111 ∧ identS.Inverts 8 2 ∧
    firstError .enc (ready 8 2 [0x41] [3, 5]) [0x41] [3, 5] = none ∧
    ∃ u, textCommandWith identS .enc (ready 8 2 [0x41] [3, 5]) = .next u :=
  ⟨ready_inv (by decide) (by decide) _ _ _, ready_duties _ _ _ _ _, rfl, fun _ _ => rfl, by decide,
    ⟨_, textCommandWith_completes identS .enc (fun _ => ⟨by decide, rfl⟩)
      (ready_duties 8 2 [0x41] [3, 5] 0b111) (by decide)
      (textFunction_ok identS .enc (m := 2) (by decide) [3, 5] (by decide))⟩⟩

/-- O32: two states that agree on the operands and differ elsewhere. -/
theorem witness_CommandDependsOnItsOperandsOnly :
    ∃ s s' : State, s ≠ s' ∧ s.Inv ∧ s'.Inv ∧ SameOperands s s' ∧ s.nIn = s'.nIn ∧
      s.mIn = s'.mIn ∧ ∃ u, exec (textInstr .enc) s = .next u := by
  have h := ready_inv (n := 8) (m := 2) (by decide) (by decide) [0x41] [3, 5] 0b111
  exact ⟨ready 8 2 [0x41] [3, 5], { ready 8 2 [0x41] [3, 5] with rdata := 1 }, by decide, h,
    host_registers_inv h _ _ _ _ _ 1, ⟨rfl, rfl, fun _ => rfl, fun _ _ _ => rfl, rfl,
    fun _ _ => rfl, rfl⟩, rfl, rfl, ready_completes .enc⟩

/-- O33. -/
theorem witness_TextCommandIsIdempotent (d : Dir) :
    (ready 8 2 [0x41] [3, 5]).Inv ∧ ∃ u, exec (textInstr d) (ready 8 2 [0x41] [3, 5]) = .next u :=
  witness_CodecAlignmentErrorIsUnreachable d

/-- O34: the empty text with a good key, with `expandKey` absent, with a wrong count, with an element at
the bound. -/
theorem witness_EmptyTextGivesTheEmptyResult :
    (ready 8 1 [] [255]).Inv ∧ (ready 8 1 [] [255]).textlen = 0 ∧
    hostKey (ready 8 1 [] [255]) = .ok [255] ∧ (∀ k ∈ [(255 : Int)], 0 ≤ k ∧ k < (2 : Int) ^ 8) ∧
    (ready 8 1 [] [255] 0b001).strat.getLsbD 0 = true ∧
    (ready 8 1 [] [255] 0b110).strat.getLsbD 0 = false ∧
    (ready 8 1 [] [0, 0]).keylen ≠ (ready 8 1 [] [0, 0]).m ∧
    ∃ k ∈ [(256 : Int)], k < 0 ∨ (2 : Int) ^ 8 ≤ k :=
  ⟨ready_inv (by decide) (by decide) _ _ _, rfl, rfl, by decide, by decide, by decide, by decide,
    by decide⟩

/-- O35: V43-3 and V43-21: the texts differ in block 1 only. -/
theorem witness_BlocksAreTransformedIndependently :
    (textFunction toyS .enc 8 2 [0x41, 0x42, 0x41, 0x42] [3, 5]).map Except.toOption =
      some (some [0x04, 0x4B, 0x04, 0x4B]) ∧
    (textFunction toyS .enc 8 2 [0x41, 0x42, 0x41, 0x43] [3, 5]).map Except.toOption =
      some (some [0x04, 0x4B, 0x07, 0x4F]) ∧
    slice (textToBits [0x41, 0x42, 0x41, 0x42]) 0 16 =
      slice (textToBits [0x41, 0x42, 0x41, 0x43]) 0 16 := by decide

/-- O37: a step at every phase, with the next phase: a command on one block, then FLATTEN before the last
block, PAD_EVEN on nothing, DECRYPT_BLOCK absent. -/
theorem witness_PhaseFollowsTheTransferTable :
    pick State.phase (step (midway 1 8 1 [0x41] [1])) = some 2 ∧
    pick State.phase (step (midway 2 8 1 [0x41] [1])) = some 3 ∧
    pick State.phase (step (midway 3 8 1 [0x41] [1])) = some 4 ∧
    pick State.phase (step (midway 4 8 1 [0x41] [1])) = some 5 ∧
    pick State.phase (step (midway 5 8 1 [0x41] [1])) = some 6 ∧
    pick State.phase (step (midway 6 8 1 [0x41] [1])) = some 7 ∧
    pick State.phase (step (midway 7 8 1 [0x41] [1])) = some 12 := by decide

/-- O37, the later phases. -/
theorem witness_PhaseFollowsTheTransferTable_later :
    pick State.phase (step { midway 8 8 1 [] [] with dir := .dec }) = some 10 ∧
    pick State.phase (step (midway 9 8 1 [] [])) = some 11 ∧
    pick State.phase (step (midway 10 8 1 [] [] 0b011)) = some 0 ∧
    pick State.phase (step { midway 11 8 1 [] [] with bcount := 2 }) = some 8 ∧
    pick State.phase (step { midway 11 8 1 [] [] with bcount := 1 }) = some 12 ∧
    pick State.phase (step (midway 12 8 1 [] [])) = some 13 ∧
    pick State.phase (step (midway 13 8 1 [] [])) = some 14 ∧
    pick State.phase (step (midway 14 8 1 [] [])) = some 0 ∧
    pick State.phase (step (midway 15 8 1 [] [])) = some 0 := by decide

/-- O39: the first, a middle and the last unassigned opcode. -/
theorem witness_IllegalCommandRaises :
    Instr.illegalOp .illegal0 = some 0 ∧ Instr.illegalOp .illegal9 = some 9 ∧
    Instr.illegalOp .illegal15 = some 15 := by decide

/-- O40: a command that errs and one that does not. -/
theorem witness_EveryCommandEndsIdle :
    pick State.err (exec (decodeCommand 0) State.reset) = some true ∧
    pick State.err (exec (decodeCommand 1) { State.reset with nIn := 1, mIn := 1 }) =
      some false := by decide

/-- O41: an instruction that answers a next state. -/
theorem witness_NoInstructionWritesTheHostSide :
    pick State.nIn (exec .construct { State.reset with nIn := 5, mIn := 1 }) = some 5 := by decide

/-- O42: an instruction of the first clause; BITS_TO_TEXT in the second. -/
theorem witness_OnlyBitsToTextWritesOutbuf :
    pick State.outbuf (exec .illegal0 State.reset) = some [] ∧
    pick (fun t => (t.outbuf, t.outlen)) (exec .bitsToText { midway 14 8 1 [] [] with
      bitbuf := textToBits [0x41], outbuf := [(0, 0), (5, 9)] }) =
      some ([(0, 0x41), (5, 9)], 1) := by decide

/-- O43: elements the host never wrote; the key's at index 1 after a good one. -/
theorem witness_UnwrittenElementsAreRefused :
    (0 < ({ midway 4 8 1 [] [] with textlen := 1 } : State).textlen ∧
      readBuf ({ midway 4 8 1 [] [] with textlen := 1 } : State).inbuf 0 = none) ∧
    (∃ s : State, s.keylen = s.m ∧ 1 < s.m ∧ readBuf s.keybuf 1 = none ∧
      s.strat.getLsbD 0 = true ∧
      ∀ j, j < 1 → ∃ x, readBuf s.keybuf j = some x ∧ 0 ≤ x ∧ x < (s.maxWord : Int)) := by
  refine ⟨by decide, ⟨{ midway 2 8 2 [] [255] with keylen := 2 }, by decide, by decide, by decide,
    by decide, fun j hj => ⟨255, ?_, by decide, by decide⟩⟩⟩
  obtain rfl : j = 0 := by omega
  decide

/-- O44: a key with one element written of two; a text with one byte written of two, the key good. -/
theorem witness_TextCommandRefusesUnwrittenElements :
    (∃ s : State, s.Inv ∧ s.cfgValid = true ∧ s.textPresent = true ∧ (8 * s.textlen) % s.n = 0 ∧
      s.keylen = s.m ∧ 1 < s.m ∧ readBuf s.keybuf 1 = none ∧
      ∀ j, j < 1 → ∃ x, readBuf s.keybuf j = some x ∧ 0 ≤ x ∧ x < (2 : Int) ^ s.n) ∧
    (∃ s : State, s.Inv ∧ s.cfgValid = true ∧ s.textPresent = true ∧ (8 * s.textlen) % s.n = 0 ∧
      s.keylen = s.m ∧ s.strat.getLsbD 0 = true ∧ 1 < s.textlen ∧ readBuf s.inbuf 1 = none ∧
      ∀ j, j < s.m → ∃ x, readBuf s.keybuf j = some x ∧ 0 ≤ x ∧ x < (2 : Int) ^ s.n) := by
  constructor
  · refine ⟨{ ready 8 2 [0x41] [255] with keylen := 2 },
      host_registers_inv (ready_inv (by decide) (by decide) _ _ _) _ _ _ _ _ _, rfl, rfl, by decide,
      rfl, by decide, by decide, fun j hj => ⟨255, ?_, by decide, by decide⟩⟩
    obtain rfl : j = 0 := by omega
    decide
  · refine ⟨{ ready 8 1 [0x41] [255] with textlen := 2 },
      host_registers_inv (ready_inv (by decide) (by decide) _ _ _) _ _ _ _ _ _, rfl, rfl, by decide,
      rfl, by decide, by decide, by decide, fun j hj => ⟨255, ?_, by decide, by decide⟩⟩
    obtain rfl : j = 0 := Nat.lt_one_iff.1 hj
    decide

/-- O45: a state for each clause, at the first value outside the contract. -/
theorem witness_MicroOperationsOutsideTheirContract :
    (∃ s : State, s.strat.getLsbD 1 = true ∧ s.strat.getLsbD 2 = true ∧ 2 ^ s.n ≤ s.l) ∧
    (∃ s : State, s.strat.getLsbD 1 = true ∧ s.strat.getLsbD 2 = true ∧ s.l < 2 ^ s.n ∧
      2 ^ s.n ≤ s.r) ∧
    (∃ s : State, s.bitbuf.length < s.wcount * s.n) ∧
    readBuf (midway 8 8 1 [] []).wbuf (2 * (midway 8 8 1 [] []).blk) = none ∧
    (∃ s : State, readBuf s.wbuf (2 * s.blk) = some 65 ∧ readBuf s.wbuf (2 * s.blk + 1) = none) ∧
    (∃ s : State, (∀ k, k < s.wcount → ∀ w, readBuf s.wbuf k = some w → w < 2 ^ s.n) ∧
      readBuf s.wbuf 0 = none ∧ readBuf s.wbuf 1 = some 255 ∧ s.wcount = 2 ∧ 7 < s.n) ∧
    (∃ s : State, 0 < s.wcount ∧ readBuf s.wbuf 0 = some 256 ∧ 2 ^ s.n ≤ 256) ∧
    State.reset.n = 0 ∧ (midway 11 8 1 [] []).bcount ≤ (midway 11 8 1 [] []).blk :=
  ⟨⟨{ midway 9 8 1 [] [] with l := 256 }, by decide⟩,
   ⟨{ midway 9 8 1 [] [] with l := 255, r := 256 }, by decide⟩,
   ⟨{ midway 6 8 1 [] [] with wcount := 1 }, by decide⟩, by decide,
   ⟨{ midway 8 8 1 [] [] with wbuf := [(0, 65)] }, by decide⟩,
   ⟨{ midway 12 8 1 [] [] with wbuf := [(1, 255)], wcount := 2 }, by
      constructor
      · intro k hk w hw
        have hk : k < 2 := hk
        obtain rfl | rfl : k = 0 ∨ k = 1 := by omega
        · cases hw
        · cases hw; decide
      · decide⟩,
   ⟨{ midway 12 8 1 [] [] with wbuf := [(0, 256)], wcount := 1 }, by decide⟩, by decide, by decide⟩

/-- O47: registers outside the map and read-only ones, at the ends of their ranges. -/
theorem witness_RegisterReadsAndIgnoredWrites :
    (0 = 0 ∨ 0x0F < 0) ∧ (0x10 = 0 ∨ 0x0F < 0x10) ∧ (1 ≤ 3 ∧ 3 ≤ 3) ∧ (6 ≤ 0x0A ∧ 0x0A ≤ 0x0A) ∧
    0x0E ≤ 0x0F := by decide

/-- O48: a negative length, the first one below the port's range. -/
theorem witness_HostWritesStoreTheirValue :
    (-1 : Int) < 0 ∧ refusal (hostAccess (.writeReg 0x0C (-1)) State.reset) = some .valueNotCarried ∧
    refusal (hostAccess (.writeReg 0x0D (-1)) State.reset) = some .valueNotCarried := by decide

/-- O49: elements written and not written, and a result byte. -/
theorem witness_HostReadsReturnTheElement :
    readBuf (ready 8 1 [0x41] [7]).inbuf 0 = some 0x41 ∧
    readBuf (ready 8 1 [0x41] [7]).inbuf 1 = none ∧
    readBuf (ready 8 1 [0x41] [7]).keybuf 0 = some 7 ∧
    readBuf (ready 8 1 [0x41] [7]).keybuf 1 = none ∧
    (∃ s : State, s.outValid = true ∧ 0 < s.outlen ∧ readBuf s.outbuf 0 = some 0x41) :=
  ⟨rfl, rfl, rfl, rfl,
    ⟨{ ready 8 1 [] [] with outValid := true, outlen := 1, outbuf := [(0, 0x41)] }, by decide⟩⟩

/-- O51: register numbers other than STRAT's. -/
theorem witness_HostResetRestoresTheResetValues : (0x0E ≠ 0x0F) ∧ (0 ≠ 0x0F) := by decide

/-- O52: a state for each clause. -/
theorem witness_MissingInitialisationRaises :
    (∃ s : State, s.Inv ∧ s.cfgValid = false) ∧
    (∃ s : State, s.Inv ∧ s.cfgValid = true ∧ s.textPresent = false) ∧
    (∃ s : State, s.Inv ∧ s.cfgValid = true ∧ s.textPresent = true ∧ (8 * s.textlen) % s.n = 0 ∧
      s.keylen = 0) ∧
    (∃ s : State, s.Inv ∧ s.nIn = 0 ∧ s.mIn = 0) := by
  have h := ready_inv (n := 8) (m := 1) (by decide) (by decide) [] [] 0b111
  exact ⟨⟨raiseError .configuration 3 (clearConfig (ready 8 1 [] [])),
      raiseError_inv _ _ h.memory (fun h => by cases h) (fun _ => ⟨rfl, rfl, rfl, rfl⟩), rfl⟩,
    ⟨{ ready 8 1 [] [] with textPresent := false }, host_registers_inv h _ _ _ _ _ _, rfl, rfl⟩,
    ⟨_, h, rfl, rfl, by decide, rfl⟩,
    ⟨{ ready 8 1 [] [] with nIn := 0, mIn := 0 }, host_registers_inv h _ _ _ _ _ _, rfl, rfl⟩⟩

/-- O53: canonical buffers of words, of bytes and of integers. -/
theorem witness_BufferReadsTheLatestWrite :
    bufWf ([(0, 0x41), (2, 0xFF)] : Buf Byte) = true ∧ bufWf ([(0, -1), (7, 3)] : Buf Int) = true ∧
    bufWf [(0, 1), (2, 3)] = true ∧ bufWf (writeBuf [(2, 3)] 0 1) = true ∧
    writeBuf [(2, 3)] 0 1 = [(0, 1), (2, 3)] := by decide

/-- O55: a state of the invariant whose step answers a next state: a host action, and a command. -/
theorem witness_EveryStepKeepsTheInvariant :
    (ready 8 1 [] [0]).Inv ∧ (∃ t, step (ready 8 1 [] [0]) = .next t) ∧
    ∃ t, step ((ready 8 1 [] [0]).withFetchWord 32 0) = .next t :=
  ⟨ready_inv (by decide) (by decide) _ _ _, ⟨_, rfl⟩, ⟨_, rfl⟩⟩

/-- O56: words at the top of the range, both block functions present. -/
theorem witness_RoundIndexAfterABlockTransform :
    ∃ s : State, s.strat.getLsbD 1 = true ∧ s.strat.getLsbD 2 = true ∧ s.l < 2 ^ s.n ∧
      s.r < 2 ^ s.n :=
  ⟨{ midway 9 8 1 [] [] with l := 255, r := 255 }, by decide⟩

/-- O57: 42_codec.md R131's own example of a short chunk, `chop(01000001, 3)`, and texts on both sides. -/
theorem witness_TextToBlocksIsPartial :
    textToBlocks 3 [0x41] = none ∧ (textToBlocks 3 [0x41, 0x42, 0x43]).isSome = true ∧
    parseWords 3 (chop (textToBits [0x41]) 3) = none ∧
    ∃ c ∈ chop (textToBits [0x41]) 3, c.length < 3 := by decide

/-- O58: a written key of `M` elements and every function present. -/
theorem witness_StoredRoundKeysAreReadBack :
    ∃ (s t : State) (key : KeySeq), s.strat = 0b111 ∧ key.length = s.m ∧
      (∀ i, i < s.m → readBuf s.keybuf i = key[i]?) ∧ exec .expandKey s = .next t ∧
      t.l < 2 ^ t.n ∧ t.r < 2 ^ t.n := by
  refine ⟨{ midway 3 8 2 [] [3, 5] with l := 255 }, _, [3, 5], rfl, rfl, ?_, rfl, by decide, by decide⟩
  show ∀ i, i < 2 → _
  decide

end Sys2Proof.Tests
end

section
/-!
SUPPORT. One equation for each case of `step`, and the statement they settle (00_scope.md R11).
-/
namespace Sys2Proof.Machine

/-- Only `PHASE = 0` names no micro-operation: the sequencer is idle (30_encoding.md R76). -/
@[simp] theorem decodePhase_zero : decodePhase 0 = .error .idle := rfl

theorem step_of_decodePhase_ok {s : State} {i : Instr} (h : decodePhase s.phase = .ok i) :
    step s = exec i s := by
  simp only [step, h]

theorem step_idle_command {s : State} {v : Int} {rest : List HostAction} (hidle : s.phase = 0)
    (hpending : s.pending = .writeReg 0 v :: rest) :
    step s = exec (decodeCommand (commandWord v)) { s with pending := rest } := by
  simp only [step, hidle, decodePhase_zero, hpending]

/-- `hcmd` excludes the command case of `step`'s queue, so the case for any other access is taken. -/
theorem step_idle_hostAccess {s : State} {a : HostAction} {rest : List HostAction}
    (hidle : s.phase = 0) (hpending : s.pending = a :: rest) (hcmd : ∀ v, a ≠ .writeReg 0 v) :
    step s = hostAccess a { s with pending := rest } := by
  simp only [step, hidle, decodePhase_zero, hpending]

theorem step_idle_nil {s : State} (hidle : s.phase = 0) (hpending : s.pending = []) :
    step s = .next s := by
  simp only [step, hidle, decodePhase_zero, hpending]

/-- Settles O4: each clause is one case of `step`; the decoder's success on a command word names the
instruction that `step` runs. -/
theorem stepRunsTheDecodedInstruction : Obligations.StepRunsTheDecodedInstruction := by
  refine ⟨fun _ _ hdecode => step_of_decodePhase_ok hdecode, ?command,
    fun _ _ _ hidle hpending hcmd => step_idle_hostAccess hidle hpending hcmd,
    fun _ hidle hpending => step_idle_nil hidle hpending⟩
  case command =>
    intro s v rest i hidle hpending hdecode
    have hinstr : decodeCommand (commandWord v) = i := Except.ok.inj hdecode
    rw [step_idle_command hidle hpending, hinstr]

end Sys2Proof.Machine
end

section
/-!
SUPPORT. The invariant along a step (Safety.lean): after reset, over every host action, every command and
every micro-operation.
-/
namespace Sys2Proof.Machine

variable {s t : State}

/-! ### Reset -/

/-- The reset values of R41, whatever the strap and the model's own fields hold. -/
theorem resetValues_inv (strat : BitVec 3) (pending : List HostAction) (rdata : Int) (freeCtr : Nat) :
    ({ State.reset with strat := strat, pending := pending, rdata := rdata, freeCtr := freeCtr } :
      State).Inv where
  memory := rfl
  configured h := nomatch h
  unconfigured _ := ⟨rfl, rfl, rfl, rfl⟩
  errFlag := iff_of_false Bool.false_ne_true (fun h => h rfl)
  errInfo _ := rfl
  errCode := Nat.zero_le 7
  errDone h := nomatch h
  output h := nomatch h
  noOutput _ := rfl
  block := ⟨Nat.one_pos, Nat.one_pos⟩
  words := readBuf_nil_none
  idle _ := rfl
  running h := absurd rfl h

/-- Settles O54: the state after reset is the reset values with its own strap and model fields. -/
theorem resetMeetsTheInvariant : Obligations.ResetMeetsTheInvariant :=
  resetValues_inv State.reset.strat State.reset.pending State.reset.rdata State.reset.freeCtr

/-- R40: losing the hidden state keeps the invariant, its free words of `N` bits in range. -/
theorem loseHidden_keeps (h : s.Inv) : (loseHidden s).Inv where
  memory := by
    obtain ⟨hin, hkey, hout, -⟩ := (memory_wf_iff s).1 h.memory
    exact (memory_wf_iff _).2 ⟨hin, hkey, hout, rfl⟩
  configured := h.configured
  unconfigured := h.unconfigured
  errFlag := h.errFlag
  errInfo := h.errInfo
  errCode := h.errCode
  errDone := h.errDone
  output := h.output
  noOutput := h.noOutput
  block := ⟨Nat.mod_lt _ (by positivity), Nat.mod_lt _ (by positivity)⟩
  words := readBuf_nil_none
  idle := h.idle
  running := h.running

theorem resetMachine_inv (s : State) : (resetMachine s).Inv :=
  loseHidden_keeps (resetValues_inv s.strat s.pending s.rdata s.freeCtr)

/-! ### Host actions -/

/-- `t` is `s` but for the registers and buffers the host writes, its queue and its last read. -/
def OnlyHostSideDiffers (s t : State) : Prop :=
  t = { s with nIn := t.nIn, mIn := t.mIn, textPresent := t.textPresent, textlen := t.textlen,
               keylen := t.keylen, inbuf := t.inbuf, keybuf := t.keybuf, pending := t.pending,
               rdata := t.rdata }

/-- Of the host's side the invariant says only that the two input buffers are canonical. -/
theorem onlyHostSideDiffers_keeps (h : s.Inv) (hst : OnlyHostSideDiffers s t)
    (hin : bufWf t.inbuf = true) (hkey : bufWf t.keybuf = true) : t.Inv := by
  rw [hst]
  exact {
    memory := by
      obtain ⟨-, -, hout, hwords⟩ := (memory_wf_iff s).1 h.memory
      exact (memory_wf_iff _).2 ⟨hin, hkey, hout, hwords⟩
    configured := h.configured
    unconfigured := h.unconfigured
    errFlag := h.errFlag
    errInfo := h.errInfo
    errCode := h.errCode
    errDone := h.errDone
    output := h.output
    noOutput := h.noOutput
    block := h.block
    words := h.words
    idle := h.idle
    running := h.running }

theorem pending_keeps (h : s.Inv) (rest : List HostAction) : ({ s with pending := rest } : State).Inv := by
  obtain ⟨hin, hkey, -, -⟩ := (memory_wf_iff s).1 h.memory
  exact onlyHostSideDiffers_keeps h rfl hin hkey

/-- A host write to a register reaches neither buffer. -/
theorem writeRegister_hostSide {no : Nat} {v : Int} (h : writeRegister no v s = .next t) :
    OnlyHostSideDiffers s t ∧ t.inbuf = s.inbuf ∧ t.keybuf = s.keybuf := by
  unfold writeRegister at h
  split at h
  case h_4 | h_5 =>
    split_ifs at h
    cases h
    exact ⟨rfl, rfl, rfl⟩
  all_goals cases h; exact ⟨rfl, rfl, rfl⟩

/-- What a host action can do (R217): reset the machine, or write the host's side, its buffers in
canonical form. -/
theorem hostAccess_cases {a : HostAction} (hm : Memory.wf s = true) (h : hostAccess a s = .next t) :
    t = resetMachine s ∨
      OnlyHostSideDiffers s t ∧ bufWf t.inbuf = true ∧ bufWf t.keybuf = true := by
  obtain ⟨hin, hkey, -, -⟩ := (memory_wf_iff s).1 hm
  cases a with
  | writeReg no v =>
    obtain ⟨hside, hin', hkey'⟩ := writeRegister_hostSide h
    exact .inr ⟨hside, hin' ▸ hin, hkey' ▸ hkey⟩
  | writeInbuf i b => cases h; exact .inr ⟨rfl, bufWf_writeBuf hin i b, hkey⟩
  | writeKeybuf i k => cases h; exact .inr ⟨rfl, hin, bufWf_writeBuf hkey i k⟩
  | writeOutbuf i b => cases h; exact .inr ⟨rfl, hin, hkey⟩
  | readReg no => cases h; exact .inr ⟨rfl, hin, hkey⟩
  | readInbuf i =>
    simp only [hostAccess] at h
    split at h <;> cases h
    exact .inr ⟨rfl, hin, hkey⟩
  | readKeybuf i =>
    simp only [hostAccess] at h
    split at h <;> cases h
    exact .inr ⟨rfl, hin, hkey⟩
  | readOutbuf i => cases h; exact .inr ⟨rfl, hin, hkey⟩
  | reset => cases h; exact .inl rfl

theorem hostAccess_keeps {a : HostAction} (h : s.Inv) (hx : hostAccess a s = .next t) : t.Inv := by
  obtain rfl | ⟨hside, hin, hkey⟩ := hostAccess_cases h.memory hx
  · exact resetMachine_inv s
  · exact onlyHostSideDiffers_keeps h hside hin hkey

/-! ### Commands -/

/-- R73: an illegal command raises with its own opcode as detail. -/
theorem exec_of_illegalOp {i : Instr} {op : BitVec 4} (h : i.illegalOp = some op) (s : State) :
    exec i s = .next (raiseError .illegalCommand op.toNat (startCommand s)) := by
  cases i <;> cases h <;> rfl

theorem exec_textInstr (d : Dir) (s : State) :
    exec (textInstr d) s = textCommandWith Config.strategy d s := by
  cases d <;> rfl

/-- R71, R73: a command word is CONSTRUCT, a text command or an illegal command. -/
theorem decodeCommand_cases (w : BitVec 32) :
    decodeCommand w = .construct ∨ (∃ d, decodeCommand w = textInstr d) ∨
      ∃ op, (decodeCommand w).illegalOp = some op := by
  unfold decodeCommand decodeOp
  split
  · exact .inl rfl
  · exact .inr (.inl ⟨.enc, rfl⟩)
  · exact .inr (.inl ⟨.dec, rfl⟩)
  all_goals exact .inr (.inr ⟨_, rfl⟩)

theorem execConstruct_keeps (h : s.Inv) (hx : exec .construct s = .next t) : t.Inv := by
  have hentered : (toPhase 15 (startCommand s)).Inv :=
    toPhase_keeps (enterText_keeps h s.dir) (by simp) (by decide)
  exact configureBody_keeps hentered (by simp) hx

theorem exec_illegal_keeps {i : Instr} {op : BitVec 4} (h : s.Inv) (hop : i.illegalOp = some op)
    (hx : exec i s = .next t) : t.Inv := by
  rw [exec_of_illegalOp hop] at hx
  cases hx
  exact raiseError_inv _ _ h.memory h.configured h.unconfigured

theorem exec_decodeCommand_keeps {w : BitVec 32} (h : s.Inv)
    (hx : exec (decodeCommand w) s = .next t) : t.Inv := by
  obtain hc | ⟨d, hd⟩ | ⟨op, hop⟩ := decodeCommand_cases w
  · exact execConstruct_keeps h (hc ▸ hx)
  · rw [hd, exec_textInstr] at hx
    exact textCommandWith_keeps h hx
  · exact exec_illegal_keeps h hop hx

/-! ### Micro-operations and the step -/

/-- Inside a command every instruction keeps the invariant. -/
theorem exec_running_keeps {i : Instr} (h : s.Inv) (hp : s.phase ≠ 0) (hx : exec i s = .next t) :
    t.Inv := by
  cases i with
  | construct => exact execConstruct_keeps h hx
  | encryptAscii => exact textCommandWith_keeps (d := .enc) h hx
  | decryptAscii => exact textCommandWith_keeps (d := .dec) h hx
  | illegal0 | illegal4 | illegal5 | illegal6 | illegal7 | illegal8 | illegal9 | illegal10 | illegal11
  | illegal12 | illegal13 | illegal14 | illegal15 => exact exec_illegal_keeps h rfl hx
  | checkInput => exact execCheckInput_keeps h hp hx
  | validateKey => exact execValidateKey_keeps h hp hx
  | expandKey => exact expandKeyWith_keeps h hp hx
  | textToBits => exact execTextToBits_keeps h hp hx
  | chopN => exact execChopN_keeps h hp hx
  | parseWords => exact execParseWords_keeps h hp hx
  | padEven => exact execPadEven_keeps h hp hx
  | pairBlocks => exact execPairBlocks_keeps h hp hx
  | encryptBlock => exact encryptBlockWith_keeps h hp hx
  | decryptBlock => exact decryptBlockWith_keeps h hp hx
  | flatten => exact execFlatten_keeps h hp hx
  | ensureNBits => exact execEnsureNBits_keeps h hp hx
  | alignCheck => exact execAlignCheck_keeps h hp hx
  | bitsToText => exact execBitsToText_keeps h hp hx
  | configure => exact configureBody_keeps h hp hx

/-- R76: every `PHASE` but 0 names a micro-operation. -/
theorem decodePhase_of_ne_zero {p : BitVec 4} (hp : p ≠ 0) : ∃ i, decodePhase p = .ok i := by
  unfold decodePhase
  split
  case h_1 hzero => exact absurd (BitVec.eq_of_toNat_eq hzero) hp
  all_goals exact ⟨_, rfl⟩

/-- Settles O55: a step is one micro-operation inside a command, or in IDLE nothing, a whole command or a
host access, and each keeps the invariant. -/
theorem everyStepKeepsTheInvariant : Obligations.EveryStepKeepsTheInvariant := by
  intro s t h hstep
  by_cases hidle : s.phase = 0
  · cases hpending : s.pending with
    | nil =>
      rw [step_idle_nil hidle hpending] at hstep
      cases hstep
      exact h
    | cons a rest =>
      have hrest := pending_keeps h rest
      by_cases hcmd : ∃ v, a = .writeReg 0 v
      · obtain ⟨v, rfl⟩ := hcmd
        rw [step_idle_command hidle hpending] at hstep
        exact exec_decodeCommand_keeps hrest hstep
      · rw [step_idle_hostAccess hidle hpending (not_exists.1 hcmd)] at hstep
        exact hostAccess_keeps hrest hstep
  · obtain ⟨i, hi⟩ := decodePhase_of_ne_zero hidle
    rw [step_of_decodePhase_ok hi] at hstep
    exact exec_running_keeps h hidle hstep

end Sys2Proof.Machine
end

section
/-!
SUPPORT. What a whole instruction leaves alone and how a command ends: the frame of CONSTRUCT, and one
lemma that says what an instruction can do to the host's side and OUTBUF (10_state.md R36, R40).
-/
namespace Sys2Proof.Machine

variable {s t : State}

/-! ### CONSTRUCT and CONFIGURE -/

/-- R90 with the default limits: the body always answers, by `raise` or by `complete_ok`. -/
theorem configureBody_eq (s : State) :
    configureBody s = .next (if configFault s ≠ 0 then
      raiseError .configuration (configFault s) (clearConfig s)
    else completeOk none (setConfig s.nIn.toNat s.mIn.toNat s)) := by
  unfold configureBody
  split
  · rfl
  · exact if_pos rfl

/-- How CONSTRUCT and CONFIGURE end, and what they leave alone. -/
theorem configureBody_frame (h : configureBody s = .next t) :
    SameHostSide s t ∧ t.outbuf = s.outbuf ∧ t.phase = 0 ∧ t.rkValid = false ∧ t.done = true ∧
      (t.err = true → s.err = true ∨ t.outValid = false ∧ t.outlen = 0) := by
  rw [configureBody_eq] at h
  cases h
  split
  · simp [SameHostSide]
  · simp +contextual [SameHostSide]

/-! ### Frames of instructions -/

/-- What an instruction can do to the host's side and OUTBUF: nothing, unless it is BITS_TO_TEXT or a
text command. -/
theorem exec_hostSide_cases {i : Instr} (h : exec i s = .next t) :
    (SameHostSide s t ∧ t.outbuf = s.outbuf) ∨
    (i = .bitsToText ∧ execBitsToText s = .next t) ∨
    ∃ d, i = textInstr d ∧ textCommandWith Config.strategy d s = .next t := by
  have micro (f : MicroFrame s t) : SameHostSide s t ∧ t.outbuf = s.outbuf := by
    obtain ⟨⟨hhost, -, hout⟩, -⟩ := f
    exact ⟨hhost, hout⟩
  have illegal {op : BitVec 4} (hop : i.illegalOp = some op) :
      SameHostSide s t ∧ t.outbuf = s.outbuf := by
    rw [exec_of_illegalOp hop] at h
    cases h
    simp [SameHostSide]
  cases i with
  | construct =>
    obtain ⟨hhost, hout, -⟩ := configureBody_frame h
    exact .inl ⟨hhost, hout⟩
  | configure =>
    obtain ⟨hhost, hout, -⟩ := configureBody_frame h
    exact .inl ⟨hhost, hout⟩
  | encryptAscii => exact .inr (.inr ⟨.enc, rfl, h⟩)
  | decryptAscii => exact .inr (.inr ⟨.dec, rfl, h⟩)
  | illegal0 | illegal4 | illegal5 | illegal6 | illegal7 | illegal8 | illegal9 | illegal10 | illegal11
  | illegal12 | illegal13 | illegal14 | illegal15 => exact .inl (illegal rfl)
  | checkInput => exact .inl (micro (execCheckInput_frame h))
  | validateKey => exact .inl (micro (execValidateKey_frame h))
  | expandKey => exact .inl (micro (expandKeyWith_frame h))
  | textToBits => exact .inl (micro (execTextToBits_frame h))
  | chopN => exact .inl (micro (execChopN_frame h))
  | parseWords => exact .inl (micro (execParseWords_frame h))
  | padEven => exact .inl (micro (execPadEven_frame h))
  | pairBlocks => exact .inl (micro (execPairBlocks_frame h))
  | encryptBlock => exact .inl (micro (encryptBlockWith_frame h))
  | decryptBlock => exact .inl (micro (decryptBlockWith_frame h))
  | flatten => exact .inl (micro (execFlatten_frame h))
  | ensureNBits => exact .inl (micro (execEnsureNBits_frame h))
  | alignCheck => exact .inl (micro (execAlignCheck_frame h))
  | bitsToText => exact .inr (.inl ⟨rfl, h⟩)

/-- Settles O41: no case of an instruction touches the host's side. -/
theorem noInstructionWritesTheHostSide : Obligations.NoInstructionWritesTheHostSide := by
  intro i s t h
  obtain ⟨hhost, -⟩ | ⟨-, hbits⟩ | ⟨d, -, htext⟩ := exec_hostSide_cases h
  · exact hhost
  · exact (execBitsToText_frame hbits).1
  · exact (textCommandWith_frame htext).1

/-- Settles O42: only BITS_TO_TEXT and the text commands write OUTBUF, below `OUTLEN`. -/
theorem onlyBitsToTextWritesOutbuf : Obligations.OnlyBitsToTextWritesOutbuf := by
  refine ⟨fun i s t hbits henc hdec h => ?others, fun i s t h k hk => ?above⟩
  case others =>
    obtain ⟨-, hout⟩ | ⟨hi, -⟩ | ⟨d, hi, -⟩ := exec_hostSide_cases h
    · exact hout
    · exact absurd hi hbits
    · cases d
      · exact absurd hi henc
      · exact absurd hi hdec
  case above =>
    obtain ⟨-, hout⟩ | ⟨-, hbits⟩ | ⟨d, -, htext⟩ := exec_hostSide_cases h
    · rw [hout]
    · obtain ⟨-, -, -, -, -, -, -, -, -, -, habove⟩ := execBitsToText_frame hbits
      exact habove k hk
    · obtain ⟨-, -, -, -, -, -, habove⟩ := textCommandWith_frame htext
      exact habove k hk

/-- Settles O40: `raise` and `complete_ok` end a command in IDLE, and every command ends by one of them. -/
theorem everyCommandEndsIdle : Obligations.EveryCommandEndsIdle := by
  intro w s t h
  obtain hc | ⟨d, hd⟩ | ⟨op, hop⟩ := decodeCommand_cases w
  · rw [hc] at h
    obtain ⟨-, -, hphase, hrk, hdone, herr⟩ := configureBody_frame h
    exact ⟨hphase, hrk, hdone, fun he => (herr he).resolve_left (by simp)⟩
  · rw [hd, exec_textInstr] at h
    obtain ⟨-, -, hphase, hrk, hdone, herr, -⟩ := textCommandWith_frame h
    exact ⟨hphase, hrk, hdone, herr⟩
  · rw [exec_of_illegalOp hop] at h
    cases h
    exact ⟨rfl, rfl, rfl, fun _ => ⟨rfl, rfl⟩⟩

/-! ### The outcome of a command as a function of its operands -/

/-- R190: the error is what the host reads as the result. -/
theorem resultView_raiseError (e : ErrorKind) (info : Nat) (s : State) :
    resultView (raiseError e info s) = .err (errorCode e) info := rfl

/-- R164, R36: after CONSTRUCT has completed without a text. -/
theorem resultView_completeOk_none (herr : s.err = false) (hout : s.outValid = false) :
    resultView (completeOk none s) = .constructed := by
  simp [resultView, herr, hout]

/-- R164, R36: the bytes BITS_TO_TEXT stored are what the host reads as the result. -/
theorem resultView_completeOk_some {b : Buf Byte} {out : List Byte} (herr : s.err = false)
    (hout : s.outbuf = writeSeq b 0 out) :
    resultView (completeOk (some out.length) s) = .ok out := by
  have hbytes : (List.range out.length).map (outByte (completeOk (some out.length) s)) = out := by
    refine List.ext_getElem (by simp) fun i _ hi => ?_
    simp [outByte, hout, readBuf_writeSeq, hi]
  simp [resultView, herr, hbytes]

/-- The result a text command reports, by how it ends; a refusal reports none. -/
def TextEnd.reported : TextEnd → Option ResultView
  | .refused _ => none
  | .raised e info => some (.err (errorCode e) info)
  | .completed _ out => some (.ok out)

/-- A text command answers a next state exactly with the result its end reports. -/
theorem TextEnd.answer_view {x : TextEnd} {v : ResultView} (d : Dir) (s : State) :
    (∃ u, x.answer d s = .next u ∧ resultView u = v) ↔ x.reported = some v := by
  cases x with
  | refused x => simp [answer, reported]
  | raised e info => simp [answer, reported, resultView_raiseError]
  | completed blocks out =>
    simp [answer, reported, resultView_completeOk_some (b := s.outbuf) (out := out)]

/-- R75: the fault word depends on the two operands of CONSTRUCT alone. -/
theorem configFault_congr {s s' : State} (hn : s.nIn = s'.nIn) (hm : s.mIn = s'.mIn) :
    configFault s = configFault s' := by
  unfold configFault
  rw [hn, hm]

/-- R166: CONSTRUCT from states that agree on its operands. -/
theorem execConstruct_congr {s s' : State} (hn : s.nIn = s'.nIn) (hm : s.mIn = s'.mIn) :
    ∃ u u', exec .construct s = .next u ∧ exec .construct s' = .next u' ∧
      resultView u' = resultView u ∧ SameConfig u u' := by
  refine ⟨_, _, configureBody_eq _, configureBody_eq _, ?_⟩
  have hfault : configFault (toPhase 15 (startCommand s')) = configFault (toPhase 15 (startCommand s)) :=
    configFault_congr hn.symm hm.symm
  rw [hfault]
  split
  · exact ⟨rfl, rfl, rfl, rfl, rfl, rfl⟩
  · rw [resultView_completeOk_none rfl rfl, resultView_completeOk_none rfl rfl]
    simp [SameConfig, hn, hm]

/-- Settles O32: a text command answers what its end says, and the end is a function of the operands;
CONSTRUCT depends on its fault word and its two operands. -/
theorem commandDependsOnItsOperandsOnly : Obligations.CommandDependsOnItsOperandsOnly := by
  refine ⟨fun d s s' u h h' hsame hu => ?text, fun s s' => execConstruct_congr⟩
  case text =>
    have maxWord {s : State} (h : s.Inv) (hv : s.cfgValid = true) : 1 ≤ s.n ∧ s.maxWord = 2 ^ s.n := by
      obtain ⟨hn, -, hmax, -⟩ := h.configured hv
      exact ⟨hn, hmax⟩
    rw [exec_textInstr, textCommandWith_eq _ d (maxWord h),
      textEnd_congr _ d hsame (fun hv => (maxWord h hv).2) (fun hv => (maxWord h' hv).2)] at hu
    rw [exec_textInstr, textCommandWith_eq _ d (maxWord h')]
    exact (TextEnd.answer_view d s').2 ((TextEnd.answer_view d s).1 ⟨u, hu, rfl⟩)

end Sys2Proof.Machine
end

section
/-!
SUPPORT. The registers and buffers as the host sees them (10_state.md R22, R23, R41; 70_reset_and_hazards.md
R210, R217).
-/
namespace Sys2Proof.Machine

/-! ### STATUS -/

/-- R22: four flags packed as STATUS packs them stand at bits 0 to 3. -/
theorem getLsbD_packedFlags : ∀ a b c d : Bool,
    let word := BitVec.ofNat 32 (a.toNat + 2 * b.toNat + 4 * c.toNat + 8 * d.toNat)
    word.getLsbD 0 = a ∧ word.getLsbD 1 = b ∧ word.getLsbD 2 = c ∧ word.getLsbD 3 = d := by
  decide

/-- R22: STATUS is four bits wide. -/
theorem statusWord_toNat_lt (s : State) : (statusWord s).toNat < 2 ^ 4 := by
  have hdone := s.done.toNat_lt
  have herr := s.err.toNat_lt
  have hout := s.outValid.toNat_lt
  have hcfg := s.cfgValid.toNat_lt
  rw [statusWord, BitVec.toNat_ofNat]
  omega

/-- R22: `BUSY` and the reserved bits. -/
theorem statusWord_getLsbD_of_ge (s : State) {i : Nat} (hi : 4 ≤ i) : (statusWord s).getLsbD i = false :=
  Nat.testBit_lt_two_pow (lt_of_lt_of_le (statusWord_toNat_lt s) (Nat.pow_le_pow_right (by decide) hi))

/-- Settles O46: STATUS packs four flags into its low bits. -/
theorem statusBitsHaveTheirPlaces : Obligations.StatusBitsHaveTheirPlaces := by
  intro s
  obtain ⟨hdone, herr, hout, hcfg⟩ := getLsbD_packedFlags s.done s.err s.outValid s.cfgValid
  exact ⟨hdone, herr, hout, hcfg, fun _ => statusWord_getLsbD_of_ge s, rfl⟩

/-! ### The register map -/

/-- R24, R60: `CMD` and the numbers outside the map. -/
theorem readRegister_outside (s : State) {no : Nat} (h : no = 0 ∨ 0x0F < no) : readRegister s no = 0 := by
  unfold readRegister
  split
  case h_16 => rfl
  all_goals omega

/-- R60: the read-only registers and the numbers outside the map. -/
theorem writeRegister_ignored (s : State) {no : Nat} (v : Int)
    (h : (1 ≤ no ∧ no ≤ 3) ∨ (6 ≤ no ∧ no ≤ 0x0A) ∨ 0x0E ≤ no) : writeRegister no v s = .next s := by
  unfold writeRegister
  split
  case h_6 => rfl
  all_goals omega

theorem toNat_textPresent (b : Bool) : (b.toNat : Int) = if b then 1 else 0 := by
  cases b <;> rfl

/-- Settles O47: the map is read off case by case. -/
theorem registerReadsAndIgnoredWrites : Obligations.RegisterReadsAndIgnoredWrites := by
  refine ⟨fun _ _ => rfl, fun s _ => readRegister_outside s, fun s => ?map,
    fun s _ v => writeRegister_ignored s v, fun _ _ _ => rfl⟩
  case map =>
    exact ⟨rfl, rfl, rfl, rfl, rfl, rfl, rfl, rfl, rfl, rfl, toNat_textPresent s.textPresent, rfl, rfl,
      rfl, rfl⟩

/-! ### Host writes and reads -/

/-- R30, R31: a length the port can carry. -/
theorem writeRegister_length (s : State) (v : Nat) :
    writeRegister 0x0C v s = .next { s with textlen := v } ∧
      writeRegister 0x0D v s = .next { s with keylen := v } := by
  have hcarried : ¬ (v : Int) < 0 := by omega
  constructor
  · rw [writeRegister, if_neg hcarried]; rfl
  · rw [writeRegister, if_neg hcarried]; rfl

/-- R196: a negative length is refused. -/
theorem writeRegister_negativeLength (s : State) {v : Int} (hv : v < 0) :
    writeRegister 0x0C v s = .refused .valueNotCarried ∧
      writeRegister 0x0D v s = .refused .valueNotCarried :=
  ⟨if_pos hv, if_pos hv⟩

/-- Settles O48: register writes by cases of the map, buffer writes by the law of a read after a write. -/
theorem hostWritesStoreTheirValue : Obligations.HostWritesStoreTheirValue := by
  refine ⟨fun _ _ => ⟨rfl, rfl, rfl⟩, writeRegister_length, fun s _ => writeRegister_negativeLength s,
    fun s i b => ⟨writeBuf s.inbuf i b, rfl, fun k => readBuf_writeBuf _ _ _ _⟩,
    fun s i x => ⟨writeBuf s.keybuf i x, rfl, fun k => readBuf_writeBuf _ _ _ _⟩⟩

/-- R36: a byte of a valid result. -/
theorem outByte_of_valid {s : State} {i : Nat} {b : Byte} (hv : s.outValid = true) (hi : i < s.outlen)
    (hb : readBuf s.outbuf i = some b) : outByte s i = b := by
  simp [outByte, hv, hi, hb]

/-- Settles O49: a read answers by what the buffer holds; OUTBUF always answers. -/
theorem hostReadsReturnTheElement : Obligations.HostReadsReturnTheElement := by
  refine ⟨fun s i b hb => ?_, fun s i hb => ?_, fun s i x hx => ?_, fun s i hx => ?_,
    fun s i b hv hi hb => ?_, fun _ _ => ⟨_, rfl⟩⟩
  · simp only [hostAccess, hb]
  · simp only [hostAccess, hb]
  · simp only [hostAccess, hx]
  · simp only [hostAccess, hx]
  · rw [← outByte_of_valid hv hi hb]
    rfl

/-! ### Reset -/

/-- Settles O50: each value is the reset state's own. -/
theorem resetLeavesTheSpecsValues : Obligations.ResetLeavesTheSpecsValues :=
  ⟨rfl, rfl, rfl, rfl, rfl, rfl, rfl, rfl, rfl, rfl, rfl, rfl, rfl, rfl, rfl, rfl,
    readBuf_nil, readBuf_nil, readBuf_nil, readBuf_nil⟩

/-- R210: every register but the strap reads its reset value. -/
theorem readRegister_resetMachine (s : State) {no : Nat} (h : no ≠ 0x0F) :
    readRegister (resetMachine s) no = readRegister State.reset no := by
  unfold readRegister
  split
  case h_15 => exact absurd rfl h
  all_goals rfl

/-- Settles O51: the reset machine has the reset values under hidden state that holds none. -/
theorem hostResetRestoresTheResetValues : Obligations.HostResetRestoresTheResetValues := by
  intro s
  exact ⟨resetMachine s, rfl, fun _ => readRegister_resetMachine s, rfl, rfl, rfl,
    readBuf_nil, readBuf_nil, readBuf_nil, readBuf_nil⟩

end Sys2Proof.Machine
end

section
/-!
SUPPORT. EXPAND_KEY and the block transforms with the strategy's function present (40_config_and_key.md
R94, R95; 41_round_engine.md R110, R111).
-/
namespace Sys2Proof.Machine

/-- R94, R38: what EXPAND_KEY on a written key leaves to a block transform: `S.ek` of the key in RKBUF,
every other operand as it was. -/
theorem expandKeyWith_stores {S : Strategy} {s t : State} {key : KeySeq} (hek : ekPresent s = true)
    (hkey : readSeq s.keybuf 0 s.m = .ok key) (h : expandKeyWith S s = .next t) :
    S.load t.rkbuf = S.ek s.n s.m key ∧
      t.n = s.n ∧ t.m = s.m ∧ t.l = s.l ∧ t.r = s.r ∧ t.strat = s.strat := by
  rw [expandKeyWith, if_pos hek, hkey] at h
  cases h
  exact ⟨S.load_store _, rfl, rfl, rfl, rfl, rfl⟩

/-- The operands of a block transform that is not refused (R110, R111). -/
def BlockInRange (s : State) : Prop := s.l < 2 ^ s.n ∧ s.r < 2 ^ s.n

/-- R110, R95: ENCRYPT_BLOCK reads the stored round keys and keeps them. -/
theorem encryptBlockWith_present (S : Strategy) {s : State} (heb : ebPresent s = true)
    (hb : BlockInRange s) : ∃ t, encryptBlockWith S s = .next t ∧
      (t.l, t.r) = encBlock S s.n s.m (S.load s.rkbuf) (s.l, s.r) ∧
      t.rnd = S.transform.rndAfterEnc (S.load s.rkbuf) ∧ t.rkbuf = s.rkbuf := by
  rw [encryptBlockWith, if_pos heb, blockFault_eq_none hb.1 hb.2]
  exact ⟨_, rfl, rfl, rfl, rfl⟩

/-- R111, R95: DECRYPT_BLOCK reads the stored round keys and keeps them. -/
theorem decryptBlockWith_present (S : Strategy) {s : State} (hdb : dbPresent s = true)
    (hb : BlockInRange s) : ∃ t, decryptBlockWith S s = .next t ∧
      (t.l, t.r) = decBlock S s.n s.m (S.load s.rkbuf) (s.l, s.r) ∧
      t.rnd = S.transform.rndAfterDec (S.load s.rkbuf) ∧ t.rkbuf = s.rkbuf := by
  rw [decryptBlockWith, if_pos hdb, blockFault_eq_none hb.1 hb.2]
  exact ⟨_, rfl, rfl, rfl, rfl⟩

/-- R21: with an opaque strategy `RND` stays 0. -/
theorem rndAfterEnc_of_whole {RK : Type} {T : Transform RK}
    {eb db : (n m : Nat) → Block n → RK → Block n} (h : T = .whole eb db) (rk : RK) :
    T.rndAfterEnc rk = 0 := by
  rw [h]; rfl

/-- R113: the loop over `T` round keys ends at index `T - 1`. -/
theorem rndAfterEnc_rounds_append {K : Type} (enc dec : (n m : Nat) → Block n → K → Block n)
    (rk : List K) (k : K) : (Transform.rounds enc dec).rndAfterEnc (rk ++ [k]) = rk.length := by
  simp [Transform.rndAfterEnc]

/-- Settles O56: `RND` is what the transform's last pass leaves. -/
theorem roundIndexAfterABlockTransform : Obligations.RoundIndexAfterABlockTransform := by
  refine ⟨fun s heb hl hr => ?enc, fun s hdb hl hr => ?dec,
    fun K enc dec rk k => ⟨rfl, rndAfterEnc_rounds_append enc dec rk k⟩⟩
  case enc =>
    obtain ⟨t, ht, -, hrnd, -⟩ := encryptBlockWith_present Config.strategy heb ⟨hl, hr⟩
    exact ⟨t, ht, hrnd, fun _ _ hwhole => hrnd.trans (rndAfterEnc_of_whole hwhole _)⟩
  case dec =>
    obtain ⟨t, ht, -, hrnd, -⟩ := decryptBlockWith_present Config.strategy hdb ⟨hl, hr⟩
    exact ⟨t, ht, hrnd⟩

/-- Settles O58: EXPAND_KEY writes RKBUF alone of what the block transforms read, and loading what it
stored gives `S.ek` of the key. -/
theorem storedRoundKeysAreReadBack : Obligations.StoredRoundKeysAreReadBack := by
  intro s t key hek hlen hread hx hl hr
  have hkey : readSeq s.keybuf 0 s.m = .ok key :=
    (readSeq_eq_ok_iff ..).2 ⟨hlen, fun i hi => by rw [Nat.zero_add]; exact hread i hi⟩
  obtain ⟨hload, hn, hm, hleft, hright, hstrat⟩ := expandKeyWith_stores hek hkey hx
  refine ⟨fun heb => ?enc, fun hdb => ?dec⟩
  case enc =>
    have heb' : ebPresent t = true := by rw [ebPresent, hstrat, heb]
    obtain ⟨u, hu, hblock, -, hrk⟩ := encryptBlockWith_present Config.strategy heb' ⟨hl, hr⟩
    rw [hload, hn, hm, hleft, hright] at hblock
    obtain ⟨hul, hur⟩ := Prod.mk.inj hblock
    exact ⟨u, _, rfl, hu, hul, hur, hrk⟩
  case dec =>
    have hdb' : dbPresent t = true := by rw [dbPresent, hstrat, hdb]
    obtain ⟨u, hu, hblock, -, hrk⟩ := decryptBlockWith_present Config.strategy hdb' ⟨hl, hr⟩
    rw [hload, hn, hm, hleft, hright] at hblock
    obtain ⟨hul, hur⟩ := Prod.mk.inj hblock
    exact ⟨u, _, rfl, hu, hul, hur, hrk⟩

end Sys2Proof.Machine
end

section
/-!
SUPPORT. The memory's statements: reading an element the host never wrote (20_memory.md R59), and a text
command issued again on operands no command writes (R57, 43_facade.md R166).
-/
namespace Sys2Proof.Machine

variable {s t : State}

/-! ### The laws of a buffer -/

/-- Settles O53: the laws of Buffers.lean, at every type of element. -/
theorem bufferReadsTheLatestWrite : Obligations.BufferReadsTheLatestWrite :=
  fun _ b _ i j v hb hc => ⟨readBuf_writeBuf b i j v, bufWf_writeBuf hb i v, buf_ext hb hc⟩

/-! ### Unwritten elements -/

/-- R59: a sequence with an element that holds no value has no value. -/
theorem readSeq_unwritten {α : Type} {b : Buf α} {len i : Nat} (hi : i < len)
    (hnone : readBuf b i = none) : ∃ j, readSeq b 0 len = .error j := by
  cases hread : readSeq b 0 len with
  | error j => exact ⟨j, rfl⟩
  | ok vs =>
    obtain ⟨hlen, hget⟩ := (readSeq_eq_ok_iff ..).1 hread
    have hvalue := hget i hi
    rw [Nat.zero_add, hnone, List.getElem?_eq_getElem (hlen ▸ hi)] at hvalue
    cases hvalue

/-- Element `j` of the key is written and passes R93's test against the bound `maxWord`. -/
def GoodKeyElement (s : State) (maxWord : Int) (j : Nat) : Prop :=
  ∃ x, readBuf s.keybuf j = some x ∧ 0 ≤ x ∧ x < maxWord

/-- R93, R59: the scan stops at an unwritten element after good ones. -/
theorem scanKey_unwritten {i : Nat} (hi : i < s.m) (hnone : readBuf s.keybuf i = none)
    (hgood : ∀ j, j < i → GoodKeyElement s s.maxWord j) :
    scanKey s.keybuf s.maxWord 0 s.m = .unwritten i := by
  have hstop := (scanKey_stops (start := 0) i hi fun j hj => by rw [Nat.zero_add]; exact hgood j hj).2
  rw [Nat.zero_add] at hstop
  exact hstop hnone

/-- R93: the scan passes on good elements. -/
theorem scanKey_good (hgood : ∀ j, j < s.m → GoodKeyElement s s.maxWord j) :
    scanKey s.keybuf s.maxWord 0 s.m = .allInRange :=
  scanKey_eq_allInRange.2 fun j hj => by rw [Nat.zero_add]; exact hgood j hj

/-- Settles O43: neither a sequence nor the key scan gets past an element without a value. -/
theorem unwrittenElementsAreRefused : Obligations.UnwrittenElementsAreRefused := by
  refine ⟨fun s i hi hnone => ?textToBits, fun s i hlen hi hnone hgood => ?validateKey,
    fun s i hi hnone hek => ?expandKey⟩
  case textToBits =>
    obtain ⟨j, hread⟩ := readSeq_unwritten hi hnone
    exact ⟨j, by rw [exec, execTextToBits, hread]⟩
  case validateKey =>
    rw [exec, execValidateKey, if_neg (not_not_intro hlen), scanKey_unwritten hi hnone hgood]
  case expandKey =>
    obtain ⟨j, hread⟩ := readSeq_unwritten hi hnone
    have hpresent : ekPresent s = true := hek
    exact ⟨j, by rw [exec, execExpandKey, expandKeyWith, if_pos hpresent, hread]⟩

/-! ### Text commands -/

/-- R26, R91: what a text command needs of the invariant. -/
theorem State.Inv.wordSize (h : s.Inv) (hv : s.cfgValid = true) : 1 ≤ s.n ∧ s.maxWord = 2 ^ s.n := by
  obtain ⟨hn, -, hmax, -⟩ := h.configured hv
  exact ⟨hn, hmax⟩

/-- R169, R93: what a text command tests before it reads the first element. -/
structure InputChecksPass (s : State) : Prop where
  cfg     : s.cfgValid = true
  present : s.textPresent = true
  aligned : (8 * s.textlen) % s.n = 0
  count   : s.keylen = s.m

/-- R59: a text command that meets an unwritten key element is refused at its index. -/
theorem textEnd_keyUnwritten (S : Strategy) (d : Dir) {i : Nat} (hc : InputChecksPass s)
    (hscan : scanKey s.keybuf s.maxWord 0 s.m = .unwritten i) :
    textEnd S d s = .refused (.keybufUnwritten i) := by
  simp [textEnd, hc.cfg, hc.present, hc.aligned, hc.count, hscan]

/-- R59: a text command that has expanded its key and meets an unwritten text element is refused. -/
theorem textEnd_textUnwritten (S : Strategy) (d : Dir) {i : Nat} (hc : InputChecksPass s)
    (hscan : scanKey s.keybuf s.maxWord 0 s.m = .allInRange) (hek : ekPresent s = true)
    (htext : hostText s = .error i) : textEnd S d s = .refused (.inbufUnwritten i) := by
  simp [textEnd, hc.cfg, hc.present, hc.aligned, hc.count, hscan, hek, htext]

/-- Settles O44: the key scan stops the command at an unwritten key element, TEXT_TO_BITS at an unwritten
text element. -/
theorem textCommandRefusesUnwrittenElements : Obligations.TextCommandRefusesUnwrittenElements := by
  intro d s h hv hp ha hlen
  have hc : InputChecksPass s := ⟨hv, hp, ha, hlen⟩
  have hmax : (2 : Int) ^ s.n = s.maxWord := by rw [(h.wordSize hv).2]; simp
  rw [hmax, exec_textInstr, textCommandWith_eq _ d h.wordSize]
  refine ⟨fun i hi hnone hgood => ?key, fun i hi hnone hek hgood => ?text⟩
  case key => rw [textEnd_keyUnwritten _ d hc (scanKey_unwritten hi hnone hgood)]; rfl
  case text =>
    obtain ⟨k, hread⟩ := readSeq_unwritten hi hnone
    exact ⟨k, by rw [textEnd_textUnwritten _ d hc (scanKey_good hgood) hek hread]; rfl⟩

/-- R39, R57: operands are read from the host's side and the configuration alone. -/
theorem sameOperands_of_frame (hhost : SameHostSide s t) (hcfg : SameConfig s t) : SameOperands s t := by
  obtain ⟨-, -, hpresent, htextlen, hkeylen, hinbuf, hkeybuf, hstrat, -⟩ := hhost
  obtain ⟨hv, hn, hm, -⟩ := hcfg
  exact {
    cfg := by rw [cfgView, cfgView, hv, hn, hm]
    present := hpresent.symm
    textlen := fun _ => htextlen.symm
    text := fun _ i _ => by rw [hinbuf]
    keylen := hkeylen.symm
    key := fun i _ => by rw [hkeybuf]
    strat := hstrat.symm }

/-- Settles O33: a text command leaves its own operands and the invariant as they were, and its outcome is
a function of its operands (O32). -/
theorem textCommandIsIdempotent : Obligations.TextCommandIsIdempotent := by
  intro d s u h hu
  have htext := hu
  rw [exec_textInstr] at htext
  obtain ⟨hhost, hcfg, -⟩ := textCommandWith_frame htext
  exact commandDependsOnItsOperandsOnly.1 d s u u h (textCommandWith_keeps h htext)
    (sameOperands_of_frame hhost hcfg) hu

end Sys2Proof.Machine
end

section
/-!
SUPPORT. The two tables of 30_encoding.md against each other: the decoder reads back what the encoder
writes, and no word is read that carries no code (R70, R71, R73, R76).
-/
namespace Sys2Proof

/-! ### Format C: the opcode in bits 3:0 -/

/-- R70: two words carry the same opcode exactly when their bits 3:0 agree. -/
theorem opField_eq_iff (w w' : BitVec 32) :
    opField w = opField w' ↔ ∀ k, k < 4 → w.getLsbD k = w'.getLsbD k := by
  simp +contextual [opField, BitVec.eq_of_getLsbD_eq_iff]

theorem opField_toNat (w : BitVec 32) : (opField w).toNat = w.toNat % 16 := by
  simp [opField]

/-- R70: an opcode stands in the word that is it, its ignored bits 0. -/
theorem opField_setWidth : ∀ op : BitVec 4, opField (op.setWidth 32) = op := by
  decide

/-- R71, R73: the opcode map and the encoder's table agree at every opcode. -/
theorem encode_decodeOp : ∀ op : BitVec 4, encode (decodeOp op) = .command (op.setWidth 32) := by
  decide

/-- R71, R73: no two opcodes share an instruction. -/
theorem decodeOp_injective : Function.Injective decodeOp := by
  intro op op' h
  have hword : op.setWidth 32 = op'.setWidth 32 := by
    rw [← CodeWord.command.injEq, ← encode_decodeOp, ← encode_decodeOp, h]
  rw [← opField_setWidth op, hword, opField_setWidth]

theorem decode_command_eq_ok_iff (w : BitVec 32) (i : Instr) :
    decode (.command w) = .ok i ↔ decodeOp (opField w) = i := by
  rw [decode, decodeCommand, Except.ok.injEq]

/-! ### Format U: the value of `PHASE` -/

/-- R76: the code map and the encoder's table agree at every code. -/
theorem encode_of_decodePhase :
    ∀ p : BitVec 4, ∀ i ∈ (decodePhase p).toOption, encode i = .phase p := by
  decide

/-! ### Both formats -/

/-- R71, R73, R76: one equation of the two tables per row. -/
theorem decode_encode (i : Instr) : decode (encode i) = .ok i := by
  cases i <;> rfl

theorem decode_command_iff (w : BitVec 32) (i : Instr) :
    decode (.command w) = .ok i ↔
      ∃ e, encode i = .command e ∧ ∀ k, k < 4 → e.getLsbD k = w.getLsbD k := by
  simp only [← opField_eq_iff, decode_command_eq_ok_iff]
  constructor
  · rintro rfl
    exact ⟨(opField w).setWidth 32, encode_decodeOp _, opField_setWidth _⟩
  · rintro ⟨e, he, hop⟩
    rw [← hop, ← decode_command_eq_ok_iff, ← he, decode_encode]

theorem decode_phase_iff (p : BitVec 4) (i : Instr) :
    decode (.phase p) = .ok i ↔ encode i = .phase p := by
  constructor
  · intro h
    have hphase : decodePhase p = .ok i := h
    exact encode_of_decodePhase p i (by rw [hphase]; rfl)
  · intro h
    rw [← h, decode_encode]

/-- Settles O3: each format's map is the inverse of the encoder's table. -/
theorem decodeAndEncodeAgree : Obligations.DecodeAndEncodeAgree :=
  ⟨fun i _ => decode_encode i, decode_command_iff, decode_phase_iff⟩

/-- Settles O1: ten words, read off the two maps. -/
theorem tableWordsDecodeToTheirRows : Obligations.TableWordsDecodeToTheirRows :=
  ⟨rfl, rfl, rfl, rfl, rfl, rfl, rfl, rfl, rfl, rfl⟩

/-- Settles O2: an instruction is as good as its opcode, and the opcode is bits 3:0. -/
theorem commandDecodingReadsOnlyTheOpcode : Obligations.CommandDecodingReadsOnlyTheOpcode := by
  intro w w'
  calc decode (.command w) = decode (.command w')
      ↔ decodeOp (opField w) = decodeOp (opField w') := decode_command_eq_ok_iff w _
    _ ↔ opField w = opField w' := decodeOp_injective.eq_iff
    _ ↔ ∀ i, i < 4 → w.getLsbD i = w'.getLsbD i := opField_eq_iff w w'

end Sys2Proof
end

section
/-!
SUPPORT. The fetch (30_encoding.md R70, R76): the word `withFetchWord` places is the one the step decodes.
-/
namespace Sys2Proof.Machine

/-- R24: a command word written to `CMD` arrives as it is. -/
theorem commandWord_toNat (c : BitVec 32) : commandWord c.toNat = c := by
  simp [commandWord]

theorem step_withFetchWord_command (s : State) (w : Nat) :
    step (s.withFetchWord 32 w) = exec (decodeCommand (BitVec.ofNat 32 w)) { s with phase := 0 } := by
  have hstep := step_idle_command (s := s.withFetchWord 32 w) rfl rfl
  rw [hstep, commandWord_toNat]
  rfl

theorem decodeTableWord_phase {w : Nat} {i : Instr} (h : decodeTableWord 8 w = some i) :
    tableWord 8 w = some (.phase (BitVec.ofNat 4 w)) ∧ decodePhase (BitVec.ofNat 4 w) = .ok i := by
  by_cases hw : w < 16
  · have htable : tableWord 8 w = some (.phase (BitVec.ofNat 4 w)) := by simp [tableWord, hw]
    refine ⟨htable, ?_⟩
    simp only [decodeTableWord, htable, decode] at h
    split at h
    · next hi => cases h; exact hi
    · cases h
  · simp [decodeTableWord, tableWord, hw] at h

/-- Settles O5: a command word is the next host action and arrives unchanged, a code is the value of
`PHASE`. -/
theorem fetchedWordIsRunNext : Obligations.FetchedWordIsRunNext := by
  refine ⟨fun s w i _ hdecode => ?command, fun s w i hdecode => ?micro⟩
  case command =>
    have hinstr : decodeCommand (BitVec.ofNat 32 w) = i := Option.some.inj hdecode
    rw [step_withFetchWord_command, hinstr]
  case micro =>
    obtain ⟨htable, hphase⟩ := decodeTableWord_phase hdecode
    have hfetch : s.withFetchWord 8 w = { s with phase := BitVec.ofNat 4 w } := by
      simp only [State.withFetchWord, htable]
    rw [hfetch]
    exact step_of_decodePhase_ok hphase

end Sys2Proof.Machine
end
section
/-!
SUPPORT. How a command ends without a result (60_exceptions.md R188, R190; 30_encoding.md R73) and what
CONFIGURE leaves (40_config_and_key.md R90): `raise`, the illegal commands, the first error of a text
command.
-/
namespace Sys2Proof.Machine

variable {s : State}

/-! ### `raise` -/

/-- Settles O38: each field `raise` writes, and its frame. -/
theorem raiseEndsTheCommand : Obligations.RaiseEndsTheCommand := by
  intro e info s
  obtain ⟨⟨hhost, hcfg, hout⟩, -⟩ := raiseError_frame e info s
  exact ⟨_, rfl, rfl, rfl, rfl, rfl, rfl, rfl, rfl, rfl, resultView_raiseError e info s, hout, hcfg, hhost⟩

/-! ### Illegal commands -/

/-- R73: the opcodes 1, 2 and 3 are commands, every other one is illegal and carried. -/
theorem illegalOp_decodeOp : ∀ op : BitVec 4, (decodeOp op).illegalOp =
    if op.toNat = 1 ∨ op.toNat = 2 ∨ op.toNat = 3 then none else some op := by
  decide

theorem illegalOp_decodeCommand (w : BitVec 32) : (decodeCommand w).illegalOp =
    if w.toNat % 16 = 1 ∨ w.toNat % 16 = 2 ∨ w.toNat % 16 = 3 then none
    else some (BitVec.ofNat 4 (w.toNat % 16)) := by
  rw [decodeCommand, illegalOp_decodeOp, ← opField_toNat, BitVec.ofNat_toNat, BitVec.setWidth_eq]

/-- Settles O39: an illegal command is `start_command` and then `raise` (O38). -/
theorem illegalCommandRaises : Obligations.IllegalCommandRaises := by
  refine ⟨illegalOp_decodeCommand, fun i op s hop => ?_⟩
  obtain ⟨_, rfl, hcode, hinfo, herr, hvalid, hlen, -, hphase, hdone, hview, hout, hcfg, hhost⟩ :=
    raiseEndsTheCommand .illegalCommand op.toNat (startCommand s)
  exact ⟨_, exec_of_illegalOp hop s, hview, hcode, hinfo, hdone, herr, hvalid, hlen, hphase, rfl, hout,
    hcfg, hhost⟩

/-! ### CONFIGURE -/

/-- R75, R90: the fault word is 0 exactly on two positive operands. -/
theorem configFault_eq_zero_iff (s : State) : configFault s = 0 ↔ 0 < s.nIn ∧ 0 < s.mIn := by
  unfold configFault
  constructor
  · intro h
    split_ifs at h <;> omega
  · rintro ⟨hn, hm⟩
    rw [if_neg (by omega), if_neg (by omega)]

/-- R90(a): two positive operands set the configuration. -/
theorem configureBody_of_positive (h : 0 < s.nIn ∧ 0 < s.mIn) :
    configureBody s = .next (completeOk none (setConfig s.nIn.toNat s.mIn.toNat s)) := by
  rw [configureBody_eq, if_neg (not_not_intro ((configFault_eq_zero_iff s).2 h))]

/-- R90(b): any other operands clear it and raise, the fault word reported. -/
theorem configureBody_of_fault (h : ¬ (0 < s.nIn ∧ 0 < s.mIn)) :
    configureBody s = .next (raiseError .configuration (configFault s) (clearConfig s)) := by
  rw [configureBody_eq, if_pos (mt (configFault_eq_zero_iff s).1 h)]

/-- Settles O7: the two ends of R90, each with its registers; the frame is CONSTRUCT's. -/
theorem configureCompletes : Obligations.ConfigureCompletes := by
  intro s
  by_cases hpos : 0 < s.nIn ∧ 0 < s.mIn
  · have hbody := configureBody_of_positive hpos
    obtain ⟨hhost, hout, hphase, hrk, hdone, -⟩ := configureBody_frame hbody
    refine ⟨_, hbody, fun _ => ?_, fun hneg => absurd hpos hneg, hdone, hphase, hrk, rfl, hout, hhost⟩
    exact ⟨Int.toNat_of_nonneg hpos.1.le, Int.toNat_of_nonneg hpos.2.le, rfl, rfl, rfl, rfl, rfl, rfl,
      rfl, rfl⟩
  · have hbody := configureBody_of_fault hpos
    obtain ⟨hhost, hout, hphase, hrk, hdone, -⟩ := configureBody_frame hbody
    refine ⟨_, hbody, fun h => absurd h hpos, fun _ => ?_, hdone, hphase, hrk, rfl, hout, hhost⟩
    exact ⟨rfl, rfl, rfl, rfl, rfl, rfl, rfl, rfl, rfl, rfl⟩

/-! ### The first error of a text command -/

/-- Settles O28: the command raises the first error (O38) on the state it entered with. -/
theorem textCommandReportsTheFirstError : Obligations.TextCommandReportsTheFirstError := by
  intro d s t key e info h hd herr
  have hraises := textCommandWith_raises Config.strategy d h.wordSize hd herr
  obtain ⟨_, rfl, -, -, -, hvalid, hlen, hrk, hphase, -, hview, hout, hcfg, hhost⟩ :=
    raiseEndsTheCommand e info { enterText d s with events := errorEvents e info }
  exact ⟨_, (exec_textInstr d s).trans hraises, hview, hvalid, hlen, hphase, hrk, hout, hcfg, hhost⟩

end Sys2Proof.Machine
end

section
/-!
SUPPORT. The round trip of the two text commands (43_facade.md R165): what COPYOUT hands on, and what the
codec makes of a text that came out of the block function.
-/
namespace Sys2Proof.Machine

variable {s u : State} {t out : List Byte} {key : KeySeq} {d : Dir} {n : Nat}

/-! ### A text command that passes its checks -/

/-- R188: no condition of the priority list holds. -/
structure TextChecksPass (d : Dir) (s : State) (t : List Byte) (key : KeySeq) : Prop where
  cfg       : s.cfgValid = true
  present   : s.textPresent = true
  aligned   : (8 * t.length) % s.n = 0
  count     : key.length = s.m
  range     : key.findIdx? (fun k => !keyInRange s.n k) = none
  expandKey : ekPresent s = true
  block     : t ≠ [] → dirPresent d s = true

theorem firstError_eq_none_iff : firstError d s t key = none ↔ TextChecksPass d s t key := by
  constructor
  · intro h
    cases hrange : key.findIdx? (fun k => !keyInRange s.n k) with
    | some i =>
      simp only [firstError, hrange] at h
      split_ifs at h
    | none =>
      simp only [firstError, hrange] at h
      split_ifs at h with hcfg hpresent haligned hcount hek hblock
      exact ⟨by simpa using hcfg, by simpa using hpresent, by simpa using haligned,
        by simpa using hcount, hrange, by simpa using hek, fun hne => by simpa [hne] using hblock⟩
  · rintro ⟨hcfg, hpresent, haligned, hcount, hrange, hek, hblock⟩
    simpa [firstError, hcfg, hpresent, haligned, hcount, hrange, hek] using mt (hblock ·)

/-- R161, R162: the host reads the value of the function as the result. -/
theorem textCommandWith_result (S : Strategy) (h : s.Inv) (hd : HostDuties s t key)
    (herr : firstError d s t key = none)
    (hout : textFunction S d s.n s.m t key = some (.ok out)) :
    ∃ u, textCommandWith S d s = .next u ∧ resultView u = .ok out :=
  ⟨_, textCommandWith_completes S d h.wordSize hd herr hout, resultView_completeOk_some rfl rfl⟩

/-! ### COPYOUT -/

/-- R39: a result of bytes is what the host reads from OUTBUF below `OUTLEN`. -/
theorem outBytes_of_resultView (h : resultView u = .ok out) :
    (List.range u.outlen).map (outByte u) = out := by
  unfold resultView at h
  split_ifs at h
  exact ResultView.ok.inj h

/-- R79, R214: COPYOUT writes the text it announces, and the key stays. -/
theorem hostDuties_copyOut (hview : resultView u = .ok out) (hkey : hostKey u = .ok key) :
    HostDuties (copyOut u) out key where
  text _ := by
    have hbytes := outBytes_of_resultView hview
    have hlen : u.outlen = out.length := by rw [← hbytes]; simp
    rw [hostText, copyOut]
    dsimp only
    rw [hbytes, hlen, readSeq_writeSeq]
  key := hkey

/-- COPYOUT writes the host's side alone (R79). -/
theorem copyOut_keeps (h : u.Inv) : (copyOut u).Inv := by
  obtain ⟨hin, hkey, -, -⟩ := (memory_wf_iff u).1 h.memory
  exact onlyHostSideDiffers_keeps h rfl (bufWf_writeSeq hin _ _) hkey

/-! ### Reassembled words, segmented again -/

/-- R142, R143: words in range, an even count of them in whole bytes, are the words of their text. -/
theorem textWords_bitsToText {ws : List Nat} (hn : 0 < n) (hlt : ∀ w ∈ ws, w < 2 ^ n)
    (heven : ws.length % 2 = 0) (hbytes : (n * ws.length) % 8 = 0) :
    textWords n (bitsToText (wordsToBits n ws)) = ws := by
  have hcount : 8 * (bitsToText (wordsToBits n ws)).length / n = ws.length := by
    rw [bitsToText_length, wordsToBits_length, Nat.mul_div_cancel' (Nat.dvd_of_mod_eq_zero hbytes),
      Nat.mul_div_cancel_left _ hn]
  rw [textWords, hcount, textToBits_bitsToText _ (by simpa using hbytes), bitWords_wordsToBits n ws hlt,
    padEven, if_neg (by omega)]

/-- R142, R143: blocks in range are the blocks of the text they reassemble to. -/
theorem textBlocks_bitsToText {bs : List (Nat × Nat)} (hn : 0 < n)
    (hlt : ∀ b ∈ bs, b.1 < 2 ^ n ∧ b.2 < 2 ^ n) (hbytes : (n * (2 * bs.length)) % 8 = 0) :
    textBlocks n (bitsToText (wordsToBits n (flatten bs))) = bs := by
  have hwords : ∀ w ∈ flatten bs, w < 2 ^ n := by
    intro w hw
    obtain ⟨b, hb, rfl | rfl⟩ := mem_flatten hw
    · exact (hlt b hb).1
    · exact (hlt b hb).2
  rw [textBlocks, textWords_bitsToText hn hwords (by simp) (by simpa using hbytes), pairBlocks_flatten]

/-- The words of a block of a text are in range (R132). -/
theorem textBlocks_lt {b : Nat × Nat} (h : b ∈ textBlocks n t) : b.1 < 2 ^ n ∧ b.2 < 2 ^ n := by
  have hmem (w : Nat) (hw : w = b.1 ∨ w = b.2) : w ∈ textWords n t := by
    rw [textWords_eq_flatten, flatten, List.mem_flatMap]
    exact ⟨b, h, by simpa using hw⟩
  exact ⟨textWords_lt (hmem _ (.inl rfl)), textWords_lt (hmem _ (.inr rfl))⟩

/-- R144: the blocks of an aligned text are whole bytes. -/
theorem textBlocks_wholeBytes (ha : (8 * t.length) % n = 0) :
    (n * (2 * (textBlocks n t).length)) % 8 = 0 := by
  rw [textBlocks_length, textWords_length]
  exact aligned_after_padding ha

/-! ### The padding word -/

theorem toBits_zero (w : Nat) : toBits w 0 = List.replicate w false := by
  induction w with
  | zero => rfl
  | succ w ih => simp [toBits, ih, List.replicate_succ]

theorem textToBits_append (t t' : List Byte) : textToBits (t ++ t') = textToBits t ++ textToBits t' :=
  List.flatMap_append

/-- R130: zero bytes are zero bits. -/
theorem textToBits_replicate_zero (k : Nat) : textToBits (List.replicate k 0) = toBits (8 * k) 0 := by
  induction k with
  | zero => rfl
  | succ k ih =>
    have hbyte : textToBits [0] = toBits 8 0 := rfl
    rw [List.replicate_succ', textToBits_append, ih, hbyte, toBits_zero, toBits_zero, toBits_zero,
      List.replicate_append_replicate]
    rfl

/-- The text that the padded words of `t` spell (R134, R165). -/
def paddedText (n : Nat) (t : List Byte) : List Byte :=
  if (8 * t.length / n) % 2 = 0 then t else t ++ List.replicate (n / 8) 0

/-- R165, decision C2: the padding word is kept, as its zero bytes. -/
theorem bitsToText_textWords (ha : (8 * t.length) % n = 0) :
    bitsToText (wordsToBits n (textWords n t)) = paddedText n t := by
  have hcount : n * (8 * t.length / n) = 8 * t.length := by rw [mul_comm, wordCount_mul ha]
  have hbits := wordsToBits_bitWords n (8 * t.length / n) (textToBits t) (by simp [hcount])
  rw [paddedText, textWords, padEven, bitWords_length]
  by_cases heven : (8 * t.length / n) % 2 = 0
  · rw [if_pos heven, if_neg (by omega), hbits, bitsToText_textToBits]
  · have hodd : (8 * t.length / n) % 2 = 1 := by omega
    have hword : 8 * (n / 8) = n := by
      have hwhole := aligned_after_padding ha
      rw [hodd, Nat.mul_succ, hcount] at hwhole
      omega
    have hzero : wordsToBits n [0] = textToBits (List.replicate (n / 8) 0) := by
      rw [textToBits_replicate_zero, hword]
      simp [wordsToBits]
    have happend (ws : List Nat) : wordsToBits n (ws ++ [0]) = wordsToBits n ws ++ wordsToBits n [0] :=
      List.flatMap_append
    rw [if_neg heven, if_pos hodd, happend, hbits, hzero, ← textToBits_append, bitsToText_textToBits]

/-! ### The round trip -/

/-- The text that encryption produces (R161). -/
def cipherText (S : Strategy) (n m : Nat) (t : List Byte) (key : KeySeq) : List Byte :=
  bitsToText (wordsToBits n (flatten ((textBlocks n t).map (dirBlock S .enc n m (S.ek n m key)))))

/-- R112, block by block. -/
theorem map_dec_map_enc {S : Strategy} {m : Nat} (hS : S.Inverts n m) (rk : S.RK)
    {bs : List (Nat × Nat)} (hlt : ∀ b ∈ bs, b.1 < 2 ^ n ∧ b.2 < 2 ^ n) :
    (bs.map (dirBlock S .enc n m rk)).map (dirBlock S .dec n m rk) = bs := by
  rw [List.map_map]
  have hid : ∀ b ∈ bs, (dirBlock S .dec n m rk ∘ dirBlock S .enc n m rk) b = id b :=
    fun b hb => decBlock_encBlock hS rk (hlt b hb).1 (hlt b hb).2
  rw [List.map_congr_left hid, List.map_id]

/-- R165 as a law of the function: decryption's value on what encryption produced. -/
theorem textFunction_dec_cipherText {S : Strategy} {m : Nat} (hn : 0 < n) (hS : S.Inverts n m)
    (ha : (8 * t.length) % n = 0) :
    (8 * (cipherText S n m t key).length) % n = 0 ∧
      textFunction S .dec n m (cipherText S n m t key) key = some (.ok (paddedText n t)) := by
  set enc := dirBlock S .enc n m (S.ek n m key) with henc
  have hwhole : (n * (2 * ((textBlocks n t).map enc).length)) % 8 = 0 := by
    rw [List.length_map]; exact textBlocks_wholeBytes ha
  have hblocks : textBlocks n (cipherText S n m t key) = (textBlocks n t).map enc := by
    refine textBlocks_bitsToText hn (fun b hb => ?_) hwhole
    obtain ⟨c, -, rfl⟩ := List.mem_map.1 hb
    exact dirBlock_lt S .enc n m (S.ek n m key) c
  have haligned : (8 * (cipherText S n m t key).length) % n = 0 := by
    rw [cipherText, bitsToText_length, wordsToBits_length, flatten_length,
      Nat.mul_div_cancel' (Nat.dvd_of_mod_eq_zero hwhole), Nat.mul_mod_right]
  refine ⟨haligned, ?_⟩
  rw [textFunction_ok S .dec hn key haligned, hblocks, henc,
    map_dec_map_enc hS _ fun _ => textBlocks_lt, ← textWords_eq_flatten, bitsToText_textWords ha]

/-- Settles O31: encryption leaves its ciphertext where COPYOUT fetches it, the checks pass again on it, and
decryption's function gives the padded text back. -/
theorem decryptionUndoesEncryption : Obligations.DecryptionUndoesEncryption := by
  refine ⟨fun S s u t key h hd hstrat hS herr hu => ?roundTrip, fun _ => ⟨rfl, rfl⟩⟩
  obtain ⟨hcfg, -, haligned, hcount, hrange, -, -⟩ := firstError_eq_none_iff.1 herr
  have hn : 0 < s.n := (h.wordSize hcfg).1
  obtain ⟨hcipherAligned, hplain⟩ := textFunction_dec_cipherText (key := key) hn hS haligned
  have hview : resultView u = .ok (cipherText S s.n s.m t key) := by
    obtain ⟨u', hu', hview⟩ :=
      textCommandWith_result S h hd herr (textFunction_ok S .enc hn key haligned)
    cases hu'.symm.trans hu
    exact hview
  obtain ⟨⟨-, -, -, -, hkeylen, -, hkeybuf, hustrat, -⟩, ⟨hucfg, hun, hum, -⟩, -⟩ :=
    textCommandWith_frame hu
  have hkey : hostKey u = .ok key := by rw [hostKey, hkeylen, hkeybuf]; exact hd.key
  have hn' : (copyOut u).n = s.n := hun
  have hm' : (copyOut u).m = s.m := hum
  have hstrat' : (copyOut u).strat = 0b111 := hustrat.trans hstrat
  have herr' : firstError .dec (copyOut u) (cipherText S s.n s.m t key) key = none :=
    firstError_eq_none_iff.2 {
      cfg := hucfg.trans hcfg
      present := rfl
      aligned := by rw [hn']; exact hcipherAligned
      count := by rw [hm']; exact hcount
      range := by rw [hn']; exact hrange
      expandKey := by rw [ekPresent, hstrat']; rfl
      block := fun _ => by rw [dirPresent, dbPresent, hstrat']; rfl }
  exact textCommandWith_result S (copyOut_keeps (textCommandWith_keeps h hu))
    (hostDuties_copyOut hview hkey) herr' (by rw [hn', hm']; exact hplain)

end Sys2Proof.Machine
end

section
/-!
SUPPORT. The configuration and the key (40_config_and_key.md): who writes the configuration (R92), what
CONSTRUCT makes of its operands (R90, R91), VALIDATE_KEY's two tests (R93) and EXPAND_KEY (R94).
-/
namespace Sys2Proof.Machine

variable {s t : State}

/-! ### Who writes the configuration -/

/-- What an instruction that answers a next state did: a micro-operation with the frame of
Laws/Frames.lean, R90's configuration, BITS_TO_TEXT, a text command, or an illegal command. -/
theorem exec_cases {i : Instr} (h : exec i s = .next t) :
    MicroFrame s t ∨ (i = .construct ∨ i = .configure) ∨
    (i = .bitsToText ∧ execBitsToText s = .next t) ∨
    (∃ d, i = textInstr d ∧ textCommandWith Config.strategy d s = .next t) ∨
    ∃ op, i.illegalOp = some op ∧ t = raiseError .illegalCommand op.toNat (startCommand s) := by
  have illegal {op : BitVec 4} (hop : i.illegalOp = some op) :
      ∃ op, i.illegalOp = some op ∧ t = raiseError .illegalCommand op.toNat (startCommand s) := by
    rw [exec_of_illegalOp hop] at h
    cases h
    exact ⟨op, hop, rfl⟩
  cases i with
  | checkInput => exact .inl (execCheckInput_frame h)
  | validateKey => exact .inl (execValidateKey_frame h)
  | expandKey => exact .inl (expandKeyWith_frame h)
  | textToBits => exact .inl (execTextToBits_frame h)
  | chopN => exact .inl (execChopN_frame h)
  | parseWords => exact .inl (execParseWords_frame h)
  | padEven => exact .inl (execPadEven_frame h)
  | pairBlocks => exact .inl (execPairBlocks_frame h)
  | encryptBlock => exact .inl (encryptBlockWith_frame h)
  | decryptBlock => exact .inl (decryptBlockWith_frame h)
  | flatten => exact .inl (execFlatten_frame h)
  | ensureNBits => exact .inl (execEnsureNBits_frame h)
  | alignCheck => exact .inl (execAlignCheck_frame h)
  | construct => exact .inr (.inl (.inl rfl))
  | configure => exact .inr (.inl (.inr rfl))
  | bitsToText => exact .inr (.inr (.inl ⟨rfl, h⟩))
  | encryptAscii => exact .inr (.inr (.inr (.inl ⟨.enc, rfl, h⟩)))
  | decryptAscii => exact .inr (.inr (.inr (.inl ⟨.dec, rfl, h⟩)))
  | illegal0 | illegal4 | illegal5 | illegal6 | illegal7 | illegal8 | illegal9 | illegal10 | illegal11
  | illegal12 | illegal13 | illegal14 | illegal15 => exact .inr (.inr (.inr (.inr (illegal rfl))))

/-- Settles O8: the frame of each kind of instruction holds the configuration. -/
theorem onlyConstructWritesTheConfiguration : Obligations.OnlyConstructWritesTheConfiguration := by
  intro i s t hconstruct hconfigure h
  obtain hmicro | (hi | hi) | ⟨-, hbits⟩ | ⟨d, -, htext⟩ | ⟨op, -, rfl⟩ := exec_cases h
  · obtain ⟨⟨-, hcfg, -⟩, -⟩ := hmicro
    exact hcfg
  · exact absurd hi hconstruct
  · exact absurd hi hconfigure
  · obtain ⟨-, hcfg, -⟩ := execBitsToText_frame hbits
    exact hcfg
  · obtain ⟨-, hcfg, -⟩ := textCommandWith_frame htext
    exact hcfg
  · exact ⟨rfl, rfl, rfl, rfl, rfl⟩

/-! ### CONSTRUCT -/

/-- Settles O6: `start_command`, then one of the two ends of R90; the frame is `configureBody`'s. -/
theorem constructSetsOrClearsTheConfiguration : Obligations.ConstructSetsOrClearsTheConfiguration := by
  intro s
  by_cases hpos : 0 < s.nIn ∧ 0 < s.mIn
  · have hbody := configureBody_of_positive (s := toPhase 15 (startCommand s)) hpos
    obtain ⟨hhost, hout, hphase, hrk, -⟩ := configureBody_frame hbody
    refine ⟨_, hbody, fun _ => ?_, fun hneg => absurd hpos hneg, rfl, hphase, hrk, rfl, hout, hhost⟩
    exact ⟨Int.toNat_of_nonneg hpos.1.le, Int.toNat_of_nonneg hpos.2.le, rfl, rfl, rfl,
      resultView_completeOk_none rfl rfl, rfl, rfl⟩
  · have hbody := configureBody_of_fault (s := toPhase 15 (startCommand s)) hpos
    obtain ⟨hhost, hout, hphase, hrk, -⟩ := configureBody_frame hbody
    refine ⟨_, hbody, fun h => absurd h hpos, fun _ => ?_, rfl, hphase, hrk, rfl, hout, hhost⟩
    exact ⟨rfl, rfl, rfl, rfl, rfl, resultView_raiseError .., rfl⟩

/-! ### VALIDATE_KEY -/

/-- R93: the scan stops at the first written element out of range. -/
theorem scanKey_outOfRange {i : Nat} {k : Int} (hi : i < s.m) (hk : readBuf s.keybuf i = some k)
    (hbad : k < 0 ∨ (s.maxWord : Int) ≤ k) (hgood : ∀ j, j < i → GoodKeyElement s s.maxWord j) :
    scanKey s.keybuf s.maxWord 0 s.m = .outOfRange i := by
  have hstop := (scanKey_stops (start := 0) i hi fun j hj => by rw [Nat.zero_add]; exact hgood j hj).1 k
  rw [Nat.zero_add] at hstop
  exact hstop hk hbad

/-- Settles O9: the count decides first, then what the scan finds. -/
theorem validateKeyChecksCountThenRange : Obligations.ValidateKeyChecksCountThenRange := by
  refine fun s => ⟨fun hlen => ?count, fun hlen i k hi hk hbad hgood => ?range, fun hlen hgood => ?good⟩
  case count => rw [exec, execValidateKey, if_pos hlen]
  case range =>
    rw [exec, execValidateKey, if_neg (not_not_intro hlen), scanKey_outOfRange hi hk hbad hgood]
  case good =>
    rw [exec, execValidateKey, if_neg (not_not_intro hlen), scanKey_good hgood]
    rfl

/-! ### EXPAND_KEY -/

/-- Settles O10: the elements read are the key, and the strategy's function is there or not. -/
theorem expandKeyStoresTheRoundKeys : Obligations.ExpandKeyStoresTheRoundKeys := by
  refine fun s => ⟨fun hek key hlen hkey => ?present, fun hek => ?absent⟩
  case present =>
    have hpresent : ekPresent s = true := hek
    have hread : readSeq s.keybuf 0 s.m = .ok key :=
      (readSeq_eq_ok_iff ..).2 ⟨hlen, fun i hi => by rw [Nat.zero_add]; exact hkey i hi⟩
    rw [exec, execExpandKey, expandKeyWith, if_pos hpresent, hread]
    rfl
  case absent =>
    have habsent : ¬ ekPresent s = true := Bool.eq_false_iff.1 hek
    rw [exec, execExpandKey, expandKeyWith, if_neg habsent]

end Sys2Proof.Machine
end

section
/-!
SUPPORT. The round engine (41_round_engine.md): the block transforms on operands in range (R110, R111), the
order of the round keys (R113) and the round trip of invertible rounds (R114), a text command's value and
trace (R115), and the independence of its blocks (R116, 43_facade.md R168).
-/
namespace Sys2Proof.Machine

/-! ### One block -/

/-- Settles O11: by the presence of `S.eb`; operands in range meet no fault. -/
theorem encryptBlockAppliesTheStrategy : Obligations.EncryptBlockAppliesTheStrategy := by
  refine fun s => ⟨fun heb hl hr =>
    ⟨Config.strategy.transform.rndAfterEnc (Config.strategy.load s.rkbuf), _, rfl, ?present⟩,
    fun heb => ?absent⟩
  case present =>
    have hpresent : ebPresent s = true := heb
    rw [exec, execEncryptBlock, encryptBlockWith, if_pos hpresent, blockFault_eq_none hl hr]
    rfl
  case absent =>
    have habsent : ¬ ebPresent s = true := Bool.eq_false_iff.1 heb
    rw [exec, execEncryptBlock, encryptBlockWith, if_neg habsent]

/-- Settles O12: as for encryption, by the presence of `S.db`. -/
theorem decryptBlockAppliesTheStrategy : Obligations.DecryptBlockAppliesTheStrategy := by
  refine fun s => ⟨fun hdb hl hr =>
    ⟨Config.strategy.transform.rndAfterDec (Config.strategy.load s.rkbuf), _, rfl, ?present⟩,
    fun hdb => ?absent⟩
  case present =>
    have hpresent : dbPresent s = true := hdb
    rw [exec, execDecryptBlock, decryptBlockWith, if_pos hpresent, blockFault_eq_none hl hr]
    rfl
  case absent =>
    have habsent : ¬ dbPresent s = true := Bool.eq_false_iff.1 hdb
    rw [exec, execDecryptBlock, decryptBlockWith, if_neg habsent]

/-! ### Round-iterated strategies -/

section Rounds

variable {K : Type} (enc dec : (n m : Nat) → Block n → K → Block n) (n m : Nat) (b : Block n)
  (ks : List K) (k : K)

/-- R113: encryption applies the last round key last. -/
theorem rounds_eb_append : (Transform.rounds enc dec).eb n m b (ks ++ [k]) =
    enc n m ((Transform.rounds enc dec).eb n m b ks) k := by
  simp [Transform.eb]

/-- R113: decryption applies the last round key first. -/
theorem rounds_db_append : (Transform.rounds enc dec).db n m b (ks ++ [k]) =
    (Transform.rounds enc dec).db n m (dec n m b k) ks := by
  simp [Transform.db]

/-- R114: the round that encryption applied last is the one decryption undoes first. -/
theorem rounds_db_eb (hround : ∀ (b : Block n) (k : K), dec n m (enc n m b k) k = b) :
    (Transform.rounds enc dec).db n m ((Transform.rounds enc dec).eb n m b ks) ks = b := by
  induction ks using List.reverseRecOn with
  | nil => rfl
  | append_singleton ks k ih => rw [rounds_eb_append, rounds_db_append, hround, ih]

end Rounds

/-- Settles O13: both directions are folds over the round keys. -/
theorem roundKeysAreConsumedInOrder : Obligations.RoundKeysAreConsumedInOrder :=
  fun _ enc dec n m b ks k =>
    ⟨rfl, rfl, rounds_eb_append enc dec n m b ks k, rounds_db_append enc dec n m b ks k⟩

/-- Settles O14: induction on the round keys; the half that a Feistel round keeps cancels the mask of the
other. -/
theorem invertibleRoundsGiveTheRoundTrip : Obligations.InvertibleRoundsGiveTheRoundTrip := by
  refine fun K store load load_store ek n m => ⟨fun enc dec hround b ks => ?rounds, fun F b ks => ?feistel⟩
  case rounds => exact rounds_db_eb enc dec n m b ks hround
  case feistel =>
    refine rounds_db_eb _ _ n m b ks fun b k => ?_
    rw [BitVec.xor_assoc, BitVec.xor_self, BitVec.xor_zero]

/-! ### The value of a text command -/

/-- Settles O27: the checks pass, so the command completes with its function's value, and the frame is that
of every text command. -/
theorem textCommandComputesItsFunction : Obligations.TextCommandComputesItsFunction := by
  intro d s t key h hd herr
  obtain ⟨hcfg, -, haligned, -⟩ := firstError_eq_none_iff.1 herr
  have hn : 0 < s.n := (h.wordSize hcfg).1
  have hout := textFunction_ok Config.strategy d (m := s.m) hn key haligned
  have hcompletes := textCommandWith_completes Config.strategy d h.wordSize hd herr hout
  obtain ⟨hhost, hconfig, hphase, hrk, -, -, habove⟩ := textCommandWith_frame hcompletes
  refine ⟨_, _, textBlocks s.n t, (exec_textInstr d s).trans hcompletes, hout,
    textToBlocks_eq hn haligned, resultView_completeOk_some rfl rfl, rfl, ?status, rfl, rfl, hphase, hrk,
    ?events, habove, hconfig, hhost⟩
  case status => simp [statusWord, hcfg]
  case events => cases d <;> rfl

/-! ### The bits of a block -/

theorem slice_append_right {α : Type} (a s : List α) (i j : Nat) :
    slice (a ++ s) (a.length + i) (a.length + j) = slice s i j := by
  rw [slice, slice, List.drop_length_add_append, Nat.add_sub_add_left]

/-- What stands after a sequence shows in a slice according to the sequence's length alone. -/
theorem slice_append_congr {α : Type} {a a' : List α} (p : List α) {i j : Nat}
    (hlen : a.length = a'.length) (h : slice a i j = slice a' i j) :
    slice (a ++ p) i j = slice (a' ++ p) i j := by
  unfold slice at h ⊢
  rw [List.drop_append, List.drop_append, List.take_append, List.take_append, h, List.length_drop,
    List.length_drop, hlen]

/-- R136, R137: bits `2·n·j` to `2·n·(j+1)` of a sequence of blocks are those of its block `j`, if it has
one. -/
theorem slice_wordsToBits_flatten (n : Nat) (bs : List (Nat × Nat)) (j : Nat) :
    slice (wordsToBits n (flatten bs)) (2 * n * j) (2 * n * (j + 1)) =
      wordsToBits n (flatten bs[j]?.toList) := by
  induction bs generalizing j with
  | nil => simp [slice, wordsToBits]
  | cons b bs ih =>
    have hsplit : wordsToBits n (flatten (b :: bs)) =
        wordsToBits n [b.1, b.2] ++ wordsToBits n (flatten bs) := by
      simp [wordsToBits]
    have hlen : (wordsToBits n [b.1, b.2]).length = 2 * n := by simp [mul_comm]
    cases j with
    | zero =>
      rw [hsplit, slice, Nat.mul_zero, List.drop_zero]
      exact List.take_left' (by rw [hlen]; omega)
    | succ j =>
      have hshift (k : Nat) : 2 * n * (k + 1) = (wordsToBits n [b.1, b.2]).length + 2 * n * k := by
        rw [hlen, Nat.mul_succ, Nat.add_comm]
      rw [hsplit, hshift j, hshift (j + 1), slice_append_right, ih, List.getElem?_cons_succ]

variable {n : Nat}

/-- R7: words in range are known by their bits. -/
theorem wordsToBits_injective {ws ws' : List Nat} (hn : 0 < n) (hlt : ∀ w ∈ ws, w < 2 ^ n)
    (hlt' : ∀ w ∈ ws', w < 2 ^ n) (h : wordsToBits n ws = wordsToBits n ws') : ws = ws' := by
  have hlen : ws.length = ws'.length := by
    have hbits := congrArg List.length h
    rw [wordsToBits_length, wordsToBits_length] at hbits
    exact Nat.eq_of_mul_eq_mul_left hn hbits
  rw [← bitWords_wordsToBits n ws hlt, h, hlen, bitWords_wordsToBits n ws' hlt']

theorem flatten_injective : Function.Injective flatten :=
  Function.LeftInverse.injective pairBlocks_flatten

/-! ### The blocks of a text by its bits -/

variable {t t' : List Byte}

/-- R134, R140: the blocks of a text spell its bits, the padding word's zeros after them. -/
theorem wordsToBits_textBlocks (ha : (8 * t.length) % n = 0) :
    wordsToBits n (flatten (textBlocks n t)) = textToBits (paddedText n t) := by
  have hwhole : (wordsToBits n (textWords n t)).length % 8 = 0 := by
    rw [wordsToBits_length, textWords_length]
    exact aligned_after_padding ha
  rw [← textWords_eq_flatten, ← bitsToText_textWords ha, textToBits_bitsToText _ hwhole]

/-- R134: texts of one length are padded alike. -/
theorem slice_paddedText_congr {i j : Nat} (hlen : t.length = t'.length)
    (h : slice (textToBits t) i j = slice (textToBits t') i j) :
    slice (textToBits (paddedText n t)) i j = slice (textToBits (paddedText n t')) i j := by
  rw [paddedText, paddedText, hlen]
  split
  · exact h
  · rw [textToBits_append, textToBits_append]
    exact slice_append_congr _ (by simp [hlen]) h

theorem textBlocks_length_congr (hlen : t.length = t'.length) :
    (textBlocks n t).length = (textBlocks n t').length := by
  simp [textBlocks, pairBlocks_length, hlen]

/-- The words of block `j` of a text are in range, if there is that block. -/
theorem textBlocks_getElem?_lt {j w : Nat} (h : w ∈ flatten (textBlocks n t)[j]?.toList) : w < 2 ^ n := by
  obtain ⟨b, hb, hw⟩ := mem_flatten h
  obtain ⟨hl, hr⟩ := textBlocks_lt (List.mem_of_getElem? (Option.mem_toList.1 hb))
  rcases hw with rfl | rfl
  · exact hl
  · exact hr

/-- R168: block `j` is a function of its own bits. -/
theorem textBlocks_getElem?_congr (hn : 0 < n) (ha : (8 * t.length) % n = 0) (hlen : t.length = t'.length)
    {j : Nat} (h : slice (textToBits t) (2 * n * j) (2 * n * (j + 1)) =
      slice (textToBits t') (2 * n * j) (2 * n * (j + 1))) :
    (textBlocks n t)[j]? = (textBlocks n t')[j]? := by
  have hbits : wordsToBits n (flatten (textBlocks n t)[j]?.toList) =
      wordsToBits n (flatten (textBlocks n t')[j]?.toList) := by
    rw [← slice_wordsToBits_flatten, ← slice_wordsToBits_flatten, wordsToBits_textBlocks ha,
      wordsToBits_textBlocks (hlen ▸ ha), slice_paddedText_congr hlen h]
  have hblock : (textBlocks n t)[j]?.toList = (textBlocks n t')[j]?.toList :=
    flatten_injective (wordsToBits_injective hn (fun _ => textBlocks_getElem?_lt)
      (fun _ => textBlocks_getElem?_lt) hbits)
  rw [← Option.head?_toList (o := (textBlocks n t)[j]?), hblock, Option.head?_toList]

/-! ### Independent blocks -/

/-- R161, R162, R144: the bits of the result are those of the transformed blocks. -/
theorem textToBits_of_textFunction {S : Strategy} {d : Dir} {m : Nat} {key : KeySeq} {out : List Byte}
    (hn : 0 < n) (ha : (8 * t.length) % n = 0) (hout : textFunction S d n m t key = some (.ok out)) :
    textToBits out = wordsToBits n (flatten ((textBlocks n t).map (dirBlock S d n m (S.ek n m key)))) := by
  rw [textFunction_ok S d hn key ha] at hout
  cases hout
  refine textToBits_bitsToText _ ?_
  rw [wordsToBits_length, flatten_length, List.length_map]
  exact textBlocks_wholeBytes ha

/-- Settles O35: block `j` of the result is the transform of block `j` of the text, which is a function of
its own bits. -/
theorem blocksAreTransformedIndependently : Obligations.BlocksAreTransformedIndependently := by
  intro S d n m t t' out out' key hn hlen ha hout hout'
  have hbits := textToBits_of_textFunction hn ha hout
  have hbits' := textToBits_of_textFunction hn (hlen ▸ ha) hout'
  refine ⟨?length, fun j hj => ?block⟩
  case length =>
    have hcount := congrArg List.length hbits
    have hcount' := congrArg List.length hbits'
    simp only [textToBits_length, wordsToBits_length, flatten_length, List.length_map] at hcount hcount'
    rw [textBlocks_length_congr hlen] at hcount
    omega
  case block =>
    rw [hbits, hbits', slice_wordsToBits_flatten, slice_wordsToBits_flatten, List.getElem?_map,
      List.getElem?_map, textBlocks_getElem?_congr hn ha hlen hj]

end Sys2Proof.Machine
end

section
/-!
SUPPORT. The codec's pure functions, bit by bit (42_codec.md R130 to R144): numerals and slices, chopping,
the inverse laws and the length of a result.
-/
namespace Sys2Proof.Machine

variable {n w : Nat} {t : List Byte}

/-! ### Numerals and slices -/

/-- R7: the bits of a BitString are those of its numeral, the first the most significant. -/
theorem getElem?_eq_testBit_val (bs : BitString) {j : Nat} (hj : j < bs.length) :
    bs[j]? = some ((val bs).testBit (bs.length - 1 - j)) := by
  conv_lhs => rw [← toBits_val bs]
  exact toBits_getElem? _ _ j hj

theorem slice_length {α : Type} (s : List α) (i j : Nat) :
    (slice s i j).length = min (j - i) (s.length - i) := by
  simp [slice]

theorem slice_getElem? {α : Type} (s : List α) {i j k : Nat} (h : i + k < j) :
    (slice s i j)[k]? = s[i + k]? := by
  rw [slice, List.getElem?_take, if_pos (by omega), List.getElem?_drop]

/-- R132: the word of a whole chunk has the chunk's bits. -/
theorem slice_testBit_val {bs : BitString} {k j : Nat} (hk : k * n + n ≤ bs.length) (hj : j < n) :
    bs[k * n + j]? = some ((val (slice bs (k * n) (k * n + n))).testBit (n - 1 - j)) := by
  have hlen : (slice bs (k * n) (k * n + n)).length = n := by rw [slice_length]; omega
  have hbit := getElem?_eq_testBit_val (slice bs (k * n) (k * n + n)) (hlen.symm ▸ hj)
  rwa [slice_getElem? bs (by omega), hlen] at hbit

theorem bitWords_getElem? (bs : BitString) {k c : Nat} (hk : k < c) :
    (bitWords bs n c)[k]? = some (val (slice bs (k * n) (k * n + n))) := by
  simp [bitWords, hk]

/-- R130: bit `8i + j` of a text's bits is bit `7 - j` of character `i`. -/
theorem textToBits_getElem? {i j : Nat} {c : Byte} (hc : t[i]? = some c) (hj : j < 8) :
    (textToBits t)[8 * i + j]? = some (c.getLsbD (7 - j)) := by
  have hword : (t.map BitVec.toNat)[i]? = some c.toNat := by rw [List.getElem?_map, hc]; rfl
  rw [textToBits_eq, mul_comm]
  exact wordsToBits_getElem? 8 _ i j _ hword hj

/-! ### Chopping -/

/-- The number of chunks is `ceil(len / w)`: chunk `k` is one of them when it starts inside the bits. -/
theorem lt_chunkCount_iff (hw : 1 ≤ w) (len k : Nat) : k < (len + w - 1) / w ↔ k * w < len := by
  rw [← Nat.succ_le_iff, Nat.le_div_iff_mul_le hw, Nat.succ_mul]
  omega

theorem chop_length (bs : BitString) (w : Nat) : (chop bs w).length = (bs.length + w - 1) / w := by
  simp [chop]

theorem chop_getElem?_eq_some_iff (hw : 1 ≤ w) {bs chunk : BitString} {k : Nat} :
    (chop bs w)[k]? = some chunk ↔ k * w < bs.length ∧ slice bs (k * w) (k * w + w) = chunk := by
  rw [← lt_chunkCount_iff hw]
  simp [chop, List.getElem?_eq_some_iff]

/-- R131: no overlap and no gap, from the left. -/
theorem flatMap_slice_range (bs : BitString) (w c : Nat) :
    (List.range c).flatMap (fun k => slice bs (k * w) (k * w + w)) = bs.take (c * w) := by
  induction c with
  | zero => simp
  | succ c ih =>
    rw [List.range_succ, List.flatMap_append, ih, List.flatMap_singleton, slice, Nat.add_sub_cancel_left,
      Nat.succ_mul, List.take_add]

theorem chop_flatten (hw : 1 ≤ w) (bs : BitString) : (chop bs w).flatten = bs := by
  have hall : bs.length ≤ (bs.length + w - 1) / w * w :=
    Nat.le_of_not_lt fun h => lt_irrefl _ ((lt_chunkCount_iff hw _ _).2 h)
  rw [chop, ← List.flatMap_def, flatMap_slice_range, List.take_of_length_le hall]

/-! ### The domain of the text's blocks -/

/-- R133: a text has blocks exactly when it is a whole number of words. -/
theorem textToBlocks_isSome_iff (hn : 1 ≤ n) :
    (textToBlocks n t).isSome = true ↔ (8 * t.length) % n = 0 := by
  by_cases ha : (8 * t.length) % n = 0
  · simp [textToBlocks_eq hn ha, ha]
  · simp [textToBlocks_eq_none hn ha, ha]

theorem textFunction_isSome_iff (S : Strategy) (d : Dir) (m : Nat) (key : KeySeq) (hn : 1 ≤ n) :
    (textFunction S d n m t key).isSome = true ↔ (8 * t.length) % n = 0 := by
  rw [textFunction, Option.isSome_map, textToBlocks_isSome_iff hn]

theorem parseWords_eq_none_of_short {chunks : List BitString} (h : ∃ c ∈ chunks, c.length < n) :
    parseWords n chunks = none := by
  obtain ⟨c, hc, hshort⟩ := h
  refine if_neg fun hall => hshort.ne ?_
  simpa using List.all_eq_true.1 hall c hc

/-- Settles O57: the domains of R133, from the text to the function of a command. -/
theorem textToBlocksIsPartial : Obligations.TextToBlocksIsPartial :=
  fun _ _ hn => ⟨textToBlocks_isSome_iff hn, fun _ => parseWords_eq_none_of_short,
    fun S d m key => textFunction_isSome_iff S d m key hn⟩

/-! ### The inverse laws -/

/-- R141: words in whole bytes make a text. -/
theorem wordsToText_eq {ws : List Nat} (hbytes : (n * ws.length) % 8 = 0) :
    wordsToText n ws = .ok (bitsToText (wordsToBits n ws)) :=
  if_pos (by rw [wordsToBits_length]; exact hbytes)

/-- R142: a text's blocks give it back, the padding word with it. -/
theorem textToBlocks_map_blocksToText (hn : 1 ≤ n) (ha : (8 * t.length) % n = 0) :
    (textToBlocks n t).map (blocksToText n) = some (.ok (paddedText n t)) := by
  have hbytes := aligned_after_padding ha
  rw [← textWords_length] at hbytes
  rw [textToBlocks_eq hn ha, Option.map_some, blocksToText, ← textWords_eq_flatten, wordsToText_eq hbytes,
    bitsToText_textWords ha]

/-- R143: an odd number of words in whole bytes is only possible for words of whole bytes. -/
theorem wholeByteWords_of_odd (ha : (8 * t.length) % n = 0) (hodd : (8 * t.length / n) % 2 = 1) :
    n % 8 = 0 := by
  have hbytes := aligned_after_padding ha
  rw [hodd, Nat.mul_succ, mul_comm, wordCount_mul ha] at hbytes
  omega

/-- R142: an even number of words in whole bytes is kept by the way through text. -/
theorem textToBlocks_bitsToText {ws : List Nat} (hn : 1 ≤ n) (heven : ws.length % 2 = 0)
    (hbytes : (n * ws.length) % 8 = 0) (hlt : ∀ w ∈ ws, w < 2 ^ n) :
    (textToBlocks n (bitsToText (wordsToBits n ws))).map flatten = some ws := by
  have haligned : (8 * (bitsToText (wordsToBits n ws)).length) % n = 0 := by
    rw [bitsToText_length, wordsToBits_length, Nat.mul_div_cancel' (Nat.dvd_of_mod_eq_zero hbytes),
      Nat.mul_mod_right]
  rw [textToBlocks_eq hn haligned, Option.map_some, ← textWords_eq_flatten,
    textWords_bitsToText hn hlt heven hbytes]

/-- Settles O24: the two laws of the text read off `paddedText`, then words, chunks and pairs. -/
theorem codecInverseLaws : Obligations.CodecInverseLaws := by
  refine ⟨fun n t hn ha heven => ?even, fun n t hn ha hodd => ⟨wholeByteWords_of_odd ha hodd, ?odd⟩,
    fun n ws hn heven hbytes hlt =>
      ⟨_, wordsToText_eq hbytes, textToBlocks_bitsToText hn heven hbytes hlt⟩,
    fun bs w hw => chop_flatten hw bs, flatten_pairBlocks, pairBlocks_flatten⟩
  case even => rw [textToBlocks_map_blocksToText hn ha, paddedText, if_pos heven]
  case odd => rw [textToBlocks_map_blocksToText hn ha, paddedText, if_neg (by omega)]

/-! ### The length of a result -/

/-- R143: the text that the padded words spell, in bytes. -/
theorem paddedText_length (ha : (8 * t.length) % n = 0) :
    (paddedText n t).length = n * (8 * t.length / n + (8 * t.length / n) % 2) / 8 := by
  rw [← bitsToText_textWords ha, bitsToText_length, wordsToBits_length, textWords_length]

/-- R143: a result is as long as the padded text, whatever the strategy and the key. -/
theorem textFunction_length {S : Strategy} {d : Dir} {m : Nat} {key : KeySeq} {out : List Byte}
    (hn : 1 ≤ n) (ha : (8 * t.length) % n = 0) (hout : textFunction S d n m t key = some (.ok out)) :
    out.length = (paddedText n t).length := by
  rw [textFunction_ok S d hn key ha] at hout
  cases hout
  rw [bitsToText_length, wordsToBits_length, flatten_length, List.length_map, textBlocks_length,
    textWords_length, paddedText_length ha]

/-- Settles O25: the blocks and the padded text give the lengths; the padding word of an odd count is at
least one byte. -/
theorem resultLengthFollowsFromTheText : Obligations.ResultLengthFollowsFromTheText := by
  intro S d n m t out key hn hout
  have ha : (8 * t.length) % n = 0 :=
    (textFunction_isSome_iff S d m key hn).1 (Option.isSome_of_eq_some hout)
  have hlen := textFunction_length hn ha hout
  have hblocks := textBlocks_length n t
  rw [textWords_length] at hblocks
  refine ⟨⟨_, textToBlocks_eq hn ha, by omega⟩, hlen.trans (paddedText_length ha), ?_⟩
  by_cases heven : (8 * t.length / n) % 2 = 0
  · rw [paddedText, if_pos heven] at hlen
    omega
  · have hodd : (8 * t.length / n) % 2 = 1 := by omega
    have hword := wholeByteWords_of_odd ha hodd
    have hne : t.length ≠ 0 := fun h => by simp [h] at hodd
    rw [paddedText, if_neg heven, List.length_append, List.length_replicate] at hlen
    omega

end Sys2Proof.Machine
end

section
/-!
SUPPORT. The codec's micro-operations (42_codec.md R130 to R139): what each writes, what it leaves alone and
what it refuses, and R144 for the text commands.
-/
namespace Sys2Proof.Machine

/-! ### From text to words -/

/-- Settles O15: the elements read are the text, and its bits stand where R130 puts them. -/
theorem textToBitsIsMostSignificantFirst : Obligations.TextToBitsIsMostSignificantFirst := by
  refine fun s t ht => ⟨textToBits t, ?run, textToBits_length t, fun i j c => textToBits_getElem?⟩
  case run =>
    have hread : readSeq s.inbuf 0 s.textlen = .ok t := ht
    rw [exec, execTextToBits, hread]
    rfl

/-- Settles O16: a chunk is a slice that starts inside the bits, and the last is where the next would not. -/
theorem chopCutsIntoChunks : Obligations.ChopCutsIntoChunks := by
  refine ⟨fun s hn => ?count, fun bs w hw => ⟨chop_length bs w, ?empty, fun k chunk hchunk => ?chunk⟩⟩
  case count =>
    rw [exec, execChopN, divN, if_neg (by omega)]
    rfl
  case empty =>
    refine List.length_eq_zero_iff.1 ?_
    rw [chop_length, List.length_nil, Nat.zero_add, Nat.div_eq_of_lt (by omega)]
  case chunk =>
    obtain ⟨hstart, rfl⟩ := (chop_getElem?_eq_some_iff hw).1 hchunk
    have hk := (lt_chunkCount_iff hw bs.length k).2 hstart
    have hnext := lt_chunkCount_iff hw bs.length (k + 1)
    rw [Nat.succ_mul] at hnext
    rw [← chop_length] at hk hnext
    rw [slice_length, Nat.add_sub_cancel_left]
    refine ⟨by omega, by omega, ?_, fun j hj => slice_getElem? bs (by omega)⟩
    split
    · omega
    · have hlast : (chop bs w).length - 1 = k := by omega
      rw [hlast]
      omega

/-- Settles O17: below WCOUNT the buffer holds the chunks' numerals, above it what it held. -/
theorem parseWordsReadsEachChunk : Obligations.ParseWordsReadsEachChunk := by
  intro s hlen
  refine ⟨writeSeq s.wbuf 0 (bitWords s.bitbuf s.n s.wcount), if_pos hlen, fun k hk => ?above,
    fun k hk => ?word⟩
  case above => rw [readBuf_writeSeq, if_neg (by rw [bitWords_length]; omega)]
  case word =>
    have hword := bitWords_getElem? (n := s.n) s.bitbuf hk
    have hchunk : k * s.n + s.n ≤ s.bitbuf.length := by
      rw [← Nat.succ_mul]
      exact (Nat.mul_le_mul_right s.n hk).trans hlen
    refine ⟨_, ?_, bitWords_lt (List.mem_of_getElem? hword), fun j => slice_testBit_val hchunk⟩
    rw [readBuf_writeSeq, if_pos (by rw [bitWords_length]; omega), Nat.sub_zero, hword]

/-- R134: an odd number of words is padded. -/
theorem padWords_of_odd {s : State} (h : s.wcount % 2 = 1) :
    padWords s = { s with wbuf := writeBuf s.wbuf s.wcount 0, wcount := s.wcount + 1 } := if_pos h

theorem padWords_of_even {s : State} (h : s.wcount % 2 = 0) : padWords s = s := if_neg (by omega)

/-- R134, R163: PAD_EVEN after the padding, the transfer by the number of blocks. -/
theorem execPadEven_eq (s : State) : execPadEven s = .next
    { padWords s with
      bcount := (padWords s).wcount / 2
      blk := if 0 < (padWords s).wcount / 2 then 0 else (padWords s).blk
      phase := if 0 < (padWords s).wcount / 2 then 8 else 12 } := by
  rw [execPadEven]
  split_ifs <;> rfl

/-- Settles O18: by the parity of the count. -/
theorem padEvenAppendsOneZeroWord : Obligations.PadEvenAppendsOneZeroWord := by
  intro s
  rw [exec, execPadEven_eq]
  rcases Nat.mod_two_eq_zero_or_one s.wcount with heven | hodd
  · rw [padWords_of_even heven]
    exact ⟨_, _, _, rfl, by omega, rfl, fun hodd => by omega, fun _ => rfl, fun _ _ => rfl⟩
  · rw [padWords_of_odd hodd]
    exact ⟨_, _, _, rfl, by rw [hodd], rfl, fun _ => readBuf_writeBuf_same _ _ _, fun heven => by omega,
      fun _ hk => readBuf_writeBuf_other _ _ hk⟩

/-! ### The block's place in WBUF -/

/-- R135: PAIR_BLOCKS always completes, with what the two elements read as. -/
theorem execPairBlocks_eq (s : State) : exec .pairBlocks s = .next
    { s with
      l := readWord s (2 * s.blk)
      r := readWord s (2 * s.blk + 1)
      phase := if s.dir = .enc then 9 else 10 } := by
  rw [exec, execPairBlocks]
  cases s.dir <;> rfl

theorem readWord_of_held {s : State} {k w : Nat} (h : readBuf s.wbuf k = some w) : readWord s k = w := by
  rw [readWord, h]

/-- R41, log 6: an element without a value reads as a word of `N` bits. -/
theorem readWord_lt_of_unheld {s : State} {k : Nat} (h : readBuf s.wbuf k = none) : readWord s k < 2 ^ s.n := by
  rw [readWord, h]
  exact Nat.mod_lt _ (by positivity)

/-- R135: block `j` is words `2j` and `2j + 1`. -/
theorem pairBlocks_getElem? {ws : List Nat} (heven : ws.length % 2 = 0) {j a b : Nat}
    (ha : ws[2 * j]? = some a) (hb : ws[2 * j + 1]? = some b) : (pairBlocks ws)[j]? = some (a, b) := by
  obtain ⟨hleft, hright⟩ := flatten_getElem? (pairBlocks ws) j
  rw [flatten_pairBlocks ws heven, ha] at hleft
  rw [flatten_pairBlocks ws heven, hb] at hright
  cases hblock : (pairBlocks ws)[j]? with
  | none => rw [hblock] at hleft; cases hleft
  | some p => rw [hblock] at hleft hright; cases hleft; cases hright; rfl

/-- Settles O19: held elements read as their words. -/
theorem pairBlocksLoadsTheBlock : Obligations.PairBlocksLoadsTheBlock := by
  refine ⟨fun s a b ha hb => ?load, fun ws heven =>
    ⟨pairBlocks_length ws, fun j a b => pairBlocks_getElem? heven⟩⟩
  case load => rw [execPairBlocks_eq, readWord_of_held ha, readWord_of_held hb]

/-- WBUF after FLATTEN has written `L` and `R` to the place of block `BLK` (R136). -/
def blockWritten (s : State) : Buf Nat := writeBuf (writeBuf s.wbuf (2 * s.blk) s.l) (2 * s.blk + 1) s.r

theorem readBuf_blockWritten (s : State) (k : Nat) : readBuf (blockWritten s) k =
    if k = 2 * s.blk then some s.l else if k = 2 * s.blk + 1 then some s.r else readBuf s.wbuf k := by
  rw [blockWritten, readBuf_writeBuf, readBuf_writeBuf]
  split_ifs
  · omega
  all_goals rfl

/-- R136, R163: FLATTEN always completes; the transfer is by `BLK + 1` against BCOUNT. -/
theorem execFlatten_eq (s : State) : exec .flatten s = .next
    { s with
      wbuf := blockWritten s
      blk := if s.blk + 1 < s.bcount then s.blk + 1 else s.blk
      phase := if s.blk + 1 < s.bcount then 8 else 12 } := by
  rw [exec, execFlatten]
  split <;> rfl

/-- Settles O20: a read after the two writes. -/
theorem flattenWritesTheBlockBack : Obligations.FlattenWritesTheBlockBack :=
  ⟨fun s _ => ⟨_, execFlatten_eq s, readBuf_blockWritten s⟩,
    fun bs j => ⟨flatten_length bs, flatten_getElem? bs j⟩⟩

/-! ### From words to text -/

section EnsureNBits

variable {s : State}

theorem storedWords_getElem? {k : Nat} (hk : k < s.wcount) : (storedWords s)[k]? = some (readWord s k) := by
  simp [storedWords, hk]

theorem storedWords_length (s : State) : (storedWords s).length = s.wcount := by simp [storedWords]

/-- R137: words that fit become bits, each at its place; an element without a value always fits. -/
theorem execEnsureNBits_of_fit (hfit : ∀ k w, k < s.wcount → readBuf s.wbuf k = some w → w < 2 ^ s.n) :
    ∃ bits : BitString, exec .ensureNBits s = .next { s with bitbuf := bits, phase := 13 } ∧
      bits.length = s.n * s.wcount ∧
      ∀ k w j, k < s.wcount → readBuf s.wbuf k = some w → j < s.n →
        bits[k * s.n + j]? = some (w.testBit (s.n - 1 - j)) := by
  have hread : ∀ k, k < s.wcount → readWord s k < 2 ^ s.n := by
    intro k hk
    cases hheld : readBuf s.wbuf k with
    | none => exact readWord_lt_of_unheld hheld
    | some w => rw [readWord_of_held hheld]; exact hfit k w hk hheld
  have hnone : (storedWords s).find? (fun w => decide (2 ^ s.n ≤ w)) = none := by
    simpa [storedWords] using hread
  refine ⟨wordsToBits s.n (storedWords s), ?run, by rw [wordsToBits_length, storedWords_length],
    fun k w j hk hheld hj => ?bit⟩
  case run =>
    rw [exec, execEnsureNBits, hnone]
    rfl
  case bit =>
    have hword := storedWords_getElem? hk
    rw [readWord_of_held hheld] at hword
    exact wordsToBits_getElem? s.n _ k j w hword hj

/-- R137: a word that does not fit is refused. -/
theorem execEnsureNBits_of_not_fit (h : ∃ k w, k < s.wcount ∧ readBuf s.wbuf k = some w ∧ 2 ^ s.n ≤ w) :
    ∃ w, exec .ensureNBits s = .refused (.wordOutOfRange w) := by
  obtain ⟨k, w, hk, hheld, hw⟩ := h
  have hmem : w ∈ storedWords s := by
    have hword := storedWords_getElem? hk
    rw [readWord_of_held hheld] at hword
    exact List.mem_of_getElem? hword
  cases hfind : (storedWords s).find? (fun w => decide (2 ^ s.n ≤ w)) with
  | none => exact absurd (decide_eq_true hw) (List.find?_eq_none.1 hfind w hmem)
  | some x => exact ⟨x, by rw [exec, execEnsureNBits, hfind]⟩

end EnsureNBits

/-- Settles O21: the elements held below WCOUNT are the words of the list. -/
theorem ensureNBitsPadsAndNeverTruncates : Obligations.EnsureNBitsPadsAndNeverTruncates := by
  refine fun s ws hlen hheld => ⟨fun hfit => ?fit, fun hbad => ?bad⟩
  case fit =>
    obtain ⟨bits, hrun, hcount, hbits⟩ := execEnsureNBits_of_fit fun k w hk hw =>
      hfit w (List.mem_of_getElem? ((hheld k hk).symm.trans hw))
    refine ⟨bits, hrun, hcount, fun k j w hw hj => ?_⟩
    have hk : k < s.wcount := hlen ▸ (List.getElem?_eq_some_iff.1 hw).1
    exact hbits k w j hk ((hheld k hk).trans hw) hj
  case bad =>
    obtain ⟨w, hmem, hw⟩ := hbad
    obtain ⟨k, hk⟩ := List.mem_iff_getElem?.1 hmem
    have hlt : k < s.wcount := hlen ▸ (List.getElem?_eq_some_iff.1 hk).1
    exact execEnsureNBits_of_not_fit ⟨k, w, hlt, (hheld k hlt).trans hk, hw⟩

/-- Settles O22: the two branches of the test. -/
theorem alignCheckTestsTheLength : Obligations.AlignCheckTestsTheLength :=
  fun _ => ⟨fun haligned => if_neg (not_not_intro haligned), fun hrest => if_pos hrest⟩

/-- R139: BITS_TO_TEXT with the default limits always completes. -/
theorem execBitsToText_eq (s : State) : exec .bitsToText s = .next
    (completeOk (some (s.bitbuf.length / 8))
      { s with outbuf := writeSeq s.outbuf 0 (bitsToText s.bitbuf) }) := rfl

/-- R36, R139: the host reads the bytes just stored. -/
theorem outByte_completeOk_writeSeq (s : State) (b : Buf Byte) (out : List Byte) {i : Nat}
    (hi : i < out.length) : out[i]? =
      some (outByte (completeOk (some out.length) { s with outbuf := writeSeq b 0 out }) i) := by
  have hstored : readBuf (writeSeq b 0 out) i = some out[i] := by
    rw [readBuf_writeSeq, if_pos (by omega), Nat.sub_zero, List.getElem?_eq_getElem hi]
  rw [outByte_of_valid rfl hi hstored, List.getElem?_eq_getElem hi]

/-- Settles O23: whole bytes stand in the bits as a text does (R130), and the rest is the frame of
BITS_TO_TEXT. -/
theorem bitsToTextPublishesTheBytes : Obligations.BitsToTextPublishesTheBytes := by
  intro s hbytes
  have hrun := execBitsToText_eq s
  obtain ⟨hhost, hcfg, hphase, hrk, hdone, hvalid, herr, hcode, hinfo, hevents, habove⟩ :=
    execBitsToText_frame hrun
  refine ⟨_, hrun, rfl, hvalid, hdone, hphase, hrk, fun i j hi hj => ?byte, habove, herr, hcode, hinfo,
    hevents, hcfg, hhost⟩
  case byte =>
    rw [← bitsToText_length] at hi ⊢
    have hbit := textToBits_getElem? (outByte_completeOk_writeSeq s s.outbuf (bitsToText s.bitbuf) hi) hj
    rwa [textToBits_bitsToText _ hbytes] at hbit

/-! ### Inside a text command -/

theorem errorCode_eq_five_iff (e : ErrorKind) : errorCode e = 5 ↔ e = .codecAlignment := by
  cases e <;> decide

/-- Settles O30: an end of the command is an error other than CodecAlignmentError, or a completion that
leaves the ERRCODE the command started with. -/
theorem codecAlignmentErrorIsUnreachable : Obligations.CodecAlignmentErrorIsUnreachable := by
  intro d s u h hu
  rw [exec_textInstr, textCommandWith_eq _ d h.wordSize] at hu
  cases hend : textEnd Config.strategy d s with
  | refused x => rw [hend] at hu; cases hu
  | raised e info =>
    rw [hend] at hu
    cases hu
    intro hcode
    obtain rfl := (errorCode_eq_five_iff e).1 hcode
    exact textEnd_ne_codecAlignment _ d (fun hv => (h.wordSize hv).1) info hend
  | completed blocks out =>
    rw [hend] at hu
    cases hu
    exact (by decide : (0 : BitVec 4) ≠ 5)

/-! ### Outside the contract -/

/-- R110, R111: the left word is tested first. -/
theorem blockFault_left {s : State} (hl : 2 ^ s.n ≤ s.l) : blockFault s = some s.l := if_pos hl

theorem blockFault_right {s : State} (hl : s.l < 2 ^ s.n) (hr : 2 ^ s.n ≤ s.r) : blockFault s = some s.r := by
  rw [blockFault, if_neg (by omega), if_pos hr]

theorem execEncryptBlock_fault {s : State} {w : Nat} (heb : s.strat.getLsbD 1 = true)
    (hw : blockFault s = some w) : exec .encryptBlock s = .refused (.wordOutOfRange w) := by
  have hpresent : ebPresent s = true := heb
  rw [exec, execEncryptBlock, encryptBlockWith, if_pos hpresent, hw]

theorem execDecryptBlock_fault {s : State} {w : Nat} (hdb : s.strat.getLsbD 2 = true)
    (hw : blockFault s = some w) : exec .decryptBlock s = .refused (.wordOutOfRange w) := by
  have hpresent : dbPresent s = true := hdb
  rw [exec, execDecryptBlock, decryptBlockWith, if_pos hpresent, hw]

/-- Settles O45: each clause is the branch of its micro-operation outside the contract. -/
theorem microOperationsOutsideTheirContract : Obligations.MicroOperationsOutsideTheirContract := by
  refine ⟨fun s heb => ⟨fun hl => execEncryptBlock_fault heb (blockFault_left hl),
      fun hl hr => execEncryptBlock_fault heb (blockFault_right hl hr)⟩,
    fun s hdb => ⟨fun hl => execDecryptBlock_fault hdb (blockFault_left hl),
      fun hl hr => execDecryptBlock_fault hdb (blockFault_right hl hr)⟩,
    fun s hshort => if_neg (Nat.not_le.2 hshort),
    fun s => ⟨_, _, execPairBlocks_eq s, readWord_lt_of_unheld, fun _ => readWord_of_held,
      readWord_lt_of_unheld, fun _ => readWord_of_held⟩,
    fun s => ⟨execEnsureNBits_of_fit, execEnsureNBits_of_not_fit⟩,
    fun s _ => ⟨_, rfl⟩,
    fun s hblk => ⟨blockWritten s, ?flatten, readBuf_blockWritten s⟩⟩
  case flatten =>
    have hlast : ¬ s.blk + 1 < s.bcount := by omega
    rw [execFlatten_eq, if_neg hlast, if_neg hlast]

end Sys2Proof.Machine
end

section
/-!
SUPPORT. The sequencer of a text command (43_facade.md R160 to R163): where each micro-operation sends
`PHASE`, and the command as the run of its micro-operations.
-/
namespace Sys2Proof.Machine

variable {s t : State}

/-! ### CHECK_INPUT -/

/-- R169: the third test, on a word size. -/
theorem checkInput_misaligned (hv : s.cfgValid = true) (hp : s.textPresent = true) (hn : 1 ≤ s.n)
    (ha : (8 * s.textlen) % s.n ≠ 0) : execCheckInput s = .next (raiseError .input 1 s) := by
  have hmod : modN (alpha * s.textlen) s.n ≠ 0 := by
    rw [modN, if_neg (by omega)]
    exact ha
  rw [execCheckInput, if_neg (by simp [hv]), if_neg (by simp [hp]), if_pos hmod]

/-- Settles O26: the branches of the three tests. -/
theorem checkInputTestsInOrder : Obligations.CheckInputTestsInOrder := by
  refine fun s => ⟨fun hv => if_pos hv, fun hv hp => ?absent, fun hv hp hn ha => ?misaligned,
    fun hv hp hn ha => ?passes⟩
  case absent => rw [exec, execCheckInput, if_neg (by simp [hv]), if_pos hp]
  case misaligned => exact checkInput_misaligned hv hp hn ha
  case passes => exact checkInput_passes hv hp hn ha

/-! ### Transfers of `PHASE` -/

/-- The sequencer goes on at `PHASE = p`, its direction and its place in the block loop kept. -/
structure GoesTo (p : BitVec 4) (s t : State) : Prop where
  phase  : t.phase = p
  dir    : t.dir = s.dir
  blk    : t.blk = s.blk
  bcount : t.bcount = s.bcount

theorem GoesTo.trans {p q : BitVec 4} {u : State} (h : GoesTo p s t) (h' : GoesTo q t u) :
    GoesTo q s u :=
  ⟨h'.phase, h'.dir.trans h.dir, h'.blk.trans h.blk, h'.bcount.trans h.bcount⟩

theorem toPhase_goesTo (p : BitVec 4) (s : State) : GoesTo p s (toPhase p s) := ⟨rfl, rfl, rfl, rfl⟩

theorem raiseError_raised (e : ErrorKind) (info : Nat) (s : State) : Raised (raiseError e info s) :=
  ⟨rfl, rfl, rfl, rfl, rfl, rfl⟩

/-- R163, R190: the two ways out of a micro-operation that can raise, as the transfer table has them. -/
theorem phase_or_raised {p : BitVec 4} (h : GoesTo p s t ∨ Raised t) :
    t.phase = p ∨ (t.phase = 0 ∧ t.err = true) :=
  h.imp GoesTo.phase fun ⟨hphase, _, _, herr, _⟩ => ⟨hphase, herr⟩

theorem execCheckInput_goesTo (h : execCheckInput s = .next t) : GoesTo 2 s t ∨ Raised t := by
  unfold execCheckInput at h
  split_ifs at h <;> cases h
  · exact .inr (raiseError_raised ..)
  · exact .inr (raiseError_raised ..)
  · exact .inr (raiseError_raised ..)
  · exact .inl (toPhase_goesTo 2 s)

theorem execValidateKey_goesTo (h : execValidateKey s = .next t) : GoesTo 3 s t ∨ Raised t := by
  unfold execValidateKey at h
  split at h
  · cases h; exact .inr (raiseError_raised ..)
  · split at h <;> cases h
    · exact .inl (toPhase_goesTo 3 s)
    · exact .inr (raiseError_raised ..)

theorem expandKeyWith_goesTo {S : Strategy} (h : expandKeyWith S s = .next t) :
    GoesTo 4 s t ∨ Raised t := by
  unfold expandKeyWith at h
  split at h
  · split at h <;> cases h
    exact .inl ⟨rfl, rfl, rfl, rfl⟩
  · cases h; exact .inr (raiseError_raised ..)

theorem execTextToBits_goesTo (h : execTextToBits s = .next t) : GoesTo 5 s t := by
  unfold execTextToBits at h
  split at h <;> cases h
  exact ⟨rfl, rfl, rfl, rfl⟩

theorem execChopN_goesTo (h : execChopN s = .next t) : GoesTo 6 s t := by
  cases h
  exact ⟨rfl, rfl, rfl, rfl⟩

theorem execParseWords_goesTo (h : execParseWords s = .next t) : GoesTo 7 s t := by
  unfold execParseWords at h
  split at h <;> cases h
  exact ⟨rfl, rfl, rfl, rfl⟩

theorem execPairBlocks_goesTo (h : execPairBlocks s = .next t) :
    GoesTo (if s.dir = .enc then 9 else 10) s t := by
  cases (execPairBlocks_eq s).symm.trans h
  exact ⟨rfl, rfl, rfl, rfl⟩

theorem encryptBlockWith_goesTo {S : Strategy} (h : encryptBlockWith S s = .next t) :
    GoesTo 11 s t ∨ Raised t := by
  unfold encryptBlockWith at h
  split at h
  · split at h <;> cases h
    exact .inl ⟨rfl, rfl, rfl, rfl⟩
  · cases h; exact .inr (raiseError_raised ..)

theorem decryptBlockWith_goesTo {S : Strategy} (h : decryptBlockWith S s = .next t) :
    GoesTo 11 s t ∨ Raised t := by
  unfold decryptBlockWith at h
  split at h
  · split at h <;> cases h
    exact .inl ⟨rfl, rfl, rfl, rfl⟩
  · cases h; exact .inr (raiseError_raised ..)

theorem execEnsureNBits_goesTo (h : execEnsureNBits s = .next t) : GoesTo 13 s t := by
  unfold execEnsureNBits at h
  split at h <;> cases h
  exact ⟨rfl, rfl, rfl, rfl⟩

theorem execAlignCheck_goesTo (h : execAlignCheck s = .next t) : GoesTo 14 s t ∨ Raised t := by
  unfold execAlignCheck at h
  split at h <;> cases h
  · exact .inr (raiseError_raised ..)
  · exact .inl (toPhase_goesTo 14 s)

/-- R163: PAD_EVEN enters the block loop at block 0, or passes it by when there is no block. -/
theorem execPadEven_transfer (h : execPadEven s = .next t) :
    t.dir = s.dir ∧ ((0 < t.bcount ∧ t.phase = 8 ∧ t.blk = 0) ∨ (t.bcount = 0 ∧ t.phase = 12)) := by
  have hdir : (padWords s).dir = s.dir := by unfold padWords; split <;> rfl
  cases (execPadEven_eq s).symm.trans h
  refine ⟨hdir, ?_⟩
  dsimp only
  by_cases hblocks : 0 < (padWords s).wcount / 2
  · exact .inl ⟨hblocks, if_pos hblocks, if_pos hblocks⟩
  · exact .inr ⟨by omega, if_neg hblocks⟩

/-- R163: FLATTEN goes on to the next block, or leaves the loop after the last. -/
theorem execFlatten_transfer (h : execFlatten s = .next t) :
    t.dir = s.dir ∧ t.bcount = s.bcount ∧ (s.blk + 1 < s.bcount → t.phase = 8 ∧ t.blk = s.blk + 1) ∧
      (¬ s.blk + 1 < s.bcount → t.phase = 12) := by
  cases (execFlatten_eq s).symm.trans h
  exact ⟨rfl, rfl, fun hnext => ⟨if_pos hnext, if_pos hnext⟩, fun hlast => if_neg hlast⟩

/-- Inside a command a step is the micro-operation that `PHASE` names (R76). -/
theorem step_of_phase (i : Instr) {p : BitVec 4} (hphase : s.phase = p)
    (hcode : decodePhase p = .ok i := by rfl) : step s = exec i s :=
  step_of_decodePhase_ok (hphase ▸ hcode)

/-- Settles O37: at each phase the step is the micro-operation named there, and its transfer is the
table's row. -/
theorem phaseFollowsTheTransferTable : Obligations.PhaseFollowsTheTransferTable := by
  intro s t _ hstep
  have run (i : Instr) {p : BitVec 4} (hphase : s.phase = p) (hcode : decodePhase p = .ok i := by rfl) :
      exec i s = .next t := (step_of_phase i hphase hcode).symm.trans hstep
  refine ⟨fun h => phase_or_raised (execCheckInput_goesTo (run .checkInput h)),
    fun h => phase_or_raised (execValidateKey_goesTo (run .validateKey h)),
    fun h => phase_or_raised (expandKeyWith_goesTo (run .expandKey h)),
    fun h => (execTextToBits_goesTo (run .textToBits h)).phase,
    fun h => (execChopN_goesTo (run .chopN h)).phase,
    fun h => (execParseWords_goesTo (run .parseWords h)).phase,
    fun h => (execPadEven_transfer (run .padEven h)).2,
    fun h => (execPairBlocks_goesTo (run .pairBlocks h)).phase, ?transform, ?next, ?last,
    fun h => (execEnsureNBits_goesTo (run .ensureNBits h)).phase,
    fun h => phase_or_raised (execAlignCheck_goesTo (run .alignCheck h)), ?bitsToText, ?configure⟩
  case transform =>
    rintro (h | h)
    · exact phase_or_raised (encryptBlockWith_goesTo (run .encryptBlock h))
    · exact phase_or_raised (decryptBlockWith_goesTo (run .decryptBlock h))
  case next =>
    intro h hnext
    obtain ⟨-, -, hgo, -⟩ := execFlatten_transfer (run .flatten h)
    exact hgo hnext
  case last =>
    intro h hlast
    obtain ⟨-, -, -, hleave⟩ := execFlatten_transfer (run .flatten h)
    exact hleave (by omega)
  case bitsToText =>
    intro h
    obtain ⟨-, -, hphase, -, hdone, -⟩ := execBitsToText_frame (run .bitsToText h)
    exact ⟨hphase, hdone⟩
  case configure =>
    intro h
    obtain ⟨-, -, hphase, -, hdone, -⟩ := configureBody_frame (run .configure h)
    exact ⟨hphase, hdone⟩

/-! ### Runs of micro-operations -/

theorem run_one (M : Host.Core) (s : M.State) : M.run 1 s = M.step s := by
  rw [Host.Core.run]
  cases M.step s <;> rfl

/-- A run of steps after a run of steps. -/
theorem run_add {M : Host.Core} {k : Nat} {s t : M.State} (h : M.run k s = .next t) (j : Nat) :
    M.run (k + j) s = M.run j t := by
  induction k generalizing s with
  | zero => cases h; rw [Nat.zero_add]
  | succ k ih =>
    rw [Nat.add_right_comm, Host.Core.run]
    rw [Host.Core.run] at h
    cases hstep : M.step s with
    | next u => rw [hstep] at h; exact ih h
    | fault x => rw [hstep] at h; cases h
    | refused x => rw [hstep] at h; cases h

/-- Stepping from `s` arrives at `r`; where the command is not over there, `Q` holds. -/
structure StepsTo (s : State) (r : Result) (Q : State → Prop) : Prop where
  arrives  : ∃ k, Host.Core.run core k s = r
  goesOn   : ∀ t, r = .next t → t.phase ≠ 0 → Q t

theorem StepsTo.refl {Q : State → Prop} (h : Q s) : StepsTo s (.next s) Q :=
  ⟨⟨0, rfl⟩, fun _ ht _ => by cases ht; exact h⟩

/-- One micro-operation. -/
theorem StepsTo.micro {Q : State → Prop} (i : Instr) {p : BitVec 4} (hphase : s.phase = p)
    (hpost : ∀ t, exec i s = .next t → t.phase ≠ 0 → Q t) (hcode : decodePhase p = .ok i := by rfl) :
    StepsTo s (exec i s) Q :=
  ⟨⟨1, (run_one core s).trans (step_of_phase i hphase hcode)⟩, hpost⟩

/-- One micro-operation after another is one run after another (R163). -/
theorem StepsTo.andThen {first : Result} {f : State → Result} {Q R : State → Prop}
    (h : StepsTo s first Q) (h' : ∀ u, Q u → StepsTo u (f u) R) : StepsTo s (andThen first f) R := by
  obtain ⟨⟨k, hk⟩, hgo⟩ := h
  cases first with
  | next u =>
    by_cases hp : u.phase = 0
    · rw [andThen_over f hp]
      exact ⟨⟨k, hk⟩, fun _ ht hne => by cases ht; exact absurd hp hne⟩
    · obtain ⟨⟨j, hj⟩, hgo'⟩ := h' u (hgo u rfl hp)
      rw [andThen_running f hp]
      exact ⟨⟨k + j, (run_add hk j).trans hj⟩, hgo'⟩
  | fault x => cases x
  | refused x => exact ⟨⟨k, hk⟩, nofun⟩

/-- A micro-operation that has not ended the command has not raised. -/
theorem goesTo_of_running {p : BitVec 4} (h : GoesTo p s t ∨ Raised t) (hp : t.phase ≠ 0) :
    GoesTo p s t :=
  h.resolve_right fun hraised => hp hraised.1

/-! ### The block loop -/

/-- Where the sequencer stands when `count` passes of the block loop are left (R163). -/
structure LoopAt (d : Dir) (count : Nat) (s : State) : Prop where
  dir   : s.dir = d
  phase : s.phase = if count = 0 then 12 else 8
  blk   : count ≠ 0 → s.blk + count = s.bcount

theorem execPadEven_loopAt {d : Dir} (hdir : s.dir = d) (h : execPadEven s = .next t) :
    LoopAt d t.bcount t := by
  obtain ⟨hdir', ⟨hpos, hphase, hblk⟩ | ⟨hzero, hphase⟩⟩ := execPadEven_transfer h
  · exact ⟨hdir'.trans hdir, by rw [if_neg (by omega), hphase], fun _ => by omega⟩
  · exact ⟨hdir'.trans hdir, by rw [if_pos hzero, hphase], fun hne => absurd hzero hne⟩

theorem execFlatten_loopAt {d : Dir} {count : Nat} (hdir : s.dir = d)
    (hblk : s.blk + (count + 1) = s.bcount) (h : execFlatten s = .next t) : LoopAt d count t := by
  obtain ⟨hdir', hbcount, hnext, hlast⟩ := execFlatten_transfer h
  by_cases hcount : count = 0
  · exact ⟨hdir'.trans hdir, by rw [if_pos hcount, hlast (by omega)], fun hne => absurd hcount hne⟩
  · obtain ⟨hphase, hblk'⟩ := hnext (by omega)
    exact ⟨hdir'.trans hdir, by rw [if_neg hcount, hphase], fun _ => by omega⟩

/-- One pass of the loop is three micro-operations (R115). -/
theorem blockPass_stepsTo {d : Dir} {count : Nat} (h : LoopAt d (count + 1) s) :
    StepsTo s (blockPass Config.strategy d s) (LoopAt d count) := by
  have flatten {v : State} (g : GoesTo 11 s v) : StepsTo v (execFlatten v) (LoopAt d count) :=
    .micro .flatten g.phase fun _ hv _ => execFlatten_loopAt (g.dir.trans h.dir)
      (by rw [g.blk, g.bcount]; exact h.blk (Nat.succ_ne_zero count)) hv
  rw [blockPass]
  refine .andThen (.micro .pairBlocks h.phase fun _ hu _ => execPairBlocks_goesTo hu) fun u g => ?_
  rw [h.dir] at g
  cases d with
  | enc =>
    exact .andThen (.micro .encryptBlock g.phase fun _ hv => goesTo_of_running (encryptBlockWith_goesTo hv))
      fun v g' => flatten (g.trans g')
  | dec =>
    exact .andThen (.micro .decryptBlock g.phase fun _ hv => goesTo_of_running (decryptBlockWith_goesTo hv))
      fun v g' => flatten (g.trans g')

theorem blockLoop_stepsTo {d : Dir} {count : Nat} (h : LoopAt d count s) :
    StepsTo s (blockLoop Config.strategy d count s) (fun t => t.phase = 12) := by
  induction count generalizing s with
  | zero => exact .refl h.phase
  | succ count ih => exact .andThen (blockPass_stepsTo h) fun _ => ih

/-! ### The text commands -/

/-- R161, R162: the lines of the pseudocode are the micro-operations at phases 1 to 14. -/
theorem textCommandWith_stepsTo (d : Dir) (s : State) :
    StepsTo (enterText d s) (textCommandWith Config.strategy d s) (fun _ => True) := by
  rw [textCommandWith]
  refine .andThen (.micro .checkInput rfl fun _ h => goesTo_of_running (execCheckInput_goesTo h))
    fun u g => ?_
  refine .andThen (.micro .validateKey g.phase fun _ h => goesTo_of_running (execValidateKey_goesTo h))
    fun u g' => ?_
  replace g := g.trans g'
  refine .andThen (.micro .expandKey g.phase fun _ h => goesTo_of_running (expandKeyWith_goesTo h))
    fun u g' => ?_
  replace g := g.trans g'
  refine .andThen (.micro .textToBits g.phase fun _ h _ => execTextToBits_goesTo h) fun u g' => ?_
  replace g := g.trans g'
  refine .andThen (.micro .chopN g.phase fun _ h _ => execChopN_goesTo h) fun u g' => ?_
  replace g := g.trans g'
  refine .andThen (.micro .parseWords g.phase fun _ h _ => execParseWords_goesTo h) fun u g' => ?_
  replace g := g.trans g'
  refine .andThen (.micro .padEven g.phase fun _ h _ => execPadEven_loopAt g.dir h) fun u hloop => ?_
  refine .andThen (blockLoop_stepsTo hloop) fun u hphase => ?_
  refine .andThen (.micro .ensureNBits hphase fun _ h _ => execEnsureNBits_goesTo h) fun u g => ?_
  refine .andThen (.micro .alignCheck g.phase fun _ h => goesTo_of_running (execAlignCheck_goesTo h))
    fun u g => ?_
  exact .micro .bitsToText g.phase fun _ _ _ => trivial

/-- Settles O36: the run of the micro-operations, and CONFIGURE at phase 15. -/
theorem commandIsItsMicroProgram : Obligations.CommandIsItsMicroProgram := by
  refine ⟨fun d s => ?_, fun s => step_of_phase .configure rfl⟩
  rw [exec_textInstr]
  exact (textCommandWith_stepsTo d s).arrives

end Sys2Proof.Machine
end

section
/-!
SUPPORT. The empty text (43_facade.md R167): the key decides alone which end of R188 a text command has.
-/
namespace Sys2Proof.Machine

variable {s : State} {d : Dir} {key : KeySeq}

theorem hostDuties_emptyText (hlen : s.textlen = 0) (hkey : hostKey s = .ok key) :
    HostDuties s [] key where
  text _ := by rw [hostText, hlen]; rfl
  key := hkey

/-- R93, R188: the elements of the key that R93 accepts. -/
theorem findIdx?_keyInRange_eq_none_iff {n : Nat} {key : KeySeq} :
    key.findIdx? (fun k => !keyInRange n k) = none ↔ ∀ k ∈ key, 0 ≤ k ∧ k < (2 : Int) ^ n := by
  simp [List.findIdx?_eq_none_iff, keyInRange]

/-- R188: past the tests on the text, the first error is the key's or the absent `expandKey`'s; no
block function is missed (R167). -/
theorem firstError_emptyText (hv : s.cfgValid = true) (hp : s.textPresent = true) :
    firstError d s [] key =
      if key.length ≠ s.m then some (.keyFormat, key.length)
      else ((key.findIdx? fun k => !keyInRange s.n k).map fun i => (.keyRange, i)).or
        (if ekPresent s = false then some (.notImplemented, 0) else none) := by
  rw [firstError, if_neg (by simp [hv]), if_neg (by simp [hp]), if_neg (by simp)]
  cases key.findIdx? fun k => !keyInRange s.n k <;> simp

/-- R167: the empty text has no block, so the command completes with no byte and `S.ek` alone invoked. -/
theorem textCommandWith_emptyText (S : Strategy) (h : s.Inv) (hv : s.cfgValid = true)
    (hd : HostDuties s [] key) (herr : firstError d s [] key = none) :
    textCommandWith S d s = .next (completeOk (some 0) { enterText d s with events := [.ek] }) := by
  have hn : 0 < s.n := (h.wordSize hv).1
  have hblocks : textBlocks s.n [] = [] := (textBlocks_eq_nil_iff (by simp)).2 rfl
  have hout : textFunction S d s.n s.m [] key = some (.ok []) := by
    rw [textFunction_ok S d hn key (by simp), hblocks]
    simp [flatten, wordsToBits, bitsToText]
  rw [textCommandWith_completes S d h.wordSize hd herr hout, hblocks]
  rfl

/-- Settles O34: without a configuration error or a text error the key decides (O28), and without any error
the command completes. -/
theorem emptyTextGivesTheEmptyResult : Obligations.EmptyTextGivesTheEmptyResult := by
  intro d s key h hv hp hlen hkey
  have hd := hostDuties_emptyText hlen hkey
  have hkl : key.length = s.keylen := readSeq_length hkey
  have hfirst := firstError_emptyText (d := d) (key := key) hv hp
  have raises {e : ErrorKind} {info : Nat} (herr : firstError d s [] key = some (e, info)) :
      ∃ u, exec (textInstr d) s = .next u ∧ resultView u = .err (errorCode e) info := by
    obtain ⟨u, hu, hview, -⟩ := textCommandReportsTheFirstError d s [] key e info h hd herr
    exact ⟨u, hu, hview⟩
  refine ⟨fun hm hrange hek => ?result, fun hm hrange hek => ?absent, fun hm => ?count,
    fun hm hbad => ?range⟩
  case result =>
    have hpresent : ¬ ekPresent s = false := by rw [ekPresent, hek]; simp
    rw [if_neg (not_not_intro (hkl.trans hm)), findIdx?_keyInRange_eq_none_iff.2 hrange,
      if_neg hpresent] at hfirst
    exact ⟨_, (exec_textInstr d s).trans (textCommandWith_emptyText _ h hv hd hfirst),
      resultView_completeOk_some (out := []) rfl rfl, rfl, rfl, rfl, rfl⟩
  case absent =>
    have habsent : ekPresent s = false := hek
    rw [if_neg (not_not_intro (hkl.trans hm)), findIdx?_keyInRange_eq_none_iff.2 hrange,
      if_pos habsent] at hfirst
    exact raises hfirst
  case count =>
    rw [if_pos (hkl ▸ hm), hkl] at hfirst
    exact raises hfirst
  case range =>
    cases hscan : key.findIdx? fun k => !keyInRange s.n k with
    | none =>
      obtain ⟨k, hk, hout⟩ := hbad
      have := findIdx?_keyInRange_eq_none_iff.1 hscan k hk
      omega
    | some i =>
      rw [if_neg (not_not_intro (hkl.trans hm)), hscan] at hfirst
      obtain ⟨u, hu, hview⟩ := raises hfirst
      exact ⟨u, i, hu, hview⟩

end Sys2Proof.Machine
end

section
/-!
SUPPORT. The trace an error leaves (60_exceptions.md R186, R189): which of R188's errors stand before
`S.ek`.
-/
namespace Sys2Proof.Machine

variable {d : Dir} {s u : State} {e : ErrorKind} {info : Nat}

/-- R164, R190: a text command that answers a next state ends there by `raise` or by `complete_ok`. -/
theorem exec_textInstr_ends (h : s.Inv) (hu : exec (textInstr d) s = .next u) :
    (∃ e info, u = raiseError e info { enterText d s with events := errorEvents e info }) ∨
    ∃ blocks out, u = completeOk (some out.length) { enterText d s with
      outbuf := writeSeq s.outbuf 0 out, events := textEvents d blocks } := by
  rw [exec_textInstr, textCommandWith_eq _ d h.wordSize] at hu
  cases hend : textEnd Config.strategy d s with
  | refused x => rw [hend] at hu; cases hu
  | raised e info => rw [hend] at hu; cases hu; exact .inl ⟨e, info, rfl⟩
  | completed blocks out => rw [hend] at hu; cases hu; exact .inr ⟨blocks, out, rfl⟩

/-- R74: code 6 is NotImplementedError's alone. -/
theorem errorCode_eq_six_iff (e : ErrorKind) : errorCode e = 6 ↔ e = .notImplemented := by
  cases e <;> decide

/-- R189: an error other than NotImplementedError is met before `S.ek`. -/
theorem errorEvents_of_ne (he : e ≠ .notImplemented) : errorEvents e info = [] :=
  if_neg fun h => he h.1

/-- Settles O29: the trace is that of the error raised; a command that completes has no error and
ERRCODE 0. -/
theorem validationFailsBeforeTheStrategyRuns : Obligations.ValidationFailsBeforeTheStrategyRuns := by
  intro d s u h hu
  obtain ⟨e, info, rfl⟩ | ⟨blocks, out, rfl⟩ := exec_textInstr_ends h hu
  · simp only [raiseError_errcode, raiseError_errinfo, raiseError_events, errorCode_eq_six_iff]
    refine ⟨fun _ hcode => errorEvents_of_ne ?validation, ?absentEk, ?absentBlock⟩
    case validation =>
      rintro rfl
      exact absurd hcode (by decide)
    case absentEk =>
      rintro rfl rfl
      rfl
    case absentBlock =>
      rintro rfl hinfo
      exact if_pos ⟨rfl, hinfo⟩
  · simp

end Sys2Proof.Machine
end

section
/-!
SUPPORT. A text command that ends in an error, whatever elements the host has written: R213's states need not
meet the host's duties of R214, which `textCommandReportsTheFirstError` assumes.
-/
namespace Sys2Proof.Machine

variable {d : Dir} {s : State} {e : ErrorKind} {info : Nat}

/-- R190: a text command whose end is an error reports that error. -/
theorem exec_textInstr_of_raised (h : s.Inv) (hend : textEnd Config.strategy d s = .raised e info) :
    ∃ u, exec (textInstr d) s = .next u ∧ resultView u = .err (errorCode e) info := by
  rw [exec_textInstr, textCommandWith_eq _ d h.wordSize, hend]
  exact ⟨_, rfl, resultView_raiseError ..⟩

/-- R169: CHECK_INPUT tests the configuration first. -/
theorem textEnd_unconfigured (S : Strategy) (d : Dir) (hv : s.cfgValid = false) :
    textEnd S d s = .raised .configuration 4 := by
  rw [textEnd, if_pos hv]

/-- R169: under a configuration CHECK_INPUT tests the presence of the text. -/
theorem textEnd_textAbsent (S : Strategy) (d : Dir) (hv : s.cfgValid = true)
    (hp : s.textPresent = false) : textEnd S d s = .raised .input 0 := by
  rw [textEnd, if_neg (by simp [hv]), if_pos hp]

/-- R93: behind CHECK_INPUT the number of key elements is tested before any element is read. -/
theorem textEnd_keyCount (S : Strategy) (d : Dir) (hv : s.cfgValid = true) (hp : s.textPresent = true)
    (ha : (8 * s.textlen) % s.n = 0) (hlen : s.keylen ≠ s.m) :
    textEnd S d s = .raised .keyFormat s.keylen := by
  rw [textEnd, if_neg (by simp [hv]), if_neg (by simp [hp]), if_neg (not_not_intro ha), if_pos hlen]

/-- Settles O52: each missing input is an end of the text command by its error, no key elements being too
few for `M ≥ 1`; two operand registers at 0 are both faults of CONSTRUCT (O6). -/
theorem missingInitialisationRaises : Obligations.MissingInitialisationRaises := by
  refine fun d s h => ⟨fun hv => ?configuration, fun hv hp => ?text, fun hv hp ha hlen => ?key,
    fun hn hm => ?construct⟩
  case configuration => exact exec_textInstr_of_raised h (textEnd_unconfigured _ d hv)
  case text => exact exec_textInstr_of_raised h (textEnd_textAbsent _ d hv hp)
  case key =>
    obtain ⟨-, hm, -⟩ := h.configured hv
    have hend := textEnd_keyCount Config.strategy d hv hp ha (by omega)
    rw [hlen] at hend
    exact exec_textInstr_of_raised h hend
  case construct =>
    obtain ⟨u, hu, -, hfault, -⟩ := constructSetsOrClearsTheConfiguration s
    obtain ⟨-, -, -, -, -, hview, hinfo⟩ := hfault (by omega)
    rw [if_pos hn.le, if_pos hm.le] at hinfo
    rw [hinfo] at hview
    exact ⟨u, hu, hview⟩

end Sys2Proof.Machine
end
